-- ==== Sys2Proof/Word.lean ====
section
/-! DEFINITION. The word types of the block: 32-bit registers, 8-bit buffer-memory bytes, 4-bit colours (spec/00_scope.md R8, R9). -/

namespace Sys2Proof

/-- A register or a command word, 32 bits (spec/00_scope.md R6, R8). -/
abbrev Word := BitVec 32

/-- A byte of buffer memory (spec/10_state.md R50). -/
abbrev Byte := BitVec 8

/-- A colour of the run-length encoder, 4 bits (spec/42_rle.md R200). -/
abbrev Nibble := BitVec 4

end Sys2Proof
end

