-- ==== Sys2Proof/Syntax.lean ====
section
/-! DEFINITION. The commands of the block: one constructor per row of spec/opcode_table.json (spec/30_encoding.md R93). A command word has no operand field (R97). -/

namespace Sys2Proof

/-- A command the host issues by writing its word to CMD (spec/30_encoding.md R93). -/
inductive Instr where
  /-- NOP, 0x0000_0000 (spec/40_command.md R114). -/
  | nop
  /-- REPACK_LIN, 0x0000_0001 (spec/41_repack.md R165). -/
  | repackLin
  /-- REPACK_TILE, 0x0000_0002 (spec/41_repack.md R166). -/
  | repackTile
  /-- RLE_ENC, 0x0000_0003 (spec/42_rle.md R212). -/
  | rleEnc
  /-- ABORT, 0x0000_0008 (spec/40_command.md R115). -/
  | abort
deriving DecidableEq, Repr

end Sys2Proof
end

