-- ==== Sys2Proof/Syntax/Host.lean ====
section
/-! DEFINITION. What the host can do to the block (spec/20_memory.md R61, R64, R65), the register names (spec/10_state.md R22), the order in which host and engine move (R77), and the host-program syntax (spec/30_encoding.md R104 to R106). -/

namespace Sys2Proof

/-- The mapped registers of the window (spec/10_state.md R22). -/
inductive Reg where
  | ident | ctrl | cmd | status
  | srcBase | srcLen | dstBase | dstCap | idxBase | idxCap | palBase | palCount | magic
  | inCount | outCount | idxCount | tileCount | errInfo
deriving DecidableEq, Repr

/-- One bus transaction of the host (spec/30_encoding.md R104: `W`, `R`, `SB`, `LB`), and the narrower register access
whose effect is the open parameter PLATFORM_SUBWORD (spec/20_memory.md R72). -/
inductive HostOp where
  /-- `W off v`: a whole-word register write at a byte offset of the window. -/
  | wr (off : BitVec 8) (v : Word)
  /-- `R off`: a whole-word register read. -/
  | rd (off : BitVec 8)
  /-- `SB a v`: a byte store to buffer memory. -/
  | sb (a : Word) (v : Byte)
  /-- `LB a`: a byte load from buffer memory. -/
  | lb (a : Word)
  /-- An access to the register window that is narrower than a word. -/
  | subword (off : BitVec 8)
deriving DecidableEq, Repr

/-- One entry of the total order of spec/20_memory.md R77: who moves next. -/
inductive Event where
  /-- The host makes one access. -/
  | access (op : HostOp)
  /-- The engine has the turn. -/
  | engine
  /-- The host polls STATUS until BUSY reads 0 (the `wait` loop of spec/30_encoding.md R105). -/
  | waitIdle
  /-- The platform drives a warm reset (spec/70_reset_and_hazards.md R280). -/
  | warmReset
deriving DecidableEq, Repr

/-- What a host read returned: a register word at an offset, or a byte at an address. -/
inductive Reply where
  | word (off : BitVec 8) (v : Word)
  | byte (a : Word) (v : Byte)
deriving DecidableEq, Repr

/-- The keys of the `ctrl` pseudo-instruction with their values when omitted (spec/30_encoding.md R106). -/
structure CtrlKeys where
  bin  : Nat := 1
  bout : Nat := 1
  tw   : Nat := 8
  th   : Nat := 8
  mapw : Nat := 1
  idx  : Bool := false
  pad  : Bool := false
  hdr  : Bool := false
  pal  : Bool := false
  irq  : Bool := false
deriving DecidableEq, Repr

/-- A line of a host program, pseudo-instructions included (spec/30_encoding.md R104, R105). -/
inductive Stmt where
  | wr (r : Reg) (v : Word)
  | rd (r : Reg)
  | sb (a : Word) (v : Byte)
  | lb (a : Word)
  | cmd (i : Instr)
  | fill (a : Word) (bytes : List Byte)
  | wait
  | ack
  | ctrl (k : CtrlKeys)
  | abort
deriving DecidableEq, Repr

end Sys2Proof
end

