-- ==== Sys2Proof/WellFormed.lean ====
section
/-! DEFINITION. Well-formedness checks: of a raw command word (spec/30_encoding.md R91), of a host access (spec/20_memory.md R61, R72) and of the `ctrl` keys (spec/30_encoding.md R106). `Instr` itself has no operands, so every `Instr` is well formed. -/

namespace Sys2Proof

/-- A command word is valid when Z (bits 31..4) is 0 and OP (bits 3..0) is an opcode (spec/30_encoding.md R91, R93). -/
def validCommandWord (w : Word) : Bool :=
  w.extractLsb' 4 28 == 0 && [0x0#4, 0x1#4, 0x2#4, 0x3#4, 0x8#4].contains (w.extractLsb' 0 4)

/-- A register access is one whole word at a multiple of 4 (spec/20_memory.md R61); any other is refused (R72). -/
def HostOp.wellFormed : HostOp → Bool
  | .wr off _ => off.toNat % 4 == 0
  | .rd off => off.toNat % 4 == 0
  | .sb _ _ => true
  | .lb _ => true
  | .subword _ => false

/-- The values the `ctrl` keys take (spec/30_encoding.md R106). -/
def CtrlKeys.wellFormed (k : CtrlKeys) : Bool :=
  [1, 2, 4, 8].contains k.bin && [1, 2, 4, 8].contains k.bout && [8, 16].contains k.tw && [8, 16].contains k.th
    && decide (1 ≤ k.mapw) && decide (k.mapw ≤ 64)

end Sys2Proof
end

