-- ==== Sys2Proof/Decode.lean ====
section
/-! DEFINITION. Decoding of the 32-bit command word, total, rejecting reserved words by name (spec/30_encoding.md R90 to R96), and the encoder. -/

namespace Sys2Proof

/-- Why a word is no command (spec/30_encoding.md R94). Both make the word reserved. -/
inductive DecodeReject where
  /-- Bits 31..4 are not all zero. -/
  | highBits
  /-- OP is none of 0, 1, 2, 3, 8. -/
  | reservedOp (op : BitVec 4)
deriving DecidableEq, Repr

/-- The command a word stands for: field OP (bits 3..0) selects it, field Z (bits 31..4) must be 0
(spec/30_encoding.md R91, R93, R94). -/
def decode (w : Word) : Except DecodeReject Instr :=
  if w.extractLsb' 4 28 = 0#28 then
    match w.extractLsb' 0 4 with
    | 0x0#4 => .ok .nop
    | 0x1#4 => .ok .repackLin
    | 0x2#4 => .ok .repackTile
    | 0x3#4 => .ok .rleEnc
    | 0x8#4 => .ok .abort
    | op => .error (.reservedOp op)
  else .error .highBits

/-- The word of a command (spec/30_encoding.md R93). -/
def encode : Instr → Word
  | .nop => 0x00000000#32
  | .repackLin => 0x00000001#32
  | .repackTile => 0x00000002#32
  | .rleEnc => 0x00000003#32
  | .abort => 0x00000008#32

/-- What `decode` reads from the `nbits` low bits `w` of a command word, every bit above them 0; none where it
refuses or where the bits do not fit one word (spec/30_encoding.md R96: every command is one 32-bit word). -/
def decodeTableWord (nbits w : Nat) : Option Instr :=
  if w % 2 ^ nbits < 2 ^ 32 then
    match decode (BitVec.ofNat 32 (w % 2 ^ nbits)) with
    | .ok i => some i
    | .error _ => none
  else none

end Sys2Proof
end

