-- ==== Sys2Proof/Config.lean ====
section
/-! DEFINITION. What an implementation or a platform fixes, and the free values the spec leaves open (spec/00_scope.md R6; spec/93_implementation_defined.md section 2). -/

namespace Sys2Proof.Config

/-- The last buffer-memory address, MEM_SIZE - 1, of `State.reset`. DESIGN CHOICE (notes/assumptions/1.md): MEM_SIZE is OPEN
in the spec (spec/00_scope.md R6). `State.powerUp` takes it as an argument, every state carries its own, and only the one
argument-less `State.reset` needs a number; MEM_SIZE = 4096 is that of spec/95_test_vectors.md. No statement rests on it. -/
def resetMemTop : Word := 0x00000FFF#32

/-- BLK_BASE, where the platform places the register window on the host bus: OPEN (spec/20_memory.md R75).
The port sees offsets only, so no step reads it. -/
opaque blkBase : Nat

/-- The host-bus address of a register offset (spec/10_state.md R22: offsets count from BLK_BASE). -/
def busAddress (off : BitVec 8) : Nat := blkBase + off.toNat

/-- FREE VALUE (notes/assumptions/4.md): the `n`-th unspecified register value a host read is given
(spec/10_state.md R43). -/
opaque drawWord : Nat → Word

/-- FREE VALUE (notes/assumptions/4.md): the `n`-th unspecified byte a host read is given (spec/20_memory.md R64). -/
opaque drawByte : Nat → Byte

/-- FREE VALUE (notes/assumptions/5.md): what the `n`-th warm reset of a running command leaves at address `a` of its
output windows (spec/70_reset_and_hazards.md R282; spec/93_implementation_defined.md I13). -/
opaque residue (n a : Nat) : Byte

end Sys2Proof.Config
end

