-- ==== Sys2Proof/Machine/State.lean ====
section
/-! DEFINITION. The state of the block as plain data: every register of spec/10_state.md, the engine's internal state, buffer memory, and the model's own fields (the pending events, the host's replies, the count of free values). -/

namespace Sys2Proof.Machine

/-- Why the model stops with a fault. -/
inductive Fault where
  /-- Raised by the engine's MemRead of a byte no agent has written since power-up (spec/20_memory.md R62:
  model-fault(UnwrittenRead)). Safe: the spec gives such a run no meaning. -/
  | unwrittenRead (addr : Nat)
  /-- Raised by a host write, while a command runs, into one of its active windows (spec/20_memory.md R66:
  model-fault(HostWindowWrite)). Safe: the spec gives such a run no meaning. -/
  | hostWindowWrite (addr : Nat)
  /-- Raised by an engine access at or beyond MEM_SIZE, which the spec says never happens (spec/20_memory.md R62) and which
  no run from reset reaches (notes/assumptions/9.md). A host access there raises nothing (R65). Safe: nothing is claimed of it. -/
  | outsideBufferMemory (addr : Nat)
deriving DecidableEq, Repr

/-- Why the model refuses to give a step a meaning. -/
inductive Refusal where
  /-- An instruction without a meaning yet: raised by `exec` only. Safe. No arm answers so at present. -/
  | notModelled (mnemonic : String)
  /-- Raised by a register access that is narrower than a word or not at a word offset: PLATFORM_SUBWORD is OPEN and
  the spec says that a model refuses such accesses (spec/20_memory.md R72). Safe. -/
  | platformSubword (off : BitVec 8)
deriving DecidableEq, Repr

/-- The engine phase (spec/10_state.md R46). -/
inductive Phase where
  | idle | pre | repack | rleHdr | rlePal | rleRun
deriving DecidableEq, Repr

/-- The latched opcode `lop` (spec/10_state.md R46). -/
inductive Lop where
  | repackLin | repackTile | rleEnc
deriving DecidableEq, Repr

/-- The values of STATUS.ERRCODE the block produces (spec/60_exceptions.md R251). -/
inductive ErrCode where
  | none | ecmd | ewindow | elen | egeom | etrunc | edstovf | eidxovf | eabort
deriving DecidableEq, Repr

/-- The ten configuration registers a command latches (spec/10_state.md R25, R28 to R36, R45). -/
structure CfgRegs where
  ctrl     : Word
  srcBase  : Word
  srcLen   : Word
  dstBase  : Word
  dstCap   : Word
  idxBase  : Word
  idxCap   : Word
  palBase  : Word
  palCount : Word
  magic    : Word
deriving DecidableEq, Repr

/-- All ten registers at 0, their reset value (spec/70_reset_and_hazards.md R281). -/
def CfgRegs.zero : CfgRegs :=
  { ctrl := 0, srcBase := 0, srcLen := 0, dstBase := 0, dstCap := 0, idxBase := 0, idxCap := 0, palBase := 0,
    palCount := 0, magic := 0 }

/-- The window ids of ERR_INFO (spec/20_memory.md R67). -/
inductive WindowId where
  | src | dst | idx | pal
deriving DecidableEq, Repr

/-- A range [base, base + length) of buffer memory, in unbounded naturals (spec/20_memory.md R67; spec/00_scope.md R9). -/
structure Window where
  id     : WindowId
  base   : Nat
  length : Nat
deriving DecidableEq, Repr

/-- Buffer memory: the written bytes, addresses strictly rising; an unlisted byte is unwritten (spec/10_state.md R50). -/
abbrev Memory := List Host.Cell

/-- The canonical form: addresses strictly rising. An unlisted address reads as no value, so no entry equals that. -/
abbrev Memory.wf (m : Memory) : Prop := List.Pairwise (fun x y => x.1 < y.1) m

/-- The state of the block. STATUS.BUSY is `phase ≠ idle` (spec/10_state.md R46) and IRQ is computed from CTRL, DONE and
ERR (spec/60_exceptions.md R258), so neither is stored; IDENT and CMD hold no state (spec/10_state.md R24, R26). -/
structure State where
  /-- CTRL, SRC_BASE, SRC_LEN, DST_BASE, DST_CAP, IDX_BASE, IDX_CAP, PAL_BASE, PAL_COUNT, MAGIC as the host wrote them. -/
  regs      : CfgRegs
  /-- STATUS.DONE (spec/10_state.md R27). -/
  done      : Bool
  /-- STATUS.ERR (R27). -/
  err       : Bool
  /-- STATUS.REJ (R27). -/
  rej       : Bool
  /-- STATUS.ERRCODE (R27). -/
  errCode   : ErrCode
  /-- STATUS.PADDED (R27). -/
  padded    : Bool
  /-- IN_COUNT (R37). -/
  inCount   : Word
  /-- OUT_COUNT (R38). -/
  outCount  : Word
  /-- IDX_COUNT (R39). -/
  idxCount  : Word
  /-- TILE_COUNT (R40). -/
  tileCount : Word
  /-- ERR_INFO (R41). -/
  errInfo   : Word
  /-- L, the latched configuration (R45). -/
  latched   : CfgRegs
  /-- phase (R46). -/
  phase     : Phase
  /-- lop (R46); it has no meaning while idle. -/
  lop       : Lop
  /-- abort_req (R47). -/
  abortReq  : Bool
  /-- IN_SR (R48). -/
  inSr      : Byte
  /-- IN_LEFT, 0 to 8 (R48). -/
  inLeft    : Nat
  /-- ACC (R48). -/
  acc       : Byte
  /-- ACC_N, 0 to 8 (R48). -/
  accN      : Nat
  /-- HDR_I, 0 to 4 (R49). -/
  hdrI      : Nat
  /-- PAL_I (R49). -/
  palI      : Word
  /-- RUN_ACTIVE (R49). -/
  runActive : Bool
  /-- RUN_COLOR (R49). -/
  runColor  : Nibble
  /-- RUN_REP (R49). -/
  runRep    : Byte
  /-- Buffer memory (R50). -/
  mem       : Memory
  /-- MEM_SIZE - 1, the last address of buffer memory (spec/10_state.md R50): MEM_SIZE is the open parameter of
  spec/00_scope.md R6, from 1 to 2^32, so that its last address is any 32-bit address. No step changes it. -/
  memTop    : Word
  /-- MODEL'S OWN: the output windows of the commands started since the host last read STATUS with BUSY = 0; until that
  read these bytes are unspecified to the host (spec/20_memory.md R79; notes/assumptions/6.md). -/
  unseen    : List Window
  /-- MODEL'S OWN: how many free values have been drawn (notes/assumptions/4.md). -/
  draws     : Nat
  /-- MODEL'S OWN: what the host's reads returned, newest first (notes/assumptions/3.md). -/
  replies   : List Reply
  /-- MODEL'S OWN: the moves still to come, next first (spec/20_memory.md R77; notes/assumptions/2.md). -/
  agenda    : List Event
deriving DecidableEq, Repr

/-- The block right after power-up with buffer memory up to address `memTop` (spec/70_reset_and_hazards.md R281): every register
0, the engine idle, every byte unwritten. `lop` has no reset value (notes/assumptions/7.md). -/
def State.powerUp (memTop : Word) : State :=
  { regs := CfgRegs.zero, done := false, err := false, rej := false, errCode := .none, padded := false,
    inCount := 0, outCount := 0, idxCount := 0, tileCount := 0, errInfo := 0,
    latched := CfgRegs.zero, phase := .idle, lop := .repackLin, abortReq := false,
    inSr := 0, inLeft := 0, acc := 0, accN := 0, hdrI := 0, palI := 0, runActive := false, runColor := 0, runRep := 0,
    mem := [], memTop := memTop, unseen := [], draws := 0, replies := [], agenda := [] }

/-- The block right after power-up reset (spec/70_reset_and_hazards.md R281), with the MEM_SIZE of notes/assumptions/1.md. -/
def State.reset : State := State.powerUp Config.resetMemTop

end Sys2Proof.Machine
end

