-- ==== Sys2Proof/Machine/Operands.lean ====
section
/-! DEFINITION. Operands: the CTRL fields and the names derived from them (spec/30_encoding.md R92, R97; spec/00_scope.md R10, R11, R13), the active windows (spec/20_memory.md R67), the register offsets (spec/10_state.md R22). -/

namespace Sys2Proof.Machine

/-- rol8(x, s), the 8-bit left rotate (spec/00_scope.md R10). -/
def rol8 (x : Byte) (s : Nat) : Byte := (x <<< s) ||| (x >>> (8 - s))

/-- mask(B) = 2^B - 1 (spec/00_scope.md R11). -/
def mask (b : Nat) : Byte := BitVec.ofNat 8 (2 ^ b - 1)

/-- The writable bits of CTRL, [10:0] and [21:16] (spec/40_command.md R111). -/
def ctrlMask : Word := 0x003F07FF#32

/-- BIN_SEL, CTRL[1:0] (spec/10_state.md R25). -/
def CfgRegs.binSel (c : CfgRegs) : BitVec 2 := c.ctrl.extractLsb' 0 2
/-- BOUT_SEL, CTRL[3:2] (R25). -/
def CfgRegs.boutSel (c : CfgRegs) : BitVec 2 := c.ctrl.extractLsb' 2 2
/-- TW_SEL, CTRL[4] (R25). -/
def CfgRegs.twSel (c : CfgRegs) : BitVec 1 := c.ctrl.extractLsb' 4 1
/-- TH_SEL, CTRL[5] (R25). -/
def CfgRegs.thSel (c : CfgRegs) : BitVec 1 := c.ctrl.extractLsb' 5 1
/-- IDX_EN, CTRL[6] (R25). -/
def CfgRegs.idxEn (c : CfgRegs) : Bool := c.ctrl.getLsbD 6
/-- PAD_MODE, CTRL[7] (R25). -/
def CfgRegs.padMode (c : CfgRegs) : Bool := c.ctrl.getLsbD 7
/-- HDR_EN, CTRL[8] (R25). -/
def CfgRegs.hdrEn (c : CfgRegs) : Bool := c.ctrl.getLsbD 8
/-- PAL_EN, CTRL[9] (R25). -/
def CfgRegs.palEn (c : CfgRegs) : Bool := c.ctrl.getLsbD 9
/-- IRQ_EN, CTRL[10] (R25). -/
def CfgRegs.irqEn (c : CfgRegs) : Bool := c.ctrl.getLsbD 10
/-- MAPW_M1, CTRL[21:16] (R25). -/
def CfgRegs.mapwM1 (c : CfgRegs) : BitVec 6 := c.ctrl.extractLsb' 16 6

/-- Bin = 1 << BIN_SEL (spec/00_scope.md R13). -/
def CfgRegs.bin (c : CfgRegs) : Nat := 1 <<< c.binSel.toNat
/-- Bout = 1 << BOUT_SEL (R13). -/
def CfgRegs.bout (c : CfgRegs) : Nat := 1 <<< c.boutSel.toNat
/-- pIn = 8 / Bin, pixels per input byte (R13). -/
def CfgRegs.pIn (c : CfgRegs) : Nat := 8 / c.bin
/-- pOut = 8 / Bout, pixels per output byte (R13). -/
def CfgRegs.pOut (c : CfgRegs) : Nat := 8 / c.bout
/-- TW = 8 << TW_SEL (R13). -/
def CfgRegs.tw (c : CfgRegs) : Nat := 8 <<< c.twSel.toNat
/-- TH = 8 << TH_SEL (R13). -/
def CfgRegs.th (c : CfgRegs) : Nat := 8 <<< c.thSel.toNat
/-- MAPW = MAPW_M1 + 1 (R13). -/
def CfgRegs.mapw (c : CfgRegs) : Nat := c.mapwM1.toNat + 1
/-- TWB = TW * Bin / 8, the tile width in input bytes (R13). -/
def CfgRegs.twb (c : CfgRegs) : Nat := c.tw * c.bin / 8
/-- TILEB = TW * TH * Bin / 8, input bytes per tile (R13). -/
def CfgRegs.tileb (c : CfgRegs) : Nat := c.tw * c.th * c.bin / 8
/-- TILEOB = TW * TH * Bout / 8, output bytes per tile (R13). -/
def CfgRegs.tileob (c : CfgRegs) : Nat := c.tw * c.th * c.bout / 8
/-- ROWB = MAPW * TWB, the source's bytesPerMapRow (R13). -/
def CfgRegs.rowb (c : CfgRegs) : Nat := c.mapw * c.twb

/-- MEM_SIZE, the bytes of buffer memory at addresses 0 to MEM_SIZE - 1: from 1 to 2^32 in every state
(spec/00_scope.md R6; spec/10_state.md R50). -/
def State.memSize (s : State) : Nat := s.memTop.toNat + 1

/-- The window ids in ERR_INFO: SRC 1, DST 2, IDX 3, PAL 4 (spec/20_memory.md R67). -/
def WindowId.num : WindowId → Nat
  | .src => 1
  | .dst => 2
  | .idx => 3
  | .pal => 4

/-- DST and IDX are written; SRC and PAL are read (R67). -/
def WindowId.written : WindowId → Bool
  | .src => false
  | .dst => true
  | .idx => true
  | .pal => false

/-- Byte `a` lies in the window [base, base + length) (R67). -/
def Window.contains (w : Window) (a : Nat) : Bool := decide (w.base ≤ a) && decide (a < w.base + w.length)

/-- The SRC window (R67). -/
def CfgRegs.srcWindow (c : CfgRegs) : Window := ⟨.src, c.srcBase.toNat, c.srcLen.toNat⟩
/-- The DST window (R67). -/
def CfgRegs.dstWindow (c : CfgRegs) : Window := ⟨.dst, c.dstBase.toNat, c.dstCap.toNat⟩
/-- The IDX window (R67). -/
def CfgRegs.idxWindow (c : CfgRegs) : Window := ⟨.idx, c.idxBase.toNat, c.idxCap.toNat⟩
/-- The PAL window, three bytes an entry (R67, spec/30_encoding.md R97). -/
def CfgRegs.palWindow (c : CfgRegs) : Window := ⟨.pal, c.palBase.toNat, 3 * c.palCount.toNat⟩

/-- The active windows of a command, in the order SRC, DST, IDX, PAL (spec/20_memory.md R67). -/
def activeWindows (op : Lop) (c : CfgRegs) : List Window :=
  match op with
  | .repackLin => [c.srcWindow, c.dstWindow]
  | .repackTile => if c.idxEn then [c.srcWindow, c.dstWindow, c.idxWindow] else [c.srcWindow, c.dstWindow]
  | .rleEnc => if c.palEn then [c.srcWindow, c.dstWindow, c.palWindow] else [c.srcWindow, c.dstWindow]

/-- The written windows among the active ones: DST and, for REPACK_TILE with IDX_EN, IDX (R67). -/
def outputWindows (op : Lop) (c : CfgRegs) : List Window := (activeWindows op c).filter (·.id.written)

/-- The byte offset of a register (spec/10_state.md R22). -/
def Reg.offset : Reg → BitVec 8
  | .ident => 0x00 | .ctrl => 0x04 | .cmd => 0x08 | .status => 0x0C
  | .srcBase => 0x10 | .srcLen => 0x14 | .dstBase => 0x18 | .dstCap => 0x1C
  | .idxBase => 0x20 | .idxCap => 0x24 | .palBase => 0x28 | .palCount => 0x2C
  | .magic => 0x30 | .inCount => 0x34 | .outCount => 0x38 | .idxCount => 0x3C
  | .tileCount => 0x40 | .errInfo => 0x44

/-- The register at a word offset; none at the reserved offsets 0x48 to 0xFC (spec/10_state.md R22, R42). -/
def Reg.atOffset (off : BitVec 8) : Option Reg :=
  match off with
  | 0x00#8 => some .ident | 0x04#8 => some .ctrl | 0x08#8 => some .cmd | 0x0C#8 => some .status
  | 0x10#8 => some .srcBase | 0x14#8 => some .srcLen | 0x18#8 => some .dstBase | 0x1C#8 => some .dstCap
  | 0x20#8 => some .idxBase | 0x24#8 => some .idxCap | 0x28#8 => some .palBase | 0x2C#8 => some .palCount
  | 0x30#8 => some .magic | 0x34#8 => some .inCount | 0x38#8 => some .outCount | 0x3C#8 => some .idxCount
  | 0x40#8 => some .tileCount | 0x44#8 => some .errInfo
  | _ => none

/-- The four counters, unspecified to the host while a command runs (spec/10_state.md R43). -/
def Reg.isCounter : Reg → Bool
  | .inCount | .outCount | .idxCount | .tileCount => true
  | .ident | .ctrl | .cmd | .status | .srcBase | .srcLen | .dstBase | .dstCap | .idxBase | .idxCap | .palBase
  | .palCount | .magic | .errInfo => false

end Sys2Proof.Machine
end

