-- ==== Sys2Proof/Machine/Flags.lean ====
section
/-! DEFINITION. The STATUS flags (spec/10_state.md R27, R44), the STATUS word, its write-one-to-clear access (spec/40_command.md R112) and the IRQ output (spec/60_exceptions.md R258). The block has no other flags (R44). -/

namespace Sys2Proof.Machine

/-- STATUS.BUSY is 1 exactly when phase ≠ IDLE (spec/10_state.md R46). -/
def State.busy (s : State) : Bool := decide (s.phase ≠ .idle)

/-- The value of STATUS.ERRCODE (spec/60_exceptions.md R251). -/
def ErrCode.bits : ErrCode → BitVec 4
  | .none => 0 | .ecmd => 1 | .ewindow => 2 | .elen => 3 | .egeom => 4 | .etrunc => 5 | .edstovf => 6 | .eidxovf => 7
  | .eabort => 8

/-- The STATUS word: PADDED at 8, ERRCODE at 7..4, REJ, ERR, DONE, BUSY at 3..0, reserved bits 0 (spec/10_state.md R27). -/
def State.statusWord (s : State) : Word :=
  0#23 ++ BitVec.ofBool s.padded ++ s.errCode.bits ++ BitVec.ofBool s.rej ++ BitVec.ofBool s.err
    ++ BitVec.ofBool s.done ++ BitVec.ofBool s.busy

/-- A host write of `v` to STATUS: bits 1, 2, 3 clear DONE, ERR, REJ where 1; the rest is ignored
(spec/40_command.md R112). It is how the host acknowledges an error: the block's form of return (spec/60_exceptions.md R256). -/
def State.writeStatus (v : Word) (s : State) : State :=
  { s with
    done := s.done && !v.getLsbD 1
    err := s.err && !v.getLsbD 2
    rej := s.rej && !v.getLsbD 3 }

/-- The level of the IRQ output: CTRL.IRQ_EN, from the register itself, and DONE or ERR (spec/60_exceptions.md R258). -/
def State.irq (s : State) : Bool := s.regs.irqEn && (s.done || s.err)

/-- STATUS.REJ <- 1: a command word refused because the engine is busy (spec/40_command.md R113). -/
def State.reject (s : State) : State := { s with rej := true }

/-- STATUS.PADDED <- 1: the final byte was zero-padded (spec/41_repack.md R164). -/
def State.setPadded (s : State) : State := { s with padded := true }

end Sys2Proof.Machine
end

