-- ==== Sys2Proof/Machine/Ops.lean ====
section
/-! DEFINITION. The named operations over memory and registers: buffer-memory reads and writes (spec/20_memory.md R62, R63), error entry and completion (spec/40_command.md R129, R130; spec/60_exceptions.md R255), command start (R117), the checked output writes (R131, R132), register reads and writes (R110, R111). -/

namespace Sys2Proof.Machine

/-! ## Buffer memory -/

/-- The byte at address `a`; none where it is unwritten (spec/10_state.md R50). -/
def Memory.read : Memory → Nat → Option Byte
  | [], _ => none
  | (k, v) :: m, a => if a = k then some v else Memory.read m a

/-- `mem[a] <- v`; the byte becomes written (spec/20_memory.md R63, R65). -/
def Memory.write : Memory → Nat → Byte → Memory
  | [], a, v => [(a, v)]
  | (k, w) :: m, a, v =>
    if a < k then (a, v) :: (k, w) :: m
    else if a = k then (a, v) :: m
    else (k, w) :: Memory.write m a v

/-- Every written byte inside one of the windows takes the free value `n` of its address (spec/93_implementation_defined.md I13);
no byte becomes written or unwritten. -/
def Memory.leaveResidue (m : Memory) (ws : List Window) (n : Nat) : Memory :=
  m.map fun c => if ws.any (·.contains c.1) then (c.1, Config.residue n c.1) else c

/-! ## How a part of an engine step ends -/

/-- A part of an engine step goes on in a state, has ended the command by a `raise`, or stops the model
(spec/00_scope.md R12: nothing after a raise in the step takes effect). -/
inductive Progress where
  | go (s : State)
  | ended (s : State)
  | stop (r : Fault)
deriving DecidableEq, Repr

/-- Run `k` after a part that went on (spec/00_scope.md R12). -/
def Progress.andThen (p : Progress) (k : State → Progress) : Progress :=
  match p with
  | .go s => k s
  | .ended s => .ended s
  | .stop r => .stop r

/-- The outcome of the whole engine step. -/
def Progress.outcome : Progress → Host.Outcome State Fault Refusal
  | .go s => .next s
  | .ended s => .next s
  | .stop r => .fault r

/-! ## Completion and error entry -/

/-- Completion without error (spec/40_command.md R129). -/
def State.completeOk (s : State) : State :=
  { s with phase := .idle, abortReq := false, done := true, errCode := .none }

/-- Completion with an error, the block's form of taking an exception: the engine becomes idle, STATUS.ERR and ERRCODE and
ERR_INFO are written, and all else is kept (spec/40_command.md R130; spec/60_exceptions.md R255). -/
def State.completeErr (e : ErrCode) (info : Word) (s : State) : State :=
  { s with phase := .idle, abortReq := false, err := true, errCode := e, errInfo := info }

/-- `raise E(info)` inside an engine step (spec/40_command.md R130). -/
def raise (e : ErrCode) (info : Word) (s : State) : Progress := .ended (s.completeErr e info)

/-! ## Command start -/

/-- The first block of command start (spec/40_command.md R117, `clear_for_start`). -/
def State.clearForStart (s : State) : State :=
  { s with
    done := false, err := false, errCode := .none, padded := false
    errInfo := 0, inCount := 0, outCount := 0, idxCount := 0, tileCount := 0 }

/-- The second block of command start: latch the configuration, clear the datapath, enter PRE (spec/40_command.md R117). The
model also notes the output windows the host has not yet seen complete (notes/assumptions/6.md). -/
def State.latchAndEnter (op : Lop) (s : State) : State :=
  { s with
    latched := s.regs, lop := op, abortReq := false
    inSr := 0, inLeft := 0, acc := 0, accN := 0
    hdrI := 0, palI := 0, runActive := false, runColor := 0, runRep := 0
    phase := .pre
    unseen := outputWindows op s.regs ++ s.unseen }

/-- Command start (spec/40_command.md R117, `start`). -/
def State.start (op : Lop) (s : State) : State := s.clearForStart.latchAndEnter op

/-- A CMD write of a starting command: started while idle, rejected while busy (spec/40_command.md R113). -/
def startOrReject (op : Lop) (s : State) : Host.Outcome State Fault Refusal :=
  if s.busy then .next s.reject else .next (s.start op)

/-- A CMD write of a reserved word: ECMD while idle (spec/40_command.md R116), rejected while busy (R113). -/
def State.reservedWord (w : Word) (s : State) : State :=
  if s.busy then s.reject else s.clearForStart.completeErr .ecmd w

/-! ## Engine accesses -/

/-- `MemRead(a, 1)`, then `k` on the byte (spec/20_memory.md R62). -/
def engineRead (a : Nat) (s : State) (k : Byte → Progress) : Progress :=
  if s.memSize ≤ a then .stop (.outsideBufferMemory a)
  else
    match s.mem.read a with
    | none => .stop (.unwrittenRead a)
    | some b => k b

/-- The state after byte `v` is stored at address `a`. -/
def State.store (a : Nat) (v : Byte) (s : State) : State := { s with mem := s.mem.write a v }

/-- `MemWrite(a, 1, v)` (spec/20_memory.md R63). -/
def engineWrite (a : Nat) (v : Byte) (s : State) : Progress :=
  if s.memSize ≤ a then .stop (.outsideBufferMemory a) else .go (s.store a v)

/-- OUT_COUNT <- OUT_COUNT + 1 (spec/40_command.md R131). -/
def State.countOut (s : State) : State := { s with outCount := s.outCount + 1 }

/-- IDX_COUNT <- IDX_COUNT + 1 (spec/40_command.md R132). -/
def State.countIdx (s : State) : State := { s with idxCount := s.idxCount + 1 }

/-- Where the next `dst_write` stores: L.DST_BASE + OUT_COUNT (spec/40_command.md R131). -/
def State.dstAddr (s : State) : Nat := s.latched.dstBase.toNat + s.outCount.toNat

/-- Where the next `idx_write` stores: L.IDX_BASE + IDX_COUNT (spec/40_command.md R132). -/
def State.idxAddr (s : State) : Nat := s.latched.idxBase.toNat + s.idxCount.toNat

/-- `dst_write(v)`, the checked destination write (spec/40_command.md R131). -/
def dstWrite (v : Byte) (s : State) : Progress :=
  if s.outCount = s.latched.dstCap then raise .edstovf s.outCount s
  else (engineWrite s.dstAddr v s).andThen fun t => .go t.countOut

/-- `idx_write(v)`, the checked palette-index write (spec/40_command.md R132). -/
def idxWrite (v : Byte) (s : State) : Progress :=
  if s.idxCount = s.latched.idxCap then raise .eidxovf s.idxCount s
  else (engineWrite s.idxAddr v s).andThen fun t => .go t.countIdx

/-! ## Register access -/

/-- The value a register holds (spec/40_command.md R110): IDENT reads the revision (spec/10_state.md R24), CMD reads 0 (R26). -/
def regValue (r : Reg) (s : State) : Word :=
  match r with
  | .ident => 1
  | .ctrl => s.regs.ctrl
  | .cmd => 0
  | .status => s.statusWord
  | .srcBase => s.regs.srcBase
  | .srcLen => s.regs.srcLen
  | .dstBase => s.regs.dstBase
  | .dstCap => s.regs.dstCap
  | .idxBase => s.regs.idxBase
  | .idxCap => s.regs.idxCap
  | .palBase => s.regs.palBase
  | .palCount => s.regs.palCount
  | .magic => s.regs.magic
  | .inCount => s.inCount
  | .outCount => s.outCount
  | .idxCount => s.idxCount
  | .tileCount => s.tileCount
  | .errInfo => s.errInfo

/-- A configuration register takes a host-written word: CTRL keeps its writable bits only, the others store the word
(spec/40_command.md R111); any other register leaves the configuration as it is. -/
def CfgRegs.write (r : Reg) (v : Word) (c : CfgRegs) : CfgRegs :=
  match r with
  | .ctrl => { c with ctrl := v &&& ctrlMask }
  | .srcBase => { c with srcBase := v }
  | .srcLen => { c with srcLen := v }
  | .dstBase => { c with dstBase := v }
  | .dstCap => { c with dstCap := v }
  | .idxBase => { c with idxBase := v }
  | .idxCap => { c with idxCap := v }
  | .palBase => { c with palBase := v }
  | .palCount => { c with palCount := v }
  | .magic => { c with magic := v }
  | .ident | .cmd | .status | .inCount | .outCount | .idxCount | .tileCount | .errInfo => c

/-- A host write to any register but CMD (spec/40_command.md R111, R112): STATUS is write-one-to-clear, the RW registers store,
IDENT, the counters and ERR_INFO ignore it. It reaches the registers, never the latched copy L. -/
def State.writeReg (r : Reg) (v : Word) (s : State) : State :=
  match r with
  | .status => s.writeStatus v
  | .ctrl | .srcBase | .srcLen | .dstBase | .dstCap | .idxBase | .idxCap | .palBase | .palCount | .magic =>
    { s with regs := s.regs.write r v }
  | .ident | .cmd | .inCount | .outCount | .idxCount | .tileCount | .errInfo => s

/-! ## What the host may not see exactly -/

/-- The windows of the running command that it reads or writes; none while idle (spec/20_memory.md R67). -/
def State.runningWindows (s : State) : List Window := if s.busy then activeWindows s.lop s.latched else []

/-- The written windows of the running command; none while idle (R67). -/
def State.runningOutputs (s : State) : List Window := if s.busy then outputWindows s.lop s.latched else []

/-- Byte `a` reads unspecified to the host because a command's output there is not yet seen complete
(spec/20_memory.md R64 case (b), R79). -/
def State.outputOpen (a : Nat) (s : State) : Bool :=
  s.runningOutputs.any (·.contains a) || s.unseen.any (·.contains a)

/-- The host takes note of a reply (notes/assumptions/3.md). -/
def State.reply (r : Reply) (s : State) : State := { s with replies := r :: s.replies }

/-- One free value has been used (notes/assumptions/4.md). -/
def State.drawn (s : State) : State := { s with draws := s.draws + 1 }

/-- A STATUS read that shows BUSY = 0 settles what earlier commands wrote (spec/20_memory.md R79). -/
def State.settle (s : State) : State := if s.busy then s else { s with unseen := [] }

end Sys2Proof.Machine
end

