-- ==== Sys2Proof/Machine/Control.lean ====
section
/-! DEFINITION. The control commands NOP and ABORT (spec/40_command.md R114, R115). -/

namespace Sys2Proof.Machine

/-- NOP: no effect in any phase (spec/40_command.md R114). -/
def execNop (s : State) : Host.Outcome State Fault Refusal := .next s

/-- abort_req <- 1 (spec/40_command.md R115). -/
def State.requestAbort (s : State) : State := { s with abortReq := true }

/-- ABORT: asks the engine to abort while busy, no effect while idle (spec/40_command.md R115). -/
def execAbort (s : State) : Host.Outcome State Fault Refusal := if s.busy then .next s.requestAbort else .next s

end Sys2Proof.Machine
end

