-- ==== Sys2Proof/Machine/Preflight.lean ====
section
/-! DEFINITION. The preflight step, phase PRE (spec/40_command.md R120 to R125). -/

namespace Sys2Proof.Machine

/-- `first_rle_phase` after the header: `after_hdr` (spec/42_rle.md R211). -/
def afterHdr (c : CfgRegs) : Phase := if c.palEn && decide (0 < c.palCount.toNat) then .rlePal else .rleRun

/-- `first_rle_phase` (spec/42_rle.md R211). -/
def firstRlePhase (c : CfgRegs) : Phase := if c.hdrEn then .rleHdr else afterHdr c

/-- The phase a command enters when preflight passes (spec/40_command.md R125). -/
def firstPhase (op : Lop) (c : CfgRegs) : Phase :=
  match op with
  | .repackLin => .repack
  | .repackTile => .repack
  | .rleEnc => firstRlePhase c

/-- A window that does not fit in buffer memory, computed without wrap-around (spec/40_command.md R121). -/
def Window.overruns (memSize : Nat) (w : Window) : Bool := decide (memSize < w.base + w.length)

/-- Two windows of which at least one is written, both with bytes, share a byte (spec/40_command.md R122). -/
def Window.conflicts (x y : Window) : Bool :=
  (x.id.written || y.id.written) && decide (0 < x.length) && decide (0 < y.length)
    && decide (x.base < y.base + y.length) && decide (y.base < x.base + x.length)

/-- The first conflicting pair, in lexicographic order (spec/40_command.md R122). -/
def firstConflict : List Window → Option (Window × Window)
  | [] => none
  | x :: ys =>
    match ys.find? x.conflicts with
    | some y => some (x, y)
    | none => firstConflict ys

/-- The bounds check: EWINDOW with the window's id (spec/40_command.md R121). -/
def checkBounds (memSize : Nat) (ws : List Window) : Option (ErrCode × Word) :=
  (ws.find? (·.overruns memSize)).map fun w => (.ewindow, BitVec.ofNat 32 w.id.num)

/-- The overlap check: EWINDOW with id(X) | (id(Y) << 4) (spec/40_command.md R122). -/
def checkOverlap (ws : List Window) : Option (ErrCode × Word) :=
  (firstConflict ws).map fun p => (.ewindow, BitVec.ofNat 32 (p.1.id.num ||| (p.2.id.num <<< 4)))

/-- The remainder of the length check: the pixel count mod pOut (spec/40_command.md R123). -/
def lenRemainder (c : CfgRegs) : Nat := c.srcLen.toNat * c.pIn % c.pOut

/-- The length check of REPACK_LIN: ELEN (spec/40_command.md R123). -/
def checkLen (c : CfgRegs) : Option (ErrCode × Word) :=
  if lenRemainder c ≠ 0 ∧ c.padMode = false then some (.elen, BitVec.ofNat 32 (lenRemainder c)) else none

/-- The remainder of the geometry check: SRC_LEN mod (MAPW * TILEB) (spec/40_command.md R124). -/
def geomRemainder (c : CfgRegs) : Nat := c.srcLen.toNat % (c.mapw * c.tileb)

/-- The geometry check of REPACK_TILE: EGEOM (spec/40_command.md R124). -/
def checkGeom (c : CfgRegs) : Option (ErrCode × Word) :=
  if geomRemainder c ≠ 0 then some (.egeom, BitVec.ofNat 32 (geomRemainder c)) else none

/-- The command's own check after the windows (spec/40_command.md R120). -/
def checkOwn (op : Lop) (c : CfgRegs) : Option (ErrCode × Word) :=
  match op with
  | .repackLin => checkLen c
  | .repackTile => checkGeom c
  | .rleEnc => none

/-- The first preflight check that fails, with its ERR_INFO, in the priority order of the spec
(spec/40_command.md R120; spec/60_exceptions.md R254). -/
def preflightError (memSize : Nat) (op : Lop) (c : CfgRegs) : Option (ErrCode × Word) :=
  (checkBounds memSize (activeWindows op c)).or ((checkOverlap (activeWindows op c)).or (checkOwn op c))

/-- The preflight step (spec/40_command.md R120, R125): it makes no memory access. -/
def stepPre (s : State) : Progress :=
  match preflightError s.memSize s.lop s.latched with
  | some (e, info) => raise e info s
  | none => .go { s with phase := firstPhase s.lop s.latched }

end Sys2Proof.Machine
end

