-- ==== Sys2Proof/Machine/Repack.lean ====
section
/-! DEFINITION. The bit-depth repacker: REPACK_LIN and REPACK_TILE, the datapath functions, the tile-address decoder and the step of phase REPACK (spec/41_repack.md). -/

namespace Sys2Proof.Machine

/-! ## The commands (spec/41_repack.md R165, R166): the CMD write starts them; the engine steps below do the rest -/

/-- REPACK_LIN (spec/41_repack.md R165, step 1; spec/40_command.md R113, R117). -/
def execRepackLin (s : State) : Host.Outcome State Fault Refusal := startOrReject .repackLin s

/-- REPACK_TILE (spec/41_repack.md R166, step 1; spec/40_command.md R113, R117). -/
def execRepackTile (s : State) : Host.Outcome State Fault Refusal := startOrReject .repackTile s

/-! ## Datapath functions -/

/-- `unpack(b, Bin)`: rotate left and mask, pIn times (spec/41_repack.md R150). -/
def unpackFrom (bin : Nat) : Nat → Byte → List Byte
  | 0, _ => []
  | n + 1, sr => (rol8 sr bin &&& mask bin) :: unpackFrom bin n (rol8 sr bin)

/-- The pixels of byte `b` at depth `bin`, in stream order (spec/41_repack.md R150). -/
def unpack (b : Byte) (bin : Nat) : List Byte := unpackFrom bin (8 / bin) b

/-- One pack step: rotate the accumulator and OR in the pixel's low Bout bits (spec/41_repack.md R152, R153). -/
def packStep (bout : Nat) (acc pix : Byte) : Byte := rol8 acc bout ||| (pix &&& mask bout)

/-- The output byte of a partial group: the missing pixels are zeros in the low fields (spec/41_repack.md R164). -/
def padByte (bout pOut n : Nat) (acc : Byte) : Byte := acc <<< (bout * (pOut - n))

/-- `tile_offset(n, i)`, the tile-address decoder (spec/41_repack.md R158). -/
def tileOffset (c : CfgRegs) (n i : Nat) : Nat :=
  (n / c.mapw * c.th + i / c.twb) * c.rowb + (n % c.mapw * c.twb + i % c.twb)

/-- The source offset of stream index `k`: `k` itself, or tile by tile (spec/41_repack.md R157, R159). -/
def readOffset (op : Lop) (c : CfgRegs) (k : Nat) : Nat :=
  match op with
  | .repackTile => tileOffset c (k / c.tileb) (k % c.tileb)
  | .repackLin => k
  | .rleEnc => k

/-- The palette-index byte of a tile's first source byte (spec/41_repack.md R161; spec/30_encoding.md R102). -/
def paletteIndex (b : Byte) : Byte := (b.extractLsb' 4 4).setWidth 8

/-! ## The step of phase REPACK -/

/-- One pixel leaves IN_SR (spec/41_repack.md R151) and enters ACC (R153). -/
def State.movePixel (s : State) : State :=
  { s with
    inSr := rol8 s.inSr s.latched.bin
    inLeft := s.inLeft - 1
    acc := packStep s.latched.bout s.acc (rol8 s.inSr s.latched.bin &&& mask s.latched.bin)
    accN := s.accN + 1 }

/-- The accumulator starts the next output byte at 0 (spec/41_repack.md R154). -/
def State.clearAcc (s : State) : State := { s with acc := 0, accN := 0 }

/-- TILE_COUNT adds 1 when the last output byte of a tile has been written (spec/41_repack.md R162). -/
def State.countTile (s : State) : State :=
  if s.lop = .repackTile ∧ s.outCount.toNat % s.latched.tileob = 0 then { s with tileCount := s.tileCount + 1 } else s

/-- One pixel through the datapath, and the output byte it completes, if any (spec/41_repack.md R163). -/
def pixelStep (s : State) : Progress :=
  if s.movePixel.accN = s.latched.pOut then
    (dstWrite s.movePixel.acc s.movePixel).andThen fun t => .go t.clearAcc.countTile
  else .go s.movePixel

/-- IN_COUNT <- IN_COUNT + 1 (spec/41_repack.md R163). -/
def State.countIn (s : State) : State := { s with inCount := s.inCount + 1 }

/-- IN_SR <- b and IN_LEFT <- pIn (spec/41_repack.md R163). -/
def State.loadByte (b : Byte) (s : State) : State := { s with inSr := b, inLeft := s.latched.pIn }

/-- The side channel writes when the fetched byte is its tile's first (spec/41_repack.md R161, R163). -/
def State.startsTile (s : State) : Bool :=
  decide (s.lop = .repackTile) && decide (s.inCount.toNat % s.latched.tileb = 0) && s.latched.idxEn

/-- Fetch the next source byte: the offset check ETRUNC, the read, IN_COUNT, the side channel, IN_SR
(spec/41_repack.md R163). -/
def fetchByte (s : State) : Progress :=
  if s.lop = .repackTile ∧ s.latched.srcLen.toNat ≤ readOffset s.lop s.latched s.inCount.toNat then
    raise .etrunc (BitVec.ofNat 32 (readOffset s.lop s.latched s.inCount.toNat)) s
  else
    engineRead (s.latched.srcBase.toNat + readOffset s.lop s.latched s.inCount.toNat) s fun b =>
      (if s.startsTile then idxWrite (paletteIndex b) s.countIn else .go s.countIn).andThen fun t => .go (t.loadByte b)

/-- ACC shifts the pixels of a partial byte to its most significant fields (spec/41_repack.md R164). -/
def State.padAcc (s : State) : State := { s with acc := padByte s.latched.bout s.latched.pOut s.accN s.acc }

/-- The final step: pad and write a partial byte, then complete (spec/41_repack.md R164). -/
def repackFinal (s : State) : Progress :=
  if s.accN ≠ 0 then
    (dstWrite s.padAcc.acc s.padAcc).andThen fun t => .go t.setPadded.clearAcc.completeOk
  else .go s.completeOk

/-- The step of phase REPACK, one pixel per step (spec/41_repack.md R163). -/
def stepRepack (s : State) : Progress :=
  if s.inLeft = 0 then
    if s.inCount = s.latched.srcLen then repackFinal s else (fetchByte s).andThen pixelStep
  else pixelStep s

end Sys2Proof.Machine
end

