-- ==== Sys2Proof/Machine/Rle.lean ====
section
/-! DEFINITION. The run-length encoder: RLE_ENC, the token generator, the palette quantiser and the steps of phases RLE_HDR, RLE_PAL and RLE_RUN (spec/42_rle.md). -/

namespace Sys2Proof.Machine

/-- RLE_ENC (spec/42_rle.md R212, step 1; spec/40_command.md R113, R117): the CMD write starts it. -/
def execRleEnc (s : State) : Host.Outcome State Fault Refusal := startOrReject .rleEnc s

/-! ## Datapath functions -/

/-- The token bytes of a closed run: short below 15 repeats, else the escape byte and repeats - 15
(spec/42_rle.md R203; spec/30_encoding.md R99, R100). -/
def tokenBytes (color : Nibble) (rep : Byte) : List Byte :=
  if rep.toNat < 15 then [color.setWidth 8 ||| (rep <<< 4)] else [color.setWidth 8 ||| 0xF0#8, rep - 15]

/-- The channel quantiser, 8 bits to 4 (spec/42_rle.md R206). -/
def q4 (n : Byte) : Nibble := BitVec.ofNat 4 ((n.toNat * 15 + 135) >>> 8)

/-- The palette word: bits 15..12 zero, then R4, G4, B4 (spec/42_rle.md R207; spec/30_encoding.md R101). -/
def palWord (r g b : Byte) : BitVec 16 := 0#4 ++ q4 r ++ q4 g ++ q4 b

/-- The colour of a source byte, its low nibble (spec/42_rle.md R200). -/
def colorOf (b : Byte) : Nibble := b.extractLsb' 0 4

/-- Header byte `j`: MAGIC[8j+7 : 8j] (spec/42_rle.md R205; spec/20_memory.md R70). -/
def headerByte (c : CfgRegs) (j : Nat) : Byte := c.magic.extractLsb' (8 * j) 8

/-! ## The engine steps -/

/-- Checked destination writes of several bytes in order; the first that does not fit raises (spec/42_rle.md R203, R208). -/
def dstWrites : List Byte → State → Progress
  | [], s => .go s
  | v :: vs, s => (dstWrite v s).andThen (dstWrites vs)

/-- `emit(RUN_COLOR, RUN_REP)` (spec/42_rle.md R203). -/
def emitRun (s : State) : Progress := dstWrites (tokenBytes s.runColor s.runRep) s

/-- HDR_I advances; after byte 3 the next phase follows (spec/42_rle.md R205, R211). -/
def State.nextHeader (s : State) : State :=
  { s with hdrI := s.hdrI + 1, phase := if s.hdrI + 1 = 4 then afterHdr s.latched else s.phase }

/-- The header step (spec/42_rle.md R205). -/
def stepRleHdr (s : State) : Progress :=
  (dstWrite (headerByte s.latched s.hdrI) s).andThen fun t => .go t.nextHeader

/-- PAL_I advances; after the last entry the tokens follow (spec/42_rle.md R208). -/
def State.nextEntry (s : State) : State :=
  { s with palI := s.palI + 1, phase := if s.palI + 1 = s.latched.palCount then .rleRun else s.phase }

/-- The address of the red byte of palette entry PAL_I (spec/42_rle.md R208). -/
def State.palAddr (s : State) : Nat := s.latched.palBase.toNat + 3 * s.palI.toNat

/-- The two bytes of a palette word, low byte first (spec/42_rle.md R208; spec/20_memory.md R69). -/
def palBytes (r g b : Byte) : List Byte := [(palWord r g b).extractLsb' 0 8, (palWord r g b).extractLsb' 8 8]

/-- The palette step (spec/42_rle.md R208). -/
def stepRlePal (s : State) : Progress :=
  engineRead s.palAddr s fun r =>
    engineRead (s.palAddr + 1) s fun g =>
      engineRead (s.palAddr + 2) s fun b =>
        (dstWrites (palBytes r g b) s).andThen fun t => .go t.nextEntry

/-- A run opens with colour `c` (spec/42_rle.md R209). -/
def State.openRun (c : Nibble) (s : State) : State := { s with runColor := c, runRep := 0, runActive := true }

/-- The open run takes one more byte (spec/42_rle.md R202, R209). -/
def State.extendRun (s : State) : State := { s with runRep := s.runRep + 1 }

/-- The run that a breaking byte seeds (spec/42_rle.md R209). -/
def State.seedRun (c : Nibble) (s : State) : State := { s with runColor := c, runRep := 0 }

/-- One source colour through the comparator and the accumulator (spec/42_rle.md R201, R202, R209). -/
def takeColor (c : Nibble) (s : State) : Progress :=
  if s.runActive = false then .go (s.openRun c)
  else if c = s.runColor ∧ s.runRep.toNat < 255 then .go s.extendRun
  else (emitRun s).andThen fun t => .go (t.seedRun c)

/-- RUN_ACTIVE <- 0 (spec/42_rle.md R210). -/
def State.closeRun (s : State) : State := { s with runActive := false }

/-- The flush step (spec/42_rle.md R210). -/
def rleFlush (s : State) : Progress :=
  (if s.runActive then emitRun s else .go s).andThen fun t => .go t.closeRun.completeOk

/-- The run step (spec/42_rle.md R209). -/
def stepRleRun (s : State) : Progress :=
  if s.inCount = s.latched.srcLen then rleFlush s
  else
    engineRead (s.latched.srcBase.toNat + s.inCount.toNat) s fun b => takeColor (colorOf b) s.countIn

end Sys2Proof.Machine
end

