-- ==== Sys2Proof/Machine/Engine.lean ====
section
/-! DEFINITION. The engine step: the abort test, then the step of the phase (spec/40_command.md R118, R119, R126). -/

namespace Sys2Proof.Machine

/-- The step of a phase (spec/40_command.md R126). IDLE has no step: the turn passes without effect. -/
def phaseStep (s : State) : Progress :=
  match s.phase with
  | .idle => .go s
  | .pre => stepPre s
  | .repack => stepRepack s
  | .rleHdr => stepRleHdr s
  | .rlePal => stepRlePal s
  | .rleRun => stepRleRun s

/-- One engine step: the abort test comes first, whatever the phase (spec/40_command.md R119). -/
def engineStep (s : State) : Progress := if s.abortReq then raise .eabort 0 s else phaseStep s

/-- The engine has the turn: it steps exactly when BUSY = 1 (spec/40_command.md R118). -/
def engineTurn (s : State) : Host.Outcome State Fault Refusal :=
  if s.busy then (engineStep s).outcome else .next s

/-! ## The step counts of a command (spec/40_command.md R128) -/

/-- The header bytes of RLE_ENC (spec/30_encoding.md R103). -/
def CfgRegs.hdrLen (c : CfgRegs) : Nat := if c.hdrEn then 4 else 0

/-- The palette entries RLE_ENC emits (spec/30_encoding.md R103). -/
def CfgRegs.palLen (c : CfgRegs) : Nat := if c.palEn then c.palCount.toNat else 0

/-- The engine steps a command still has to its completion without error (spec/40_command.md R128). -/
def State.stepsLeft (s : State) : Nat :=
  match s.phase with
  | .idle => 0
  | .pre =>
    match s.lop with
    | .rleEnc => 2 + s.latched.hdrLen + s.latched.palLen + s.latched.srcLen.toNat
    | .repackLin => 2 + s.latched.srcLen.toNat * s.latched.pIn
    | .repackTile => 2 + s.latched.srcLen.toNat * s.latched.pIn
  | .repack => (s.latched.srcLen.toNat - s.inCount.toNat) * s.latched.pIn + s.inLeft + 1
  | .rleHdr => (4 - s.hdrI) + s.latched.palLen + s.latched.srcLen.toNat + 1
  | .rlePal => (s.latched.palCount.toNat - s.palI.toNat) + s.latched.srcLen.toNat + 1
  | .rleRun => (s.latched.srcLen.toNat - s.inCount.toNat) + 1

/-- `n` engine turns in a row, no host access between them. -/
def engineRun : Nat → State → Host.Outcome State Fault Refusal
  | 0, s => .next s
  | n + 1, s =>
    match engineTurn s with
    | .next t => engineRun n t
    | .fault r => .fault r
    | .refused r => .refused r

end Sys2Proof.Machine
end

