-- ==== Sys2Proof/Machine/Dispatch.lean ====
section
/-! DEFINITION. The meaning of each command, one arm per constructor of Instr (spec/40_command.md R113). -/

namespace Sys2Proof.Machine

open Sys2Proof

def exec (i : Instr) (s : State) : Host.Outcome State Fault Refusal :=
  match i with
  | .nop => Sys2Proof.Machine.execNop s
  | .repackLin => Sys2Proof.Machine.execRepackLin s
  | .repackTile => Sys2Proof.Machine.execRepackTile s
  | .rleEnc => Sys2Proof.Machine.execRleEnc s
  | .abort => Sys2Proof.Machine.execAbort s

end Sys2Proof.Machine
end

