-- ==== Sys2Proof/Machine/Reset.lean ====
section
/-! DEFINITION. A warm reset (spec/70_reset_and_hazards.md R280 to R282): every register at its reset value, buffer memory kept, and which bytes a running command leaves unspecified (spec/93_implementation_defined.md I13). -/

namespace Sys2Proof.Machine

/-- The state in which the engine comes to rest within `n` steps, left to itself: the command has ended, or a step stops. -/
def State.runOut : Nat → State → State
  | 0, s => s
  | n + 1, s =>
    if s.busy then
      match engineTurn s with
      | .next t => State.runOut n t
      | .fault _ => s
      | .refused _ => s
    else s

/-- How many bytes of a window a command has written: OUT_COUNT of DST, IDX_COUNT of IDX (spec/10_state.md R38, R39). -/
def State.writtenTo (s : State) : WindowId → Nat
  | .dst => s.outCount.toNat
  | .idx => s.idxCount.toNat
  | .src => 0
  | .pal => 0

/-- The first `n` bytes of a window. -/
def Window.upTo (w : Window) (n : Nat) : Window := { w with length := min w.length n }

/-- The bytes the running command could have written: those it writes when it is left to run to its end, from the start of
each output window on; none while idle (spec/93_implementation_defined.md I13). How far it had come is not recorded
(spec/70_reset_and_hazards.md R282), so a pending ABORT takes none away. -/
def State.couldWrite (s : State) : List Window :=
  s.runningOutputs.map fun w => w.upTo ((State.runOut s.stepsLeft { s with abortReq := false }).writtenTo w.id)

/-- A warm reset: every register and the engine take their reset values, buffer memory stays
(spec/70_reset_and_hazards.md R281). If it ends a running command, the written bytes that command could have written hold
unspecified values (R282; spec/93_implementation_defined.md I13; notes/assumptions/5.md). MEM_SIZE and the model's own
replies, free-value count and pending events are no part of the block's reset. -/
def State.warmReset (s : State) : State :=
  { State.powerUp s.memTop with
    mem := if s.busy then s.mem.leaveResidue s.couldWrite s.draws else s.mem
    draws := if s.busy then s.draws + 1 else s.draws
    replies := s.replies
    agenda := s.agenda }

end Sys2Proof.Machine
end

