-- ==== Sys2Proof/Machine/Bus.lean ====
section
/-! DEFINITION. What the host can do to the block: register reads and writes, the CMD write, buffer-memory bytes, the `wait` loop, a warm reset (spec/20_memory.md R61, R64 to R66, R72; spec/40_command.md R110 to R113; spec/70_reset_and_hazards.md R280). -/

namespace Sys2Proof.Machine

/-- A host write of `w` to CMD: the command it decodes to, or a reserved word (spec/40_command.md R113). -/
def issue (w : Word) (s : State) : Host.Outcome State Fault Refusal :=
  match decode w with
  | .ok i => exec i s
  | .error _ => .next (s.reservedWord w)

/-- A host write of a whole word at an offset of the window (spec/40_command.md R111); a reserved offset ignores it
(spec/10_state.md R42), an offset that is no word offset is refused (spec/20_memory.md R72). -/
def hostWrite (off : BitVec 8) (v : Word) (s : State) : Host.Outcome State Fault Refusal :=
  if off.toNat % 4 ≠ 0 then .refused (.platformSubword off)
  else
    match Reg.atOffset off with
    | some .cmd => issue v s
    | some r => .next (s.writeReg r v)
    | none => .next s

/-- A host read of a whole word at an offset of the window (spec/40_command.md R110): a counter reads a free value while
BUSY = 1 (spec/10_state.md R43), a reserved offset reads 0 (R42). A STATUS read with BUSY = 0 settles the outputs
(spec/20_memory.md R79). -/
def hostRead (off : BitVec 8) (s : State) : Host.Outcome State Fault Refusal :=
  if off.toNat % 4 ≠ 0 then .refused (.platformSubword off)
  else
    match Reg.atOffset off with
    | some .status => .next (s.settle.reply (.word off s.statusWord))
    | some r =>
      if Reg.isCounter r && s.busy then .next (s.drawn.reply (.word off (Config.drawWord s.draws)))
      else .next (s.reply (.word off (regValue r s)))
    | none => .next (s.reply (.word off 0))

/-- A host store of a byte (spec/20_memory.md R65), which no run survives inside an active window (R66). At or beyond
MEM_SIZE it is outside the block, which does not see it (R65). -/
def hostStore (a : Word) (v : Byte) (s : State) : Host.Outcome State Fault Refusal :=
  if s.memSize ≤ a.toNat then .next s
  else if s.runningWindows.any (·.contains a.toNat) then .fault (.hostWindowWrite a.toNat)
  else .next (s.store a.toNat v)

/-- A host load of a byte: a free value where it is unwritten or an output not yet seen complete (spec/20_memory.md R64). At
or beyond MEM_SIZE it is outside the block, which neither sees nor answers it (R65). -/
def hostLoad (a : Word) (s : State) : Host.Outcome State Fault Refusal :=
  if s.memSize ≤ a.toNat then .next s
  else if s.outputOpen a.toNat then .next (s.drawn.reply (.byte a (Config.drawByte s.draws)))
  else
    match s.mem.read a.toNat with
    | some b => .next (s.reply (.byte a b))
    | none => .next (s.drawn.reply (.byte a (Config.drawByte s.draws)))

/-- One host access. -/
def hostAccess (op : HostOp) (s : State) : Host.Outcome State Fault Refusal :=
  match op with
  | .wr off v => hostWrite off v s
  | .rd off => hostRead off s
  | .sb a v => hostStore a v s
  | .lb a => hostLoad a s
  | .subword off => .refused (.platformSubword off)

/-- The `wait` loop (spec/30_encoding.md R105): while BUSY reads 1 the host keeps polling and the engine moves; the read that
shows BUSY = 0 ends it (notes/assumptions/2.md). -/
def waitTurn (s : State) : Host.Outcome State Fault Refusal :=
  if s.busy then engineTurn { s with agenda := .waitIdle :: s.agenda }
  else hostRead (Reg.offset .status) s

/-- One event of the total order, already taken off the agenda (spec/20_memory.md R77). -/
def takeEvent (e : Event) (s : State) : Host.Outcome State Fault Refusal :=
  match e with
  | .access op => hostAccess op s
  | .engine => engineTurn s
  | .waitIdle => waitTurn s
  | .warmReset => .next s.warmReset

/-- The command word a table instruction puts on the port: its `nbits` low bits, every bit above them 0. -/
def tableWord (nbits w : Nat) : Word := BitVec.ofNat 32 (w % 2 ^ nbits)

/-- The host access that issues a command word (spec/30_encoding.md R104, `cmd`). -/
def cmdWrite (w : Word) : Event := .access (.wr (Reg.offset .cmd) w)

end Sys2Proof.Machine
end

