-- ==== Sys2Proof/Machine/Step.lean ====
section
/-! DEFINITION. One step of the block and its host: the next pending event, or, where none is pending, an engine turn (spec/20_memory.md R77; spec/40_command.md R118). -/

namespace Sys2Proof.Machine

/-- One step. The agenda says who moves next; with an empty agenda the engine moves while it is busy, and an idle block
stays as it is (spec/60_exceptions.md R265). -/
def step (s : State) : Host.Outcome State Fault Refusal :=
  match s.agenda with
  | [] => engineTurn s
  | e :: rest => takeEvent e { s with agenda := rest }

/-- The block has no program memory: a command comes as the host's write of its word to CMD (spec/10_state.md R21, R26), so
the word is placed as the next pending event. -/
def State.withFetchWord (s : State) (nbits w : Nat) : State :=
  { s with agenda := cmdWrite (tableWord nbits w) :: s.agenda }

end Sys2Proof.Machine
end

