-- ==== Sys2Proof/Machine/Assemble.lean ====
section
/-! DEFINITION. The host-program assembler: the register names and pseudo-instructions of spec/30_encoding.md R104 to R106, expanded to bus transactions. -/

namespace Sys2Proof.Machine

/-- log2 of a depth 1, 2, 4 or 8 (spec/30_encoding.md R106). -/
def depthSel (v : Nat) : Nat := Nat.log2 v

/-- The CTRL word the `ctrl` keys assemble (spec/30_encoding.md R106); none where a key has no legal value. -/
def ctrlWord (k : CtrlKeys) : Option Word :=
  if k.wellFormed then
    some (BitVec.ofNat 32
      (depthSel k.bin ||| (depthSel k.bout <<< 2) ||| ((k.tw / 16) <<< 4) ||| ((k.th / 16) <<< 5)
        ||| (k.idx.toNat <<< 6) ||| (k.pad.toNat <<< 7) ||| (k.hdr.toNat <<< 8) ||| (k.pal.toNat <<< 9)
        ||| (k.irq.toNat <<< 10) ||| ((k.mapw - 1) <<< 16)))
  else none

/-- `fill addr, b0, ..., bn`: byte stores at rising addresses (spec/30_encoding.md R105). -/
def fillEvents (a : Word) : List Byte → List Event
  | [] => []
  | b :: bs => .access (.sb a b) :: fillEvents (a + 1) bs

/-- The bus transactions of one line (spec/30_encoding.md R104, R105); none where the line is ill formed. -/
def lineEvents : Stmt → Option (List Event)
  | .wr r v => some [.access (.wr (Reg.offset r) v)]
  | .rd r => some [.access (.rd (Reg.offset r))]
  | .sb a v => some [.access (.sb a v)]
  | .lb a => some [.access (.lb a)]
  | .cmd i => some [cmdWrite (encode i)]
  | .fill a bs => some (fillEvents a bs)
  | .wait => some [.waitIdle]
  | .ack => some [.access (.wr (Reg.offset .status) 0x0000000E#32)]
  | .ctrl k => (ctrlWord k).map fun w => [.access (.wr (Reg.offset .ctrl) w)]
  | .abort => some [cmdWrite (encode .abort)]

/-- The bus transactions of a host program. -/
def assemble : List Stmt → Option (List Event)
  | [] => some []
  | l :: ls =>
    match lineEvents l, assemble ls with
    | some es, some rest => some (es ++ rest)
    | _, _ => none

end Sys2Proof.Machine
end

