-- ==== Sys2Proof/Safety.lean ====
section
/-! DEFINITION. The terms claims use: the invariants of the block, the steps a command has left, the bytes a command may read, and the output streams the spec describes, written without the engine. -/

namespace Sys2Proof.Machine

/-! ## Invariants -/

/-- Buffer memory is in canonical form and holds no byte at or beyond MEM_SIZE (spec/10_state.md R50). -/
abbrev State.MemoryOk (s : State) : Prop := s.mem.wf ∧ ∀ c ∈ s.mem, c.1 < s.memSize

/-- The reserved CTRL bits [15:11] and [31:22] are 0 (spec/10_state.md R25; spec/93_implementation_defined.md I8). -/
abbrev CfgRegs.ReservedZero (c : CfgRegs) : Prop := c.ctrl &&& ~~~ctrlMask = 0

/-- What the status flags always satisfy: DONE and ERR never both (spec/10_state.md R27), all clear while BUSY (R44,
spec/40_command.md R117), abort_req clear while idle (spec/10_state.md R47), ERRCODE and ERR_INFO as the last completion
left them (spec/60_exceptions.md R251, R252), PADDED only after a completion without error (spec/41_repack.md R164). -/
abbrev State.StatusOk (s : State) : Prop :=
  s.regs.ReservedZero ∧ s.latched.ReservedZero
  ∧ ¬(s.done = true ∧ s.err = true)
  ∧ (s.busy = true → s.done = false ∧ s.err = false ∧ s.errCode = .none ∧ s.errInfo = 0 ∧ s.padded = false)
  ∧ (s.busy = false → s.abortReq = false)
  ∧ (s.done = true → s.errCode = .none)
  ∧ (s.err = true → s.errCode ≠ .none)
  ∧ (s.errCode = .none → s.errInfo = 0)
  ∧ (s.padded = true → s.errCode = .none)

/-- A command that has only started: counters and datapath are 0 (spec/40_command.md R117). -/
abbrev State.AtStart (s : State) : Prop :=
  s.inCount = 0 ∧ s.outCount = 0 ∧ s.idxCount = 0 ∧ s.tileCount = 0 ∧ s.inSr = 0 ∧ s.inLeft = 0 ∧ s.acc = 0 ∧ s.accN = 0
  ∧ s.hdrI = 0 ∧ s.palI = 0 ∧ s.runActive = false ∧ s.runColor = 0 ∧ s.runRep = 0

/-- The side-channel bytes due once `k` source bytes are read: one per tile begun (spec/41_repack.md R161). -/
def sideBytes (op : Lop) (c : CfgRegs) (k : Nat) : Nat :=
  if op = .repackTile ∧ c.idxEn = true then (k + c.tileb - 1) / c.tileb else 0

/-- The tiles complete once `n` output bytes are written (spec/41_repack.md R162). -/
def tilesDone (op : Lop) (c : CfgRegs) (n : Nat) : Nat := if op = .repackTile then n / c.tileob else 0

/-- A repack command past its preflight: every pixel read is packed, pending in ACC or still in IN_SR
(spec/41_repack.md R155, R156, R161 to R163). -/
abbrev State.RepackOk (s : State) : Prop :=
  s.lop ≠ .rleEnc ∧ preflightError s.memSize s.lop s.latched = none
  ∧ s.inCount.toNat ≤ s.latched.srcLen.toNat ∧ s.outCount.toNat ≤ s.latched.dstCap.toNat
  ∧ s.inLeft < s.latched.pIn ∧ s.accN < s.latched.pOut ∧ s.acc.toNat < 2 ^ (s.accN * s.latched.bout)
  ∧ s.inCount.toNat * s.latched.pIn = s.outCount.toNat * s.latched.pOut + s.accN + s.inLeft
  ∧ s.idxCount.toNat = sideBytes s.lop s.latched s.inCount.toNat ∧ s.idxCount.toNat ≤ s.latched.idxCap.toNat
  ∧ s.tileCount.toNat = tilesDone s.lop s.latched s.outCount.toNat

/-- What all phases of RLE_ENC past its preflight share. -/
abbrev State.RleOk (s : State) : Prop :=
  s.lop = .rleEnc ∧ preflightError s.memSize s.lop s.latched = none ∧ s.outCount.toNat ≤ s.latched.dstCap.toNat
  ∧ s.idxCount = 0 ∧ s.tileCount = 0 ∧ s.inCount.toNat ≤ s.latched.srcLen.toNat

/-- RLE_ENC in its header (spec/42_rle.md R205). -/
abbrev State.HdrOk (s : State) : Prop :=
  s.RleOk ∧ s.latched.hdrEn = true ∧ s.inCount = 0 ∧ s.runActive = false ∧ s.palI = 0 ∧ s.hdrI < 4
  ∧ s.outCount.toNat = s.hdrI

/-- RLE_ENC in its palette block (spec/42_rle.md R208). -/
abbrev State.PalOk (s : State) : Prop :=
  s.RleOk ∧ s.latched.palEn = true ∧ s.inCount = 0 ∧ s.runActive = false ∧ s.palI.toNat < s.latched.palCount.toNat
  ∧ s.outCount.toNat = s.latched.hdrLen + 2 * s.palI.toNat

/-- RLE_ENC in its tokens: a run is open exactly when a byte has been read, and the bytes written and the open run never
outgrow the bytes read (spec/42_rle.md R209, R214). -/
abbrev State.RunOk (s : State) : Prop :=
  s.RleOk ∧ s.runActive = decide (0 < s.inCount.toNat)
  ∧ s.latched.hdrLen + 2 * s.latched.palLen ≤ s.outCount.toNat
  ∧ s.outCount.toNat + (if s.runActive then s.runRep.toNat + 1 else 0)
      ≤ s.latched.hdrLen + 2 * s.latched.palLen + s.inCount.toNat

/-- What a running command satisfies in each phase. -/
abbrev State.CommandOk (s : State) : Prop :=
  (s.phase = .pre → s.AtStart) ∧ (s.phase = .repack → s.RepackOk) ∧ (s.phase = .rleHdr → s.HdrOk)
  ∧ (s.phase = .rlePal → s.PalOk) ∧ (s.phase = .rleRun → s.RunOk)

/-! ## Reads and writes of a command -/

/-- The most bytes a command can write to DST (spec/41_repack.md R156; spec/42_rle.md R214). -/
def maxOutput (op : Lop) (c : CfgRegs) : Nat :=
  match op with
  | .repackLin => (c.srcLen.toNat * c.pIn + c.pOut - 1) / c.pOut
  | .repackTile => (c.srcLen.toNat * c.pIn + c.pOut - 1) / c.pOut
  | .rleEnc => c.hdrLen + 2 * c.palLen + c.srcLen.toNat

/-- Every byte of a window the command reads has been written (spec/70_reset_and_hazards.md R284). -/
def State.SourcesWritten (s : State) : Prop :=
  ∀ w ∈ activeWindows s.lop s.latched, w.id.written = false → ∀ a, w.contains a = true → s.mem.read a ≠ none

/-- Two windows share a byte and at least one of them is written (spec/40_command.md R122). -/
abbrev Window.Overlaps (x y : Window) : Prop :=
  (x.id.written = true ∨ y.id.written = true) ∧ 0 < x.length ∧ 0 < y.length
  ∧ x.base < y.base + y.length ∧ y.base < x.base + x.length

/-- Every active window fits in buffer memory and no two of them overlap (spec/40_command.md R121, R122). -/
abbrev State.WindowsOk (s : State) : Prop :=
  (∀ w ∈ activeWindows s.lop s.latched, w.base + w.length ≤ s.memSize)
  ∧ (activeWindows s.lop s.latched).Pairwise fun x y => ¬x.Overlaps y

/-- Memory holds these bytes from `base` on. -/
def holds (m : Memory) (base : Nat) (bytes : List Byte) : Prop :=
  ∀ j (h : j < bytes.length), m.read (base + j) = some bytes[j]

/-- The source bytes of a command in its read order (spec/41_repack.md R157, R159): `bytes` are these. -/
def reads (m : Memory) (op : Lop) (c : CfgRegs) (bytes : List Byte) : Prop :=
  bytes.length = c.srcLen.toNat ∧
  ∀ k (h : k < bytes.length), m.read (c.srcBase.toNat + readOffset op c k) = some bytes[k]

/-- An outcome with its next state changed. -/
def mapNext (f : State → State) : Host.Outcome State Fault Refusal → Host.Outcome State Fault Refusal
  | .next s => .next (f s)
  | .fault r => .fault r
  | .refused r => .refused r

/-! ## The output streams, from the spec's closed forms -/

/-- The pixels of a byte as bit fields, most significant first (spec/30_encoding.md R98). -/
def fieldPixels (b : Byte) (bin : Nat) : List Byte :=
  (List.range (8 / bin)).map fun k => (b >>> (8 - (k + 1) * bin)) &&& mask bin

/-- Pixels placed in the fields of a byte from field `k` on; missing fields are 0 (spec/41_repack.md R155, R164). -/
def packFields (bout : Nat) : Nat → List Byte → Byte
  | _, [] => 0
  | k, p :: ps => ((p &&& mask bout) <<< (8 - (k + 1) * bout)) ||| packFields bout (k + 1) ps

/-- The output bytes of a pixel stream, `8 / bout` pixels each, the last one padded with zeros (spec/41_repack.md R156). -/
def packPixels (bout : Nat) (pixels : List Byte) : List Byte :=
  (List.range ((pixels.length + 8 / bout - 1) / (8 / bout))).map fun j =>
    packFields bout 0 ((pixels.drop (j * (8 / bout))).take (8 / bout))

/-- The output of a repack from depth `bin` to depth `bout` (spec/41_repack.md R156). -/
def repackBytes (bin bout : Nat) (bytes : List Byte) : List Byte :=
  packPixels bout (bytes.flatMap fun b => fieldPixels b bin)

/-- The tokens of a maximal block of `n` bytes of one colour: 256 at a time, then the rest (spec/42_rle.md R213). -/
def blockTokens (c : Nibble) (n : Nat) : List Byte :=
  (List.replicate (n / 256) (tokenBytes c 255)).flatten
    ++ if n % 256 = 0 then [] else tokenBytes c (BitVec.ofNat 8 (n % 256 - 1))

/-- The token stream of a colour sequence: its maximal blocks in order (spec/42_rle.md R213). -/
def rleTokens (colors : List Nibble) : List Byte :=
  (colors.splitBy (· == ·)).flatMap fun block =>
    match block with
    | [] => []
    | c :: _ => blockTokens c block.length

/-- The decoder oracle (spec/95_test_vectors.md section 4.4). -/
def decodeTokens : List Byte → List Nibble
  | [] => []
  | [x] => if x.extractLsb' 4 4 = 0xF#4 then [] else List.replicate ((x.extractLsb' 4 4).toNat + 1) (colorOf x)
  | x :: y :: rest =>
    if x.extractLsb' 4 4 = 0xF#4 then List.replicate (15 + y.toNat + 1) (colorOf x) ++ decodeTokens rest
    else List.replicate ((x.extractLsb' 4 4).toNat + 1) (colorOf x) ++ decodeTokens (y :: rest)

/-- The header bytes (spec/20_memory.md R70; spec/30_encoding.md R103). -/
def headerBytes (c : CfgRegs) : List Byte := if c.hdrEn then (List.range 4).map (headerByte c) else []

/-- The palette block of binary triples R, G, B (spec/42_rle.md R208; spec/30_encoding.md R103). -/
def paletteBytes : List Byte → List Byte
  | r :: g :: b :: rest => palBytes r g b ++ paletteBytes rest
  | _ => []

end Sys2Proof.Machine
end

