-- ==== Sys2Proof/Certificates/Slice0/Obligations.lean ====
section
/-! DEFINITION. The statements for the provers, from the spec's numbered rules. -/

open Sys2Proof Sys2Proof.Machine

/-! ## Encoding -/

/-- spec/30_encoding.md section 2: the five words of the opcode table stand for the five commands. -/
def Obligations.CommandWordsDecode : Prop :=
  decode 0b00000000000000000000000000000000#32 = .ok .nop
  ∧ decode 0b00000000000000000000000000000001#32 = .ok .repackLin
  ∧ decode 0b00000000000000000000000000000010#32 = .ok .repackTile
  ∧ decode 0b00000000000000000000000000000011#32 = .ok .rleEnc
  ∧ decode 0b00000000000000000000000000001000#32 = .ok .abort

/-- spec/30_encoding.md R91: a word is a command exactly when Z is 0 and OP is an opcode, and then it is that command's
one word; every other word is rejected. -/
def Obligations.DecodeAcceptsExactlyTheValidWords : Prop :=
  ∀ w : Word,
    ((∃ i, decode w = .ok i) ↔
      w.extractLsb' 4 28 = 0#28 ∧ w.extractLsb' 0 4 ∈ [0x0#4, 0x1#4, 0x2#4, 0x3#4, 0x8#4])
    ∧ ∀ i, decode w = .ok i ↔ w = encode i

/-- spec/30_encoding.md R92: every value of every control-word field is legal and decodes to the source's values. -/
def Obligations.CtrlFieldsDecode : Prop :=
  ∀ c : CfgRegs,
    (c.ctrl.extractLsb' 0 2 = 0#2 → c.bin = 1) ∧ (c.ctrl.extractLsb' 0 2 = 1#2 → c.bin = 2)
    ∧ (c.ctrl.extractLsb' 0 2 = 2#2 → c.bin = 4) ∧ (c.ctrl.extractLsb' 0 2 = 3#2 → c.bin = 8)
    ∧ (c.ctrl.extractLsb' 2 2 = 0#2 → c.bout = 1) ∧ (c.ctrl.extractLsb' 2 2 = 1#2 → c.bout = 2)
    ∧ (c.ctrl.extractLsb' 2 2 = 2#2 → c.bout = 4) ∧ (c.ctrl.extractLsb' 2 2 = 3#2 → c.bout = 8)
    ∧ c.tw = (if c.ctrl.getLsbD 4 = true then 16 else 8) ∧ c.th = (if c.ctrl.getLsbD 5 = true then 16 else 8)
    ∧ c.mapw = (c.ctrl.extractLsb' 16 6).toNat + 1 ∧ 1 ≤ c.mapw ∧ c.mapw ≤ 64
    ∧ c.idxEn = c.ctrl.getLsbD 6 ∧ c.padMode = c.ctrl.getLsbD 7 ∧ c.hdrEn = c.ctrl.getLsbD 8
    ∧ c.palEn = c.ctrl.getLsbD 9 ∧ c.irqEn = c.ctrl.getLsbD 10

/-! ## The step and the CMD write -/

/-- The step at a pending CMD write of a command's word is that command's meaning, on the state with the write taken off the
agenda. That a command comes from the agenda is the model's choice (notes/assumptions/2.md). -/
def Obligations.StepRunsTheDecodedCommand : Prop :=
  (∀ (s : State) (w : Word) (i : Instr) (rest : List Event), s.agenda = cmdWrite w :: rest → decode w = .ok i →
    step s = exec i { s with agenda := rest })
  ∧ ∀ (s : State) (w : Word) (i : Instr), decode w = .ok i → step (s.withFetchWord 32 w.toNat) = exec i s

/-- spec/20_memory.md sections 1, 5 and 7 (R61, R72, R77), spec/30_encoding.md section 6 (R105): a step is the next event of the
total order, a host access at an offset that is no word offset or narrower than a word is refused, and `wait` polls while BUSY
reads 1. That the order is a list in the state, and that the engine moves when it is empty, is the model's choice
(notes/assumptions/2.md). -/
def Obligations.StepTakesTheNextEvent : Prop :=
  (∀ s : State, s.agenda = [] → step s = engineTurn s)
  ∧ ∀ (s : State) (rest : List Event) (off : BitVec 8) (a v : Word) (b : Byte),
    (s.agenda = .engine :: rest → step s = engineTurn { s with agenda := rest })
    ∧ (s.agenda = .access (.wr off v) :: rest → off.toNat % 4 = 0 → step s = hostWrite off v { s with agenda := rest })
    ∧ (s.agenda = .access (.rd off) :: rest → off.toNat % 4 = 0 → step s = hostRead off { s with agenda := rest })
    ∧ (s.agenda = .access (.sb a b) :: rest → step s = hostStore a b { s with agenda := rest })
    ∧ (s.agenda = .access (.lb a) :: rest → step s = hostLoad a { s with agenda := rest })
    ∧ (s.agenda = .access (.wr off v) :: rest → off.toNat % 4 ≠ 0 → step s = .refused (.platformSubword off))
    ∧ (s.agenda = .access (.rd off) :: rest → off.toNat % 4 ≠ 0 → step s = .refused (.platformSubword off))
    ∧ (s.agenda = .access (.subword off) :: rest → step s = .refused (.platformSubword off))
    ∧ (s.agenda = .waitIdle :: rest → s.busy = true → step s = engineTurn s)
    ∧ (s.agenda = .waitIdle :: rest → s.busy = false → step s = hostRead 0x0C#8 { s with agenda := rest })
    ∧ (s.agenda = .warmReset :: rest → step s = .next { s with agenda := rest }.warmReset)

/-- spec/40_command.md R113, the whole CMD dispatch. -/
def Obligations.CmdWriteDispatch : Prop :=
  ∀ (w : Word) (s : State), hostWrite 0x08#8 w s =
    if s.phase = .idle then
      if w = 0x00000000#32 ∨ w = 0x00000008#32 then .next s
      else if w = 0x00000001#32 then .next (s.start .repackLin)
      else if w = 0x00000002#32 then .next (s.start .repackTile)
      else if w = 0x00000003#32 then .next (s.start .rleEnc)
      else .next (s.clearForStart.completeErr .ecmd w)
    else
      if w = 0x00000000#32 then .next s
      else if w = 0x00000008#32 then .next { s with abortReq := true }
      else .next { s with rej := true }

/-- spec/40_command.md R116: a reserved word written while idle ends at once with ECMD. -/
def Obligations.ReservedWordCompletesWithEcmd : Prop :=
  (∀ (s : State) (w : Word), s.phase = .idle → (∀ i, decode w ≠ .ok i) →
    hostWrite 0x08#8 w s = .next
      { s with
        done := false, err := true, errCode := .ecmd, padded := false, errInfo := w, phase := .idle, abortReq := false
        inCount := 0, outCount := 0, idxCount := 0, tileCount := 0 })
  ∧ ∀ i, decode 0x00000011#32 ≠ .ok i ∧ decode 0x00000004#32 ≠ .ok i

/-- spec/40_command.md R114: NOP changes nothing, in any phase. -/
def Obligations.NopChangesNothing : Prop := ∀ s : State, exec .nop s = .next s

/-- spec/40_command.md R115, R119: ABORT sets abort_req while busy and does nothing while idle, a second ABORT adds nothing,
and the engine's next step, whatever its phase, only ends the command with EABORT. -/
def Obligations.AbortIsTakenAtTheNextStep : Prop :=
  ∀ s : State,
    (s.phase = .idle → exec .abort s = .next s)
    ∧ (s.phase ≠ .idle →
        exec .abort s = .next { s with abortReq := true }
        ∧ exec .abort { s with abortReq := true } = .next { s with abortReq := true }
        ∧ (s.abortReq = true → engineTurn s = .next
            { s with phase := .idle, abortReq := false, err := true, errCode := .eabort, errInfo := 0 }))

/-- spec/40_command.md R117: what a starting command leaves while idle. `unseen` is the model's own field and is left open
(notes/assumptions/6.md). -/
def Obligations.StartLatchesTheConfiguration : Prop :=
  ∀ (s : State) (i : Instr) (op : Lop), s.phase = .idle →
    (i, op) ∈ [(.repackLin, .repackLin), (.repackTile, .repackTile), (.rleEnc, .rleEnc)] →
    ∃ t, exec i s = .next t ∧ t.statusWord.getLsbD 0 = true ∧
      { t with unseen := s.unseen } =
        { s with
          done := false, err := false, errCode := .none, padded := false, errInfo := 0
          inCount := 0, outCount := 0, idxCount := 0, tileCount := 0
          latched := s.regs, lop := op, abortReq := false, inSr := 0, inLeft := 0, acc := 0, accN := 0
          hdrI := 0, palI := 0, runActive := false, runColor := 0, runRep := 0, phase := .pre }

/-! ## The engine step, preflight, completion -/

/-- spec/40_command.md R118, first sentence: the engine steps exactly while BUSY = 1, and no engine step is refused. -/
def Obligations.EngineMovesOnlyWhileBusy : Prop :=
  ∀ s : State, (s.phase = .idle → engineTurn s = .next s)
    ∧ (s.phase ≠ .idle → engineTurn s = (engineStep s).outcome)
    ∧ ∀ r, engineTurn s ≠ .refused r

/-- spec/40_command.md R121: the first active window that does not fit is reported, and an empty one fits when its base does.
The active windows in terms of the latched registers are those of spec/20_memory.md section 3 (R67): IDX only for REPACK_TILE
with IDX_EN = 1, PAL only for RLE_ENC with PAL_EN = 1, and of them DST and IDX are written. -/
def Obligations.FirstWindowOutOfBoundsIsReported : Prop :=
  (∀ (s : State) (before after : List Window) (w : Window), s.phase = .pre → s.abortReq = false →
    activeWindows s.lop s.latched = before ++ w :: after →
    (∀ x ∈ before, x.base + x.length ≤ s.memSize) → s.memSize < w.base + w.length →
    engineTurn s = .next
      { s with phase := .idle, abortReq := false, err := true, errCode := .ewindow
               errInfo := match w.id with
                 | .src => 1
                 | .dst => 2
                 | .idx => 3
                 | .pal => 4 })
  ∧ (∀ (memSize : Nat) (w : Window), w.length = 0 → (w.overruns memSize = false ↔ w.base ≤ memSize))
  ∧ ∀ (c : CfgRegs) (src dst idx pal : Window),
    src = ⟨.src, c.srcBase.toNat, c.srcLen.toNat⟩ → dst = ⟨.dst, c.dstBase.toNat, c.dstCap.toNat⟩ →
    idx = ⟨.idx, c.idxBase.toNat, c.idxCap.toNat⟩ → pal = ⟨.pal, c.palBase.toNat, 3 * c.palCount.toNat⟩ →
    activeWindows .repackLin c = [src, dst] ∧ outputWindows .repackLin c = [dst]
    ∧ activeWindows .repackTile c = (if c.ctrl.getLsbD 6 = true then [src, dst, idx] else [src, dst])
    ∧ outputWindows .repackTile c = (if c.ctrl.getLsbD 6 = true then [dst, idx] else [dst])
    ∧ activeWindows .rleEnc c = (if c.ctrl.getLsbD 9 = true then [src, dst, pal] else [src, dst])
    ∧ outputWindows .rleEnc c = [dst]

/-- spec/40_command.md R122: when every window fits, the first overlapping pair in lexicographic order is reported; SRC and
PAL never overlap in this sense, nor do adjacent windows. -/
def Obligations.FirstOverlapIsReported : Prop :=
  (∀ (s : State) (a b c : List Window) (x y : Window), s.phase = .pre → s.abortReq = false →
    activeWindows s.lop s.latched = a ++ x :: (b ++ y :: c) →
    (∀ w ∈ activeWindows s.lop s.latched, w.base + w.length ≤ s.memSize) →
    (∀ a₁ p a₂, a = a₁ ++ p :: a₂ → ∀ q ∈ a₂ ++ x :: (b ++ y :: c), ¬p.Overlaps q) →
    (∀ q ∈ b, ¬x.Overlaps q) → x.Overlaps y →
    engineTurn s = .next
      { s with phase := .idle, abortReq := false, err := true, errCode := .ewindow
               errInfo := BitVec.ofNat 32 (x.id.num ||| (y.id.num <<< 4)) })
  ∧ (∀ x y : Window, x.id = .src → y.id = .pal → ¬x.Overlaps y)
  ∧ ∀ x y : Window, x.base + x.length = y.base → ¬x.Overlaps y

/-- spec/40_command.md R123: with the windows in order, REPACK_LIN without PAD_MODE is refused exactly when its pixel count is
not a multiple of pOut, which needs Bin > Bout and a SRC_LEN that Bin/Bout does not divide. -/
def Obligations.LengthCheckOfRepackLin : Prop :=
  ∀ s : State, s.phase = .pre → s.abortReq = false → s.lop = .repackLin → s.WindowsOk →
    (s.latched.srcLen.toNat * s.latched.pIn % s.latched.pOut ≠ 0 → s.latched.padMode = false →
      engineTurn s = .next
        { s with phase := .idle, abortReq := false, err := true, errCode := .elen
                 errInfo := BitVec.ofNat 32 (s.latched.srcLen.toNat * s.latched.pIn % s.latched.pOut) })
    ∧ (s.latched.srcLen.toNat * s.latched.pIn % s.latched.pOut = 0 ∨ s.latched.padMode = true →
      engineTurn s = .next { s with phase := .repack })
    ∧ (s.latched.srcLen.toNat * s.latched.pIn % s.latched.pOut ≠ 0 →
      s.latched.bout < s.latched.bin ∧ ¬s.latched.bin / s.latched.bout ∣ s.latched.srcLen.toNat)

/-- spec/40_command.md R124: with the windows in order, REPACK_TILE is refused exactly when SRC_LEN is not a whole number of
tile rows. -/
def Obligations.GeometryCheckOfRepackTile : Prop :=
  ∀ s : State, s.phase = .pre → s.abortReq = false → s.lop = .repackTile → s.WindowsOk →
    (s.latched.srcLen.toNat % (s.latched.mapw * s.latched.tileb) ≠ 0 →
      engineTurn s = .next
        { s with phase := .idle, abortReq := false, err := true, errCode := .egeom
                 errInfo := BitVec.ofNat 32 (s.latched.srcLen.toNat % (s.latched.mapw * s.latched.tileb)) })
    ∧ (s.latched.srcLen.toNat % (s.latched.mapw * s.latched.tileb) = 0 →
      engineTurn s = .next { s with phase := .repack })

/-- spec/42_rle.md section 4 (R211): with the windows in order, RLE_ENC goes to its header, else its palette, else its tokens. -/
def Obligations.RleEncEntersItsFirstPhase : Prop :=
  ∀ s : State, s.phase = .pre → s.abortReq = false → s.lop = .rleEnc → s.WindowsOk →
    (s.latched.hdrEn = true → engineTurn s = .next { s with phase := .rleHdr })
    ∧ (s.latched.hdrEn = false → s.latched.palEn = true → 0 < s.latched.palCount.toNat →
        engineTurn s = .next { s with phase := .rlePal })
    ∧ (s.latched.hdrEn = false → (s.latched.palEn = false ∨ s.latched.palCount = 0) →
        engineTurn s = .next { s with phase := .rleRun })

/-- spec/40_command.md R130: a raise makes the engine idle, writes ERR, ERRCODE and ERR_INFO, keeps all else, and nothing
after it in the step happens. -/
def Obligations.RaiseEndsTheStep : Prop :=
  ∀ (e : ErrCode) (info : Word) (s : State) (k : State → Progress),
    (raise e info s).andThen k = .ended
      { s with phase := .idle, abortReq := false, err := true, errCode := e, errInfo := info }

/-- spec/40_command.md R131: the checked destination write. -/
def Obligations.DestinationWriteIsChecked : Prop :=
  (∀ (v : Byte) (s : State),
    (s.outCount = s.latched.dstCap → dstWrite v s = .ended
      { s with phase := .idle, abortReq := false, err := true, errCode := .edstovf, errInfo := s.outCount })
    ∧ (s.outCount ≠ s.latched.dstCap → s.latched.dstBase.toNat + s.outCount.toNat < s.memSize →
        ∃ t, dstWrite v s = .go t
          ∧ t.mem.read (s.latched.dstBase.toNat + s.outCount.toNat) = some v
          ∧ (∀ a, a ≠ s.latched.dstBase.toNat + s.outCount.toNat → t.mem.read a = s.mem.read a)
          ∧ { t with mem := s.mem } = { s with outCount := s.outCount + 1 }))
  ∧ ∀ (v w : Byte) (s : State), s.outCount ≠ s.latched.dstCap → s.outCount + 1 = s.latched.dstCap →
      s.latched.dstBase.toNat + s.outCount.toNat < s.memSize →
      ∃ t, dstWrites [v, w] s = .ended t ∧ t.errCode = .edstovf ∧ t.errInfo = s.latched.dstCap
        ∧ t.outCount = s.latched.dstCap
        ∧ t.mem.read (s.latched.dstBase.toNat + s.outCount.toNat) = some v
        ∧ ∀ a, a ≠ s.latched.dstBase.toNat + s.outCount.toNat → t.mem.read a = s.mem.read a

/-- spec/40_command.md R132: the checked palette-index write. -/
def Obligations.IndexWriteIsChecked : Prop :=
  ∀ (v : Byte) (s : State),
    (s.idxCount = s.latched.idxCap → idxWrite v s = .ended
      { s with phase := .idle, abortReq := false, err := true, errCode := .eidxovf, errInfo := s.idxCount })
    ∧ (s.idxCount ≠ s.latched.idxCap → s.latched.idxBase.toNat + s.idxCount.toNat < s.memSize →
        ∃ t, idxWrite v s = .go t
          ∧ t.mem.read (s.latched.idxBase.toNat + s.idxCount.toNat) = some v
          ∧ (∀ a, a ≠ s.latched.idxBase.toNat + s.idxCount.toNat → t.mem.read a = s.mem.read a)
          ∧ { t with mem := s.mem } = { s with idxCount := s.idxCount + 1 })

/-! ## Repacker -/

/-- spec/41_repack.md R150: the rotate-and-mask pixels of a byte are its bit fields, and the rotations bring the byte back. -/
def Obligations.UnpackReadsTheFields : Prop :=
  (∀ (b : Byte) (sel : BitVec 2),
    unpack b (1 <<< sel.toNat) = fieldPixels b (1 <<< sel.toNat)
    ∧ (fun x => rol8 x (1 <<< sel.toNat))^[8 / (1 <<< sel.toNat)] b = b)
  ∧ unpack 0xB4#8 2 = [2, 3, 1, 0]

/-- spec/41_repack.md section 2 (R153, R155, R164): from ACC = 0, pack steps of at most pOut pixels and the final shift give
the byte with the first pixel in the most significant field and zeros in the missing ones. -/
def Obligations.PackStepsBuildTheOutputByte : Prop :=
  ∀ (sel : BitVec 2) (pixels : List Byte), pixels ≠ [] → pixels.length ≤ 8 / (1 <<< sel.toNat) →
    padByte (1 <<< sel.toNat) (8 / (1 <<< sel.toNat)) pixels.length
      (pixels.foldl (packStep (1 <<< sel.toNat)) 0) = packFields (1 <<< sel.toNat) 0 pixels

/-- spec/41_repack.md section 6 (R167), on the output streams of REPACK_LIN: same depth is the identity, up and back down is
the identity, down and back up masks every pixel to the low depth. -/
def Obligations.RepackRoundTrips : Prop :=
  ∀ (lo hi : BitVec 2) (bytes : List Byte),
    repackBytes (1 <<< hi.toNat) (1 <<< hi.toNat) bytes = bytes
    ∧ (lo < hi →
      repackBytes (1 <<< hi.toNat) (1 <<< lo.toNat) (repackBytes (1 <<< lo.toNat) (1 <<< hi.toNat) bytes) = bytes
      ∧ (bytes.length * (8 / (1 <<< hi.toNat)) % (8 / (1 <<< lo.toNat)) = 0 →
        repackBytes (1 <<< lo.toNat) (1 <<< hi.toNat) (repackBytes (1 <<< hi.toNat) (1 <<< lo.toNat) bytes)
          = packPixels (1 <<< hi.toNat)
              ((bytes.flatMap fun b => fieldPixels b (1 <<< hi.toNat)).map (· &&& mask (1 <<< lo.toNat)))))

/-- spec/41_repack.md R160: after the geometry check the tile-address decoder is a bijection of the source offsets, so ETRUNC
never fires. -/
def Obligations.TileOffsetsAreABijection : Prop :=
  ∀ (c : CfgRegs) (rows : Nat), c.srcLen.toNat = rows * c.mapw * c.tileb →
    (∀ k, k < c.srcLen.toNat → tileOffset c (k / c.tileb) (k % c.tileb) < c.srcLen.toNat)
    ∧ (∀ k l, k < c.srcLen.toNat → l < c.srcLen.toNat →
        tileOffset c (k / c.tileb) (k % c.tileb) = tileOffset c (l / c.tileb) (l % c.tileb) → k = l)
    ∧ ∀ o, o < c.srcLen.toNat → ∃ k, k < c.srcLen.toNat ∧ tileOffset c (k / c.tileb) (k % c.tileb) = o

/-- spec/41_repack.md sections 5 and 6 (R166, R169): within a tile row the offsets are consecutive, and with one tile per row
the tiled order is the linear one. -/
def Obligations.TileOffsetsRunAlongRows : Prop :=
  ∀ (c : CfgRegs) (n i : Nat),
    ((i + 1) % c.twb ≠ 0 → tileOffset c n (i + 1) = tileOffset c n i + 1)
    ∧ (c.mapw = 1 → i < c.tileb → tileOffset c n i = n * c.tileb + i)

/-- spec/41_repack.md section 4 (R162, R163), spec/60_exceptions.md section 2 (R255): the repack step. With pixels in IN_SR it
moves one: a pixel that completes no output byte changes nothing else, memory included; one that does sends the byte to
L.DST_BASE + OUT_COUNT, clears ACC and counts the tile it completes, every other byte of memory unchanged; with no room the
pixel is taken and packed, no byte is written and EDSTOVF is raised. With none in IN_SR and source left, it fetches the byte at
the read offset of IN_COUNT (first the check ETRUNC), counts it, writes the palette index of a tile's first byte to
L.IDX_BASE + IDX_COUNT where IDX_EN = 1, every other byte unchanged, and then does, in the same step, what a step with that
byte's pixels in IN_SR does. -/
def Obligations.RepackStepMovesOnePixel : Prop :=
  ∀ s : State, s.phase = .repack → s.abortReq = false →
    (s.inLeft ≠ 0 → s.accN + 1 ≠ s.latched.pOut → engineTurn s = .next
      { s with
        inSr := rol8 s.inSr s.latched.bin
        inLeft := s.inLeft - 1
        acc := rol8 s.acc s.latched.bout ||| (rol8 s.inSr s.latched.bin &&& mask s.latched.bin &&& mask s.latched.bout)
        accN := s.accN + 1 })
    ∧ (s.inLeft ≠ 0 → s.accN + 1 = s.latched.pOut → s.outCount ≠ s.latched.dstCap → s.dstAddr < s.memSize →
      ∃ t, engineTurn s = .next t
        ∧ t.mem.read s.dstAddr = some (rol8 s.acc s.latched.bout
            ||| (rol8 s.inSr s.latched.bin &&& mask s.latched.bin &&& mask s.latched.bout))
        ∧ (∀ a, a ≠ s.dstAddr → t.mem.read a = s.mem.read a)
        ∧ { t with mem := s.mem } =
            { s with
              inSr := rol8 s.inSr s.latched.bin, inLeft := s.inLeft - 1, acc := 0, accN := 0
              outCount := s.outCount + 1
              tileCount :=
                if s.lop = .repackTile ∧ (s.outCount + 1).toNat % s.latched.tileob = 0 then s.tileCount + 1
                else s.tileCount })
    ∧ (s.inLeft ≠ 0 → s.accN + 1 = s.latched.pOut → s.outCount = s.latched.dstCap → engineTurn s = .next
      { s with
        inSr := rol8 s.inSr s.latched.bin
        inLeft := s.inLeft - 1
        acc := rol8 s.acc s.latched.bout ||| (rol8 s.inSr s.latched.bin &&& mask s.latched.bin &&& mask s.latched.bout)
        accN := s.accN + 1
        phase := .idle, abortReq := false, err := true, errCode := .edstovf, errInfo := s.latched.dstCap })
    ∧ ∀ off : Nat,
      off = (if s.lop = .repackTile then
          tileOffset s.latched (s.inCount.toNat / s.latched.tileb) (s.inCount.toNat % s.latched.tileb)
        else s.inCount.toNat) →
      s.inLeft = 0 → s.inCount ≠ s.latched.srcLen →
      (s.lop = .repackTile → s.latched.srcLen.toNat ≤ off → engineTurn s = .next
        { s with phase := .idle, abortReq := false, err := true, errCode := .etrunc, errInfo := BitVec.ofNat 32 off })
      ∧ ∀ b : Byte, (s.lop = .repackTile → off < s.latched.srcLen.toNat) →
        s.latched.srcBase.toNat + off < s.memSize → s.mem.read (s.latched.srcBase.toNat + off) = some b →
        (¬(s.lop = .repackTile ∧ s.inCount.toNat % s.latched.tileb = 0 ∧ s.latched.idxEn = true) →
          engineTurn s = engineTurn { s with inCount := s.inCount + 1, inSr := b, inLeft := s.latched.pIn })
        ∧ (s.lop = .repackTile → s.inCount.toNat % s.latched.tileb = 0 → s.latched.idxEn = true →
          s.idxCount ≠ s.latched.idxCap → s.idxAddr < s.memSize →
          ∃ m : Memory, m.read s.idxAddr = some (b >>> 4) ∧ (∀ a, a ≠ s.idxAddr → m.read a = s.mem.read a)
            ∧ engineTurn s = engineTurn
                { s with
                  mem := m, idxCount := s.idxCount + 1, inCount := s.inCount + 1, inSr := b, inLeft := s.latched.pIn })

/-- spec/60_exceptions.md section 2 (R255): EIDXOVF is raised with the tile's first byte counted in IN_COUNT and none of its
pixels processed, memory unchanged. -/
def Obligations.IndexOverflowCountsTheByteOnly : Prop :=
  ∀ (s : State) (b : Byte), s.phase = .repack → s.abortReq = false → s.lop = .repackTile → s.latched.idxEn = true →
    s.inLeft = 0 → s.inCount ≠ s.latched.srcLen → s.inCount.toNat % s.latched.tileb = 0 →
    s.idxCount = s.latched.idxCap →
    tileOffset s.latched (s.inCount.toNat / s.latched.tileb) 0 < s.latched.srcLen.toNat →
    s.latched.srcBase.toNat + tileOffset s.latched (s.inCount.toNat / s.latched.tileb) 0 < s.memSize →
    s.mem.read (s.latched.srcBase.toNat + tileOffset s.latched (s.inCount.toNat / s.latched.tileb) 0) = some b →
    engineTurn s = .next
      { s with
        inCount := s.inCount + 1, phase := .idle, abortReq := false, err := true, errCode := .eidxovf
        errInfo := s.latched.idxCap }

/-- spec/41_repack.md R164: the final step shifts and writes a partial byte, sets PADDED and completes; with no room EDSTOVF is
raised with ACC shifted and PADDED as it was; a partial byte occurs only for REPACK_LIN with PAD_MODE and an uneven pixel
count. -/
def Obligations.FinalRepackStepPads : Prop :=
  ∀ s : State, s.phase = .repack → s.abortReq = false → s.inLeft = 0 → s.inCount = s.latched.srcLen →
    (s.accN = 0 → engineTurn s = .next
      { s with phase := .idle, abortReq := false, done := true, errCode := .none })
    ∧ (s.accN ≠ 0 → s.outCount = s.latched.dstCap → engineTurn s = .next
        { s with
          acc := s.acc <<< (s.latched.bout * (s.latched.pOut - s.accN))
          phase := .idle, abortReq := false, err := true, errCode := .edstovf, errInfo := s.outCount })
    ∧ (s.accN ≠ 0 → s.outCount ≠ s.latched.dstCap → s.dstAddr < s.memSize →
        ∃ t, engineTurn s = .next t
          ∧ t.mem.read s.dstAddr = some (s.acc <<< (s.latched.bout * (s.latched.pOut - s.accN)))
          ∧ (∀ a, a ≠ s.dstAddr → t.mem.read a = s.mem.read a)
          ∧ { t with mem := s.mem } =
              { s with
                outCount := s.outCount + 1, padded := true, acc := 0, accN := 0
                phase := .idle, abortReq := false, done := true, errCode := .none })
    ∧ (s.RepackOk → s.accN ≠ 0 →
        s.lop = .repackLin ∧ s.latched.padMode = true ∧ s.latched.srcLen.toNat * s.latched.pIn % s.latched.pOut ≠ 0)

/-- spec/41_repack.md section 5 (R165): REPACK_LIN from idle, with preflight passing, its source written and room for its
output, ends with DONE after one preflight step, one step per pixel and one final step; DST holds the repacked pixels and no
other byte of memory changes. -/
def Obligations.RepackLinWritesTheRepackedPixels : Prop :=
  ∀ (s : State) (bytes : List Byte), s.phase = .idle →
    preflightError s.memSize .repackLin s.regs = none → reads s.mem .repackLin s.regs bytes →
    (repackBytes s.regs.bin s.regs.bout bytes).length ≤ s.regs.dstCap.toNat →
    ∃ t u, exec .repackLin s = .next t ∧ engineRun (2 + bytes.length * s.regs.pIn) t = .next u
      ∧ holds u.mem s.regs.dstBase.toNat (repackBytes s.regs.bin s.regs.bout bytes)
      ∧ (∀ a, ¬(s.regs.dstBase.toNat ≤ a
            ∧ a < s.regs.dstBase.toNat + (repackBytes s.regs.bin s.regs.bout bytes).length) →
          u.mem.read a = s.mem.read a)
      ∧ u.phase = .idle ∧ u.done = true ∧ u.err = false ∧ u.errCode = .none ∧ u.errInfo = 0 ∧ u.rej = s.rej
      ∧ u.padded = decide (bytes.length * s.regs.pIn % s.regs.pOut ≠ 0)
      ∧ u.inCount = s.regs.srcLen ∧ u.outCount.toNat = (repackBytes s.regs.bin s.regs.bout bytes).length
      ∧ u.idxCount = 0 ∧ u.tileCount = 0 ∧ u.regs = s.regs

/-- spec/41_repack.md section 5 (R166): REPACK_TILE likewise, the source read tile by tile, with one palette-index byte per
tile where IDX_EN = 1. -/
def Obligations.RepackTileWritesTheTiles : Prop :=
  ∀ (s : State) (bytes : List Byte), s.phase = .idle →
    preflightError s.memSize .repackTile s.regs = none → reads s.mem .repackTile s.regs bytes →
    (repackBytes s.regs.bin s.regs.bout bytes).length ≤ s.regs.dstCap.toNat →
    (s.regs.idxEn = true → s.regs.srcLen.toNat / s.regs.tileb ≤ s.regs.idxCap.toNat) →
    ∃ t u, exec .repackTile s = .next t ∧ engineRun (2 + bytes.length * s.regs.pIn) t = .next u
      ∧ holds u.mem s.regs.dstBase.toNat (repackBytes s.regs.bin s.regs.bout bytes)
      ∧ (s.regs.idxEn = true → ∀ n, n < s.regs.srcLen.toNat / s.regs.tileb →
          ∃ b, s.mem.read (s.regs.srcBase.toNat + tileOffset s.regs n 0) = some b
            ∧ u.mem.read (s.regs.idxBase.toNat + n) = some (paletteIndex b))
      ∧ (∀ a, ¬(s.regs.dstBase.toNat ≤ a
            ∧ a < s.regs.dstBase.toNat + (repackBytes s.regs.bin s.regs.bout bytes).length) →
          ¬(s.regs.idxEn = true ∧ s.regs.idxBase.toNat ≤ a
            ∧ a < s.regs.idxBase.toNat + s.regs.srcLen.toNat / s.regs.tileb) →
          u.mem.read a = s.mem.read a)
      ∧ u.phase = .idle ∧ u.done = true ∧ u.err = false ∧ u.errCode = .none ∧ u.errInfo = 0 ∧ u.rej = s.rej
      ∧ u.padded = false ∧ u.inCount = s.regs.srcLen
      ∧ u.outCount.toNat = s.regs.srcLen.toNat / s.regs.tileb * s.regs.tileob
      ∧ u.tileCount.toNat = s.regs.srcLen.toNat / s.regs.tileb
      ∧ u.idxCount.toNat = (if s.regs.idxEn = true then s.regs.srcLen.toNat / s.regs.tileb else 0) ∧ u.regs = s.regs

/-! ## Run-length encoder -/

/-- spec/42_rle.md R204: a run's token is one byte below 16 units and two above, its long second byte is at most 240, a short
token's high nibble at most 14, and the decoder reads it back without looking further. -/
def Obligations.TokensAreOneOrTwoBytes : Prop :=
  ∀ (c : Nibble) (rep : Byte) (rest : List Byte),
    ((tokenBytes c rep).length = if rep.toNat + 1 ≤ 15 then 1 else 2)
    ∧ (∀ x y, tokenBytes c rep = [x, y] → x.extractLsb' 4 4 = 0xF#4 ∧ y.toNat ≤ 240)
    ∧ (∀ x, tokenBytes c rep = [x] → (x.extractLsb' 4 4).toNat ≤ 14)
    ∧ decodeTokens (tokenBytes c rep ++ rest) = List.replicate (rep.toNat + 1) c ++ decodeTokens rest

/-- spec/42_rle.md R206, R207: the channel quantiser's formula, its round-to-nearest form for every input and its boundary
values, and the palette word's three channels and zero top nibble. -/
def Obligations.QuantiserAndPaletteWord : Prop :=
  (∀ n : Byte, (q4 n).toNat = (n.toNat * 15 + 135) / 256
    ∧ ∀ k : Nat, (q4 n).toNat = k ↔ k ≤ 15 ∧ 17 * k ≤ n.toNat + 8 ∧ n.toNat ≤ 17 * k + 8)
  ∧ q4 0x00#8 = 0x0#4 ∧ q4 0xFF#8 = 0xF#4 ∧ q4 0xF0#8 = 0xE#4 ∧ q4 128#8 = 8#4
  ∧ (∀ r g b : Byte, (palWord r g b).toNat = (q4 r).toNat <<< 8 ||| (q4 g).toNat <<< 4 ||| (q4 b).toNat
    ∧ (palWord r g b).extractLsb' 12 4 = 0#4)
  ∧ palWord 255 0 128 = 0x0F08#16

/-- spec/42_rle.md R205: the header step writes byte HDR_I of MAGIC, advances, and after the fourth byte goes on as R211 says. -/
def Obligations.HeaderStepEmitsAMagicByte : Prop :=
  ∀ s : State, s.phase = .rleHdr → s.abortReq = false →
    (s.outCount = s.latched.dstCap → engineTurn s = .next
      { s with phase := .idle, abortReq := false, err := true, errCode := .edstovf, errInfo := s.outCount })
    ∧ (s.outCount ≠ s.latched.dstCap → s.dstAddr < s.memSize →
      ∃ t, engineTurn s = .next t
        ∧ t.mem.read s.dstAddr = some (s.latched.magic.extractLsb' (8 * s.hdrI) 8)
        ∧ (∀ a, a ≠ s.dstAddr → t.mem.read a = s.mem.read a)
        ∧ { t with mem := s.mem } =
            { s with
              outCount := s.outCount + 1, hdrI := s.hdrI + 1
              phase :=
                if s.hdrI + 1 = 4 then
                  if s.latched.palEn = true ∧ 0 < s.latched.palCount.toNat then .rlePal else .rleRun
                else .rleHdr })

/-- spec/42_rle.md section 3 (R208), spec/60_exceptions.md section 2 (R255): a palette step reads R, G, B and writes the palette
word low byte first; every other byte of memory is unchanged. With no room for the first byte EDSTOVF is raised and memory is
unchanged; with room for the first only, it stays written and counted. -/
def Obligations.PaletteStepEmitsAPaletteWord : Prop :=
  ∀ (s : State) (r g b : Byte), s.phase = .rlePal → s.abortReq = false →
    s.latched.palBase.toNat + 3 * s.palI.toNat + 2 < s.memSize →
    s.mem.read (s.latched.palBase.toNat + 3 * s.palI.toNat) = some r →
    s.mem.read (s.latched.palBase.toNat + 3 * s.palI.toNat + 1) = some g →
    s.mem.read (s.latched.palBase.toNat + 3 * s.palI.toNat + 2) = some b →
    (s.outCount.toNat + 2 ≤ s.latched.dstCap.toNat → s.dstAddr + 1 < s.memSize →
      ∃ t, engineTurn s = .next t
        ∧ t.mem.read s.dstAddr = some ((palWord r g b).extractLsb' 0 8)
        ∧ t.mem.read (s.dstAddr + 1) = some ((palWord r g b).extractLsb' 8 8)
        ∧ (∀ a, a ≠ s.dstAddr → a ≠ s.dstAddr + 1 → t.mem.read a = s.mem.read a)
        ∧ { t with mem := s.mem } =
            { s with
              outCount := s.outCount + 2, palI := s.palI + 1
              phase := if s.palI + 1 = s.latched.palCount then .rleRun else .rlePal })
    ∧ (s.outCount = s.latched.dstCap → engineTurn s = .next
        { s with phase := .idle, abortReq := false, err := true, errCode := .edstovf, errInfo := s.latched.dstCap })
    ∧ (s.outCount.toNat + 1 = s.latched.dstCap.toNat → s.dstAddr < s.memSize →
      ∃ t, engineTurn s = .next t
        ∧ t.mem.read s.dstAddr = some ((palWord r g b).extractLsb' 0 8)
        ∧ (∀ a, a ≠ s.dstAddr → t.mem.read a = s.mem.read a)
        ∧ { t with mem := s.mem } =
            { s with
              outCount := s.latched.dstCap, phase := .idle, abortReq := false, err := true, errCode := .edstovf
              errInfo := s.latched.dstCap })

/-- spec/42_rle.md section 4 (R209), spec/60_exceptions.md section 2 (R255): a run step with a source byte opens a run, extends
it, or emits it and seeds the next. Where the token does not fit, EDSTOVF is raised with the source byte counted, the run kept
as it was, and the first byte of a long token written if that one fits. -/
def Obligations.RunStepTakesOneByte : Prop :=
  ∀ (s : State) (b : Byte), s.phase = .rleRun → s.abortReq = false → s.inCount ≠ s.latched.srcLen →
    s.latched.srcBase.toNat + s.inCount.toNat < s.memSize →
    s.mem.read (s.latched.srcBase.toNat + s.inCount.toNat) = some b →
    (s.runActive = false → engineTurn s = .next
      { s with inCount := s.inCount + 1, runColor := b.extractLsb' 0 4, runRep := 0, runActive := true })
    ∧ (s.runActive = true → b.extractLsb' 0 4 = s.runColor → s.runRep.toNat < 255 → engineTurn s = .next
        { s with inCount := s.inCount + 1, runRep := s.runRep + 1 })
    ∧ (s.runActive = true → (b.extractLsb' 0 4 ≠ s.runColor ∨ s.runRep.toNat = 255) →
        s.outCount.toNat + (tokenBytes s.runColor s.runRep).length ≤ s.latched.dstCap.toNat →
        s.dstAddr + (tokenBytes s.runColor s.runRep).length ≤ s.memSize →
        ∃ t, engineTurn s = .next t
          ∧ holds t.mem s.dstAddr (tokenBytes s.runColor s.runRep)
          ∧ (∀ a, ¬(s.dstAddr ≤ a ∧ a < s.dstAddr + (tokenBytes s.runColor s.runRep).length) →
              t.mem.read a = s.mem.read a)
          ∧ { t with mem := s.mem } =
              { s with
                inCount := s.inCount + 1, runColor := b.extractLsb' 0 4, runRep := 0
                outCount := s.outCount + BitVec.ofNat 32 (tokenBytes s.runColor s.runRep).length })
    ∧ (s.runActive = true → (b.extractLsb' 0 4 ≠ s.runColor ∨ s.runRep.toNat = 255) →
        (s.outCount = s.latched.dstCap → engineTurn s = .next
          { s with
            inCount := s.inCount + 1, phase := .idle, abortReq := false, err := true, errCode := .edstovf
            errInfo := s.latched.dstCap })
        ∧ (15 ≤ s.runRep.toNat → s.outCount.toNat + 1 = s.latched.dstCap.toNat → s.dstAddr < s.memSize →
          ∃ t, engineTurn s = .next t
            ∧ t.mem.read s.dstAddr = some (s.runColor.setWidth 8 ||| 0xF0#8)
            ∧ (∀ a, a ≠ s.dstAddr → t.mem.read a = s.mem.read a)
            ∧ { t with mem := s.mem } =
                { s with
                  inCount := s.inCount + 1, outCount := s.latched.dstCap, phase := .idle, abortReq := false
                  err := true, errCode := .edstovf, errInfo := s.latched.dstCap }))

/-- spec/42_rle.md section 4 (R210), spec/60_exceptions.md section 2 (R255): the flush step emits the open run, if any, and
completes. Where the token does not fit, EDSTOVF is raised, with the first byte of a long token written if that one fits. -/
def Obligations.FlushStepEmitsTheLastRun : Prop :=
  ∀ s : State, s.phase = .rleRun → s.abortReq = false → s.inCount = s.latched.srcLen →
    (s.runActive = false → engineTurn s = .next
      { s with phase := .idle, abortReq := false, done := true, errCode := .none })
    ∧ (s.runActive = true →
        s.outCount.toNat + (tokenBytes s.runColor s.runRep).length ≤ s.latched.dstCap.toNat →
        s.dstAddr + (tokenBytes s.runColor s.runRep).length ≤ s.memSize →
        ∃ t, engineTurn s = .next t
          ∧ holds t.mem s.dstAddr (tokenBytes s.runColor s.runRep)
          ∧ (∀ a, ¬(s.dstAddr ≤ a ∧ a < s.dstAddr + (tokenBytes s.runColor s.runRep).length) →
              t.mem.read a = s.mem.read a)
          ∧ { t with mem := s.mem } =
              { s with
                outCount := s.outCount + BitVec.ofNat 32 (tokenBytes s.runColor s.runRep).length
                runActive := false, phase := .idle, abortReq := false, done := true, errCode := .none })
    ∧ (s.runActive = true →
        (s.outCount = s.latched.dstCap → engineTurn s = .next
          { s with
            phase := .idle, abortReq := false, err := true, errCode := .edstovf
            errInfo := s.latched.dstCap })
        ∧ (15 ≤ s.runRep.toNat → s.outCount.toNat + 1 = s.latched.dstCap.toNat → s.dstAddr < s.memSize →
          ∃ t, engineTurn s = .next t
            ∧ t.mem.read s.dstAddr = some (s.runColor.setWidth 8 ||| 0xF0#8)
            ∧ (∀ a, a ≠ s.dstAddr → t.mem.read a = s.mem.read a)
            ∧ { t with mem := s.mem } =
                { s with
                  outCount := s.latched.dstCap, phase := .idle, abortReq := false
                  err := true, errCode := .edstovf, errInfo := s.latched.dstCap }))

/-- spec/42_rle.md section 5 (R212, R213; spec/30_encoding.md R103): RLE_ENC from idle, with preflight passing, its source and
palette written and room for its output, ends with DONE after the spec's number of steps; DST holds header, palette and
tokens, and no other byte of memory changes. -/
def Obligations.RleEncWritesHeaderPaletteTokens : Prop :=
  ∀ (s : State) (bytes triples : List Byte), s.phase = .idle →
    preflightError s.memSize .rleEnc s.regs = none → reads s.mem .rleEnc s.regs bytes →
    triples.length = 3 * s.regs.palLen → holds s.mem s.regs.palBase.toNat triples →
    (headerBytes s.regs ++ paletteBytes triples ++ rleTokens (bytes.map colorOf)).length ≤ s.regs.dstCap.toNat →
    ∃ t u, exec .rleEnc s = .next t
      ∧ engineRun (2 + s.regs.hdrLen + s.regs.palLen + bytes.length) t = .next u
      ∧ holds u.mem s.regs.dstBase.toNat (headerBytes s.regs ++ paletteBytes triples ++ rleTokens (bytes.map colorOf))
      ∧ (∀ a, ¬(s.regs.dstBase.toNat ≤ a ∧ a < s.regs.dstBase.toNat
            + (headerBytes s.regs ++ paletteBytes triples ++ rleTokens (bytes.map colorOf)).length) →
          u.mem.read a = s.mem.read a)
      ∧ u.phase = .idle ∧ u.done = true ∧ u.err = false ∧ u.errCode = .none ∧ u.errInfo = 0 ∧ u.rej = s.rej
      ∧ u.padded = false ∧ u.inCount = s.regs.srcLen
      ∧ u.outCount.toNat
          = (headerBytes s.regs ++ paletteBytes triples ++ rleTokens (bytes.map colorOf)).length
      ∧ u.idxCount = 0 ∧ u.tileCount = 0 ∧ u.regs = s.regs

/-- spec/42_rle.md section 6 (R215): the token stream of a colour sequence decodes to it, and is no longer than it (R214). -/
def Obligations.TokenStreamDecodes : Prop :=
  ∀ colors : List Nibble, decodeTokens (rleTokens colors) = colors ∧ (rleTokens colors).length ≤ colors.length

/-- spec/42_rle.md section 6 (R214): a DST window of 4·HDR_EN + 2·PAL_EN·PAL_COUNT + SRC_LEN bytes is never overflowed. -/
def Obligations.AmpleRleWindowNeverOverflows : Prop :=
  ∀ s t : State, s.busy = true → s.CommandOk → s.lop = .rleEnc → s.errCode = .none →
    s.latched.hdrLen + 2 * s.latched.palLen + s.latched.srcLen.toNat ≤ s.latched.dstCap.toNat →
    engineTurn s = .next t → t.errCode ≠ .edstovf

/-! ## Registers, STATUS, IRQ, buffer memory -/

/-- spec/40_command.md R111: host register writes. -/
def Obligations.RegisterWritesStore : Prop :=
  ∀ (v : Word) (s : State),
    hostWrite 0x04#8 v s = .next { s with regs := { s.regs with ctrl := v &&& 0x003F07FF#32 } }
    ∧ hostWrite 0x10#8 v s = .next { s with regs := { s.regs with srcBase := v } }
    ∧ hostWrite 0x14#8 v s = .next { s with regs := { s.regs with srcLen := v } }
    ∧ hostWrite 0x18#8 v s = .next { s with regs := { s.regs with dstBase := v } }
    ∧ hostWrite 0x1C#8 v s = .next { s with regs := { s.regs with dstCap := v } }
    ∧ hostWrite 0x20#8 v s = .next { s with regs := { s.regs with idxBase := v } }
    ∧ hostWrite 0x24#8 v s = .next { s with regs := { s.regs with idxCap := v } }
    ∧ hostWrite 0x28#8 v s = .next { s with regs := { s.regs with palBase := v } }
    ∧ hostWrite 0x2C#8 v s = .next { s with regs := { s.regs with palCount := v } }
    ∧ hostWrite 0x30#8 v s = .next { s with regs := { s.regs with magic := v } }
    ∧ hostWrite 0x0C#8 v s = .next (s.writeStatus v)
    ∧ hostWrite 0x08#8 v s = issue v s
    ∧ ∀ off : BitVec 8, off.toNat % 4 = 0 → (off = 0x00#8 ∨ 0x34 ≤ off.toNat) → hostWrite off v s = .next s

/-- spec/40_command.md R112: a STATUS write clears DONE, ERR, REJ where its bits 1, 2, 3 are 1, and nothing else. -/
def Obligations.StatusWriteClearsByOnes : Prop :=
  ∀ (v : Word) (s : State), hostWrite 0x0C#8 v s = .next
    { s with
      done := if v.getLsbD 1 = true then false else s.done
      err := if v.getLsbD 2 = true then false else s.err
      rej := if v.getLsbD 3 = true then false else s.rej }

/-- spec/10_state.md section 2 (R27), spec/60_exceptions.md section 1 (R251): the fields of the STATUS word and the nine error
codes. -/
def Obligations.StatusWordFields : Prop :=
  ∀ s : State,
    s.statusWord.getLsbD 0 = decide (s.phase ≠ .idle) ∧ s.statusWord.getLsbD 1 = s.done
    ∧ s.statusWord.getLsbD 2 = s.err ∧ s.statusWord.getLsbD 3 = s.rej
    ∧ (s.statusWord.extractLsb' 4 4 = match s.errCode with
        | .none => 0#4
        | .ecmd => 1#4
        | .ewindow => 2#4
        | .elen => 3#4
        | .egeom => 4#4
        | .etrunc => 5#4
        | .edstovf => 6#4
        | .eidxovf => 7#4
        | .eabort => 8#4)
    ∧ s.statusWord.getLsbD 8 = s.padded ∧ s.statusWord.extractLsb' 9 23 = 0#23

/-- spec/40_command.md section 1 (R110): host register reads. A read changes no register, no engine state and no memory; the
reply is the register's value, but for a counter while BUSY = 1, which reads a free value (spec/10_state.md R43). A STATUS read
with BUSY = 0 settles the outputs of the commands before it, the model's own field `unseen` (notes/assumptions/6.md). -/
def Obligations.RegisterReadsGiveTheValue : Prop :=
  ∀ (off : BitVec 8) (s : State), off.toNat % 4 = 0 →
    ∃ t v, hostRead off s = .next t ∧ t.replies = .word off v :: s.replies
      ∧ { t with replies := s.replies, draws := s.draws, unseen := s.unseen } = s
      ∧ (off = 0x00#8 → v = 0x00000001#32) ∧ (off = 0x04#8 → v = s.regs.ctrl) ∧ (off = 0x08#8 → v = 0)
      ∧ (off = 0x0C#8 → v = s.statusWord) ∧ (off = 0x10#8 → v = s.regs.srcBase) ∧ (off = 0x14#8 → v = s.regs.srcLen)
      ∧ (off = 0x18#8 → v = s.regs.dstBase) ∧ (off = 0x1C#8 → v = s.regs.dstCap)
      ∧ (off = 0x20#8 → v = s.regs.idxBase) ∧ (off = 0x24#8 → v = s.regs.idxCap)
      ∧ (off = 0x28#8 → v = s.regs.palBase) ∧ (off = 0x2C#8 → v = s.regs.palCount) ∧ (off = 0x30#8 → v = s.regs.magic)
      ∧ (off = 0x44#8 → v = s.errInfo) ∧ (0x48 ≤ off.toNat → v = 0)
      ∧ (s.busy = false →
          (off = 0x34#8 → v = s.inCount) ∧ (off = 0x38#8 → v = s.outCount) ∧ (off = 0x3C#8 → v = s.idxCount)
          ∧ (off = 0x40#8 → v = s.tileCount))
      ∧ (s.busy = true → off ∈ [0x34#8, 0x38#8, 0x3C#8, 0x40#8] →
          v = Config.drawWord s.draws ∧ t.draws = s.draws + 1)
      ∧ t.unseen = (if off = 0x0C#8 ∧ s.busy = false then [] else s.unseen)

/-- spec/20_memory.md section 3 (R64, R65): a host load gives the byte, but for an unwritten byte or one in an output window of
the running command, which read a free value. At or beyond MEM_SIZE the block neither sees nor answers it. -/
def Obligations.HostLoadsReadWrittenBytes : Prop :=
  ∀ (a : Word) (s : State),
    (s.memSize ≤ a.toNat → hostLoad a s = .next s)
    ∧ (a.toNat < s.memSize →
        (s.mem.read a.toNat = none ∨ (s.busy = true ∧ ∃ w ∈ outputWindows s.lop s.latched, w.contains a.toNat = true)) →
        hostLoad a s = .next
          { s with replies := .byte a (Config.drawByte s.draws) :: s.replies, draws := s.draws + 1 })
    ∧ (a.toNat < s.memSize → ∀ b, s.mem.read a.toNat = some b → (∀ w ∈ s.unseen, w.contains a.toNat = false) →
        (s.busy = true → ∀ w ∈ outputWindows s.lop s.latched, w.contains a.toNat = false) →
        hostLoad a s = .next { s with replies := .byte a b :: s.replies })

/-- spec/20_memory.md section 3 (R65, R66): a host store outside the active windows writes its byte and changes nothing else;
into an active window of the running command it faults the model; at or beyond MEM_SIZE the block does not see it. -/
def Obligations.HostStoresWriteOneByte : Prop :=
  ∀ (a : Word) (v : Byte) (s : State),
    (s.memSize ≤ a.toNat → hostStore a v s = .next s)
    ∧ (a.toNat < s.memSize → (s.busy = true → ∀ w ∈ activeWindows s.lop s.latched, w.contains a.toNat = false) →
      ∃ t, hostStore a v s = .next t ∧ t.mem.read a.toNat = some v
        ∧ (∀ b, b ≠ a.toNat → t.mem.read b = s.mem.read b) ∧ { t with mem := s.mem } = s)
    ∧ (a.toNat < s.memSize → s.busy = true → (∃ w ∈ activeWindows s.lop s.latched, w.contains a.toNat = true) →
      hostStore a v s = .fault (.hostWindowWrite a.toNat))

/-- spec/60_exceptions.md section 3 (R258): what raises and drops IRQ. -/
def Obligations.IrqFollowsCompletion : Prop :=
  ∀ s : State,
    s.completeOk.irq = s.regs.ctrl.getLsbD 10
    ∧ (∀ e info, (s.completeErr e info).irq = s.regs.ctrl.getLsbD 10)
    ∧ (s.writeStatus 0x0000000E#32).irq = false ∧ (∀ op, (s.start op).irq = false) ∧ s.warmReset.irq = false
    ∧ (∀ v, (s.writeReg .ctrl v).irq = (v.getLsbD 10 && (s.done || s.err)))
    ∧ s.reject.irq = s.irq
    ∧ ∀ t off, hostRead off s = .next t → t.irq = s.irq

/-! ## Reset -/

/-- spec/70_reset_and_hazards.md section 1 (R281): every register reads its reset value after power-up, the engine is idle,
every byte is unwritten and IRQ is low; `State.reset` is such a state. MEM_SIZE is from 1 to 2^32 in every state, and each such
size is a power-up state's (spec/00_scope.md R6). The value of `lop` is the model's (notes/assumptions/7.md) and is not
stated. -/
def Obligations.PowerUpState : Prop :=
  (∀ (n : Word) (r : Reg), regValue r (State.powerUp n) = if r = .ident then 0x00000001#32 else 0)
  ∧ (∀ (n : Word) (a : Nat), (State.powerUp n).mem.read a = none)
  ∧ (∀ n : Word, (State.powerUp n).phase = .idle ∧ (State.powerUp n).latched = CfgRegs.zero
      ∧ (State.powerUp n).AtStart ∧ (State.powerUp n).abortReq = false ∧ (State.powerUp n).irq = false)
  ∧ (∀ s : State, 1 ≤ s.memSize ∧ s.memSize ≤ 2 ^ 32)
  ∧ (∀ size : Nat, 1 ≤ size → size ≤ 2 ^ 32 → ∃ n, (State.powerUp n).memSize = size)
  ∧ ∃ n, State.reset = State.powerUp n

/-- spec/70_reset_and_hazards.md section 1 (R281, R282), spec/93_implementation_defined.md section 2 (I13): a warm reset leaves
every register at its reset value; memory is unchanged while idle, when the running command's preflight fails or when it has
nothing to write; otherwise every byte the command could not have written (outside its output windows, or past its longest
output) and every written/unwritten mark is unchanged. That the written bytes it could have written take a free value is the
model's reading of the spec's "unspecified bytes" (notes/assumptions/5.md). -/
def Obligations.WarmResetKeepsMemory : Prop :=
  ∀ s : State,
    (∀ r : Reg, regValue r s.warmReset = if r = .ident then 0x00000001#32 else 0)
    ∧ s.warmReset.phase = .idle ∧ s.warmReset.abortReq = false ∧ s.warmReset.latched = CfgRegs.zero ∧ s.warmReset.AtStart
    ∧ s.warmReset.memSize = s.memSize
    ∧ (s.busy = false → s.warmReset.mem = s.mem)
    ∧ (s.CommandOk → s.phase = .pre → preflightError s.memSize s.lop s.latched ≠ none → s.warmReset.mem = s.mem)
    ∧ (s.CommandOk → maxOutput s.lop s.latched = 0 → s.warmReset.mem = s.mem)
    ∧ (∀ a, s.warmReset.mem.read a = none ↔ s.mem.read a = none)
    ∧ (∀ a, (∀ w ∈ outputWindows s.lop s.latched, w.contains a = false) → s.warmReset.mem.read a = s.mem.read a)
    ∧ ∀ a, s.CommandOk →
        ¬(s.latched.dstBase.toNat ≤ a ∧ a < s.latched.dstBase.toNat + maxOutput s.lop s.latched) →
        ¬(s.lop = .repackTile ∧ s.latched.idxEn = true ∧ s.latched.idxBase.toNat ≤ a
            ∧ a < s.latched.idxBase.toNat + s.latched.srcLen.toNat / s.latched.tileb) →
        s.warmReset.mem.read a = s.mem.read a

/-! ## Invariants -/

/-- The three invariants hold right after power-up, whatever MEM_SIZE is, and at `State.reset`. -/
def Obligations.PowerUpMeetsTheInvariants : Prop :=
  (∀ n : Word, (State.powerUp n).MemoryOk ∧ (State.powerUp n).StatusOk ∧ (State.powerUp n).CommandOk)
  ∧ State.reset.MemoryOk ∧ State.reset.StatusOk ∧ State.reset.CommandOk

/-- spec/10_state.md R50, spec/20_memory.md R60: every step, whoever moves, keeps buffer memory canonical and inside MEM_SIZE. -/
def Obligations.StepKeepsMemoryOk : Prop := ∀ s t : State, s.MemoryOk → step s = .next t → t.MemoryOk ∧ t.memSize = s.memSize

/-- spec/10_state.md R25, R27, R44, R47, spec/60_exceptions.md R252: every step keeps the status flags consistent. -/
def Obligations.StepKeepsStatusOk : Prop := ∀ s t : State, s.StatusOk → step s = .next t → t.StatusOk

/-- spec/41_repack.md R155, R156, R161, R162, R164, spec/42_rle.md R209, R214: every step keeps what a running command
satisfies in its phase. -/
def Obligations.StepKeepsCommandOk : Prop := ∀ s t : State, s.CommandOk → step s = .next t → t.CommandOk

/-! ## Whole-machine rules -/

/-- spec/40_command.md section 5 (R128): every engine step of a command ends it or leaves exactly one step less, and a command
completes without error only when no step is left. -/
def Obligations.EngineStepsCountDown : Prop :=
  ∀ s t : State, s.busy = true → s.CommandOk → s.done = false → engineTurn s = .next t →
    (t.busy = true → t.stepsLeft + 1 = s.stepsLeft) ∧ (t.done = true → s.stepsLeft = 1)

/-- spec/40_command.md section 3 (R118): a command completes after finitely many engine steps, at most those of R128. -/
def Obligations.EveryCommandEnds : Prop :=
  ∀ s t : State, s.CommandOk → engineRun s.stepsLeft s = .next t → t.phase = .idle

/-- spec/20_memory.md section 2 (R62, R84), spec/70_reset_and_hazards.md section 1 (R284): an engine step stops the model only
at an unwritten byte of a window the command reads; where those windows are written it always has a next state, and they stay
written. -/
def Obligations.EngineFaultsOnlyOnUnwrittenSources : Prop :=
  (∀ (s : State) (r : Fault), s.CommandOk → engineTurn s = .fault r →
    ∃ a, r = .unwrittenRead a ∧ s.mem.read a = none ∧
      ∃ w ∈ activeWindows s.lop s.latched, w.id.written = false ∧ w.contains a = true)
  ∧ ∀ s : State, s.busy = true → s.CommandOk → s.SourcesWritten →
    ∃ t, engineTurn s = .next t ∧ (t.busy = true → t.SourcesWritten)

/-- spec/20_memory.md R63, spec/40_command.md R127: the engine changes no byte outside the DST and IDX windows. -/
def Obligations.EngineWritesOnlyItsOutputWindows : Prop :=
  ∀ (s t : State) (a : Nat), s.CommandOk → engineTurn s = .next t →
    (∀ w ∈ outputWindows s.lop s.latched, w.contains a = false) → t.mem.read a = s.mem.read a

/-- spec/60_exceptions.md section 1 (R253): which running command raises which error; ETRUNC is never raised. -/
def Obligations.EngineErrorsFollowTheTable : Prop :=
  ∀ s t : State, s.busy = true → s.CommandOk → s.err = false → engineTurn s = .next t → t.err = true →
    match s.lop with
    | .repackLin => t.errCode ∈ [ErrCode.ewindow, ErrCode.elen, ErrCode.edstovf, ErrCode.eabort]
    | .repackTile =>
      t.errCode ∈ [ErrCode.ewindow, ErrCode.egeom, ErrCode.edstovf, ErrCode.eabort]
        ∨ (t.errCode = .eidxovf ∧ s.latched.idxEn = true)
    | .rleEnc => t.errCode ∈ [ErrCode.ewindow, ErrCode.edstovf, ErrCode.eabort]

/-- spec/10_state.md R45, spec/20_memory.md R82: while a command runs, no step of either agent changes its latched
configuration. -/
def Obligations.LatchedConfigurationIsFixed : Prop :=
  ∀ s t : State, step s = .next t → s.busy = true → t.busy = true → t.latched = s.latched ∧ t.lop = s.lop

/-- spec/20_memory.md R82, spec/70_reset_and_hazards.md R287: an engine step does the same whether a host register write comes
before or after it, but for CMD and STATUS. -/
def Obligations.EngineIgnoresRegisterWrites : Prop :=
  ∀ (s : State) (r : Reg) (v : Word), r ≠ .cmd → r ≠ .status →
    engineTurn (s.writeReg r v) = mapNext (fun t => t.writeReg r v) (engineTurn s)

/-- spec/70_reset_and_hazards.md R286: a host store outside the active windows has no effect on the running command. -/
def Obligations.EngineIgnoresStoresElsewhere : Prop :=
  ∀ (s : State) (a : Nat) (v : Byte), s.busy = true → s.MemoryOk → s.CommandOk →
    (∀ w ∈ activeWindows s.lop s.latched, w.contains a = false) →
    engineTurn (s.store a v) = mapNext (fun t => t.store a v) (engineTurn s)

/-- spec/60_exceptions.md R265, spec/70_reset_and_hazards.md R283: an idle block becomes busy only by a CMD write of one of the
three starting commands. -/
def Obligations.OnlyAStartMakesTheBlockBusy : Prop :=
  ∀ s t : State, s.busy = false → step s = .next t → t.busy = true →
    ∃ i rest, s.agenda = cmdWrite (encode i) :: rest ∧ i ∈ [Instr.repackLin, Instr.repackTile, Instr.rleEnc]
end

