-- ==== Sys2Proof/Laws/State.lean ====
section
/-! SUPPORT. The fields of every named update of State: one lemma per field per update, true by rfl. -/

namespace Sys2Proof.Machine

variable (s : State)

@[simp] theorem State.writeStatus_regs (v : Word) : (s.writeStatus v).regs = s.regs := rfl
@[simp] theorem State.writeStatus_done (v : Word) : (s.writeStatus v).done = (s.done && !v.getLsbD 1) := rfl
@[simp] theorem State.writeStatus_err (v : Word) : (s.writeStatus v).err = (s.err && !v.getLsbD 2) := rfl
@[simp] theorem State.writeStatus_rej (v : Word) : (s.writeStatus v).rej = (s.rej && !v.getLsbD 3) := rfl
@[simp] theorem State.writeStatus_errCode (v : Word) : (s.writeStatus v).errCode = s.errCode := rfl
@[simp] theorem State.writeStatus_padded (v : Word) : (s.writeStatus v).padded = s.padded := rfl
@[simp] theorem State.writeStatus_inCount (v : Word) : (s.writeStatus v).inCount = s.inCount := rfl
@[simp] theorem State.writeStatus_outCount (v : Word) : (s.writeStatus v).outCount = s.outCount := rfl
@[simp] theorem State.writeStatus_idxCount (v : Word) : (s.writeStatus v).idxCount = s.idxCount := rfl
@[simp] theorem State.writeStatus_tileCount (v : Word) : (s.writeStatus v).tileCount = s.tileCount := rfl
@[simp] theorem State.writeStatus_errInfo (v : Word) : (s.writeStatus v).errInfo = s.errInfo := rfl
@[simp] theorem State.writeStatus_latched (v : Word) : (s.writeStatus v).latched = s.latched := rfl
@[simp] theorem State.writeStatus_phase (v : Word) : (s.writeStatus v).phase = s.phase := rfl
@[simp] theorem State.writeStatus_lop (v : Word) : (s.writeStatus v).lop = s.lop := rfl
@[simp] theorem State.writeStatus_abortReq (v : Word) : (s.writeStatus v).abortReq = s.abortReq := rfl
@[simp] theorem State.writeStatus_inSr (v : Word) : (s.writeStatus v).inSr = s.inSr := rfl
@[simp] theorem State.writeStatus_inLeft (v : Word) : (s.writeStatus v).inLeft = s.inLeft := rfl
@[simp] theorem State.writeStatus_acc (v : Word) : (s.writeStatus v).acc = s.acc := rfl
@[simp] theorem State.writeStatus_accN (v : Word) : (s.writeStatus v).accN = s.accN := rfl
@[simp] theorem State.writeStatus_hdrI (v : Word) : (s.writeStatus v).hdrI = s.hdrI := rfl
@[simp] theorem State.writeStatus_palI (v : Word) : (s.writeStatus v).palI = s.palI := rfl
@[simp] theorem State.writeStatus_runActive (v : Word) : (s.writeStatus v).runActive = s.runActive := rfl
@[simp] theorem State.writeStatus_runColor (v : Word) : (s.writeStatus v).runColor = s.runColor := rfl
@[simp] theorem State.writeStatus_runRep (v : Word) : (s.writeStatus v).runRep = s.runRep := rfl
@[simp] theorem State.writeStatus_mem (v : Word) : (s.writeStatus v).mem = s.mem := rfl
@[simp] theorem State.writeStatus_memTop (v : Word) : (s.writeStatus v).memTop = s.memTop := rfl
@[simp] theorem State.writeStatus_memSize (v : Word) : (s.writeStatus v).memSize = s.memSize := rfl
@[simp] theorem State.writeStatus_unseen (v : Word) : (s.writeStatus v).unseen = s.unseen := rfl
@[simp] theorem State.writeStatus_draws (v : Word) : (s.writeStatus v).draws = s.draws := rfl
@[simp] theorem State.writeStatus_replies (v : Word) : (s.writeStatus v).replies = s.replies := rfl
@[simp] theorem State.writeStatus_agenda (v : Word) : (s.writeStatus v).agenda = s.agenda := rfl

@[simp] theorem State.reject_regs : s.reject.regs = s.regs := rfl
@[simp] theorem State.reject_done : s.reject.done = s.done := rfl
@[simp] theorem State.reject_err : s.reject.err = s.err := rfl
@[simp] theorem State.reject_rej : s.reject.rej = true := rfl
@[simp] theorem State.reject_errCode : s.reject.errCode = s.errCode := rfl
@[simp] theorem State.reject_padded : s.reject.padded = s.padded := rfl
@[simp] theorem State.reject_inCount : s.reject.inCount = s.inCount := rfl
@[simp] theorem State.reject_outCount : s.reject.outCount = s.outCount := rfl
@[simp] theorem State.reject_idxCount : s.reject.idxCount = s.idxCount := rfl
@[simp] theorem State.reject_tileCount : s.reject.tileCount = s.tileCount := rfl
@[simp] theorem State.reject_errInfo : s.reject.errInfo = s.errInfo := rfl
@[simp] theorem State.reject_latched : s.reject.latched = s.latched := rfl
@[simp] theorem State.reject_phase : s.reject.phase = s.phase := rfl
@[simp] theorem State.reject_lop : s.reject.lop = s.lop := rfl
@[simp] theorem State.reject_abortReq : s.reject.abortReq = s.abortReq := rfl
@[simp] theorem State.reject_inSr : s.reject.inSr = s.inSr := rfl
@[simp] theorem State.reject_inLeft : s.reject.inLeft = s.inLeft := rfl
@[simp] theorem State.reject_acc : s.reject.acc = s.acc := rfl
@[simp] theorem State.reject_accN : s.reject.accN = s.accN := rfl
@[simp] theorem State.reject_hdrI : s.reject.hdrI = s.hdrI := rfl
@[simp] theorem State.reject_palI : s.reject.palI = s.palI := rfl
@[simp] theorem State.reject_runActive : s.reject.runActive = s.runActive := rfl
@[simp] theorem State.reject_runColor : s.reject.runColor = s.runColor := rfl
@[simp] theorem State.reject_runRep : s.reject.runRep = s.runRep := rfl
@[simp] theorem State.reject_mem : s.reject.mem = s.mem := rfl
@[simp] theorem State.reject_memTop : s.reject.memTop = s.memTop := rfl
@[simp] theorem State.reject_memSize : s.reject.memSize = s.memSize := rfl
@[simp] theorem State.reject_unseen : s.reject.unseen = s.unseen := rfl
@[simp] theorem State.reject_draws : s.reject.draws = s.draws := rfl
@[simp] theorem State.reject_replies : s.reject.replies = s.replies := rfl
@[simp] theorem State.reject_agenda : s.reject.agenda = s.agenda := rfl

@[simp] theorem State.setPadded_regs : s.setPadded.regs = s.regs := rfl
@[simp] theorem State.setPadded_done : s.setPadded.done = s.done := rfl
@[simp] theorem State.setPadded_err : s.setPadded.err = s.err := rfl
@[simp] theorem State.setPadded_rej : s.setPadded.rej = s.rej := rfl
@[simp] theorem State.setPadded_errCode : s.setPadded.errCode = s.errCode := rfl
@[simp] theorem State.setPadded_padded : s.setPadded.padded = true := rfl
@[simp] theorem State.setPadded_inCount : s.setPadded.inCount = s.inCount := rfl
@[simp] theorem State.setPadded_outCount : s.setPadded.outCount = s.outCount := rfl
@[simp] theorem State.setPadded_idxCount : s.setPadded.idxCount = s.idxCount := rfl
@[simp] theorem State.setPadded_tileCount : s.setPadded.tileCount = s.tileCount := rfl
@[simp] theorem State.setPadded_errInfo : s.setPadded.errInfo = s.errInfo := rfl
@[simp] theorem State.setPadded_latched : s.setPadded.latched = s.latched := rfl
@[simp] theorem State.setPadded_phase : s.setPadded.phase = s.phase := rfl
@[simp] theorem State.setPadded_lop : s.setPadded.lop = s.lop := rfl
@[simp] theorem State.setPadded_abortReq : s.setPadded.abortReq = s.abortReq := rfl
@[simp] theorem State.setPadded_inSr : s.setPadded.inSr = s.inSr := rfl
@[simp] theorem State.setPadded_inLeft : s.setPadded.inLeft = s.inLeft := rfl
@[simp] theorem State.setPadded_acc : s.setPadded.acc = s.acc := rfl
@[simp] theorem State.setPadded_accN : s.setPadded.accN = s.accN := rfl
@[simp] theorem State.setPadded_hdrI : s.setPadded.hdrI = s.hdrI := rfl
@[simp] theorem State.setPadded_palI : s.setPadded.palI = s.palI := rfl
@[simp] theorem State.setPadded_runActive : s.setPadded.runActive = s.runActive := rfl
@[simp] theorem State.setPadded_runColor : s.setPadded.runColor = s.runColor := rfl
@[simp] theorem State.setPadded_runRep : s.setPadded.runRep = s.runRep := rfl
@[simp] theorem State.setPadded_mem : s.setPadded.mem = s.mem := rfl
@[simp] theorem State.setPadded_memTop : s.setPadded.memTop = s.memTop := rfl
@[simp] theorem State.setPadded_memSize : s.setPadded.memSize = s.memSize := rfl
@[simp] theorem State.setPadded_unseen : s.setPadded.unseen = s.unseen := rfl
@[simp] theorem State.setPadded_draws : s.setPadded.draws = s.draws := rfl
@[simp] theorem State.setPadded_replies : s.setPadded.replies = s.replies := rfl
@[simp] theorem State.setPadded_agenda : s.setPadded.agenda = s.agenda := rfl

@[simp] theorem State.completeOk_regs : s.completeOk.regs = s.regs := rfl
@[simp] theorem State.completeOk_done : s.completeOk.done = true := rfl
@[simp] theorem State.completeOk_err : s.completeOk.err = s.err := rfl
@[simp] theorem State.completeOk_rej : s.completeOk.rej = s.rej := rfl
@[simp] theorem State.completeOk_errCode : s.completeOk.errCode = .none := rfl
@[simp] theorem State.completeOk_padded : s.completeOk.padded = s.padded := rfl
@[simp] theorem State.completeOk_inCount : s.completeOk.inCount = s.inCount := rfl
@[simp] theorem State.completeOk_outCount : s.completeOk.outCount = s.outCount := rfl
@[simp] theorem State.completeOk_idxCount : s.completeOk.idxCount = s.idxCount := rfl
@[simp] theorem State.completeOk_tileCount : s.completeOk.tileCount = s.tileCount := rfl
@[simp] theorem State.completeOk_errInfo : s.completeOk.errInfo = s.errInfo := rfl
@[simp] theorem State.completeOk_latched : s.completeOk.latched = s.latched := rfl
@[simp] theorem State.completeOk_phase : s.completeOk.phase = .idle := rfl
@[simp] theorem State.completeOk_lop : s.completeOk.lop = s.lop := rfl
@[simp] theorem State.completeOk_abortReq : s.completeOk.abortReq = false := rfl
@[simp] theorem State.completeOk_inSr : s.completeOk.inSr = s.inSr := rfl
@[simp] theorem State.completeOk_inLeft : s.completeOk.inLeft = s.inLeft := rfl
@[simp] theorem State.completeOk_acc : s.completeOk.acc = s.acc := rfl
@[simp] theorem State.completeOk_accN : s.completeOk.accN = s.accN := rfl
@[simp] theorem State.completeOk_hdrI : s.completeOk.hdrI = s.hdrI := rfl
@[simp] theorem State.completeOk_palI : s.completeOk.palI = s.palI := rfl
@[simp] theorem State.completeOk_runActive : s.completeOk.runActive = s.runActive := rfl
@[simp] theorem State.completeOk_runColor : s.completeOk.runColor = s.runColor := rfl
@[simp] theorem State.completeOk_runRep : s.completeOk.runRep = s.runRep := rfl
@[simp] theorem State.completeOk_mem : s.completeOk.mem = s.mem := rfl
@[simp] theorem State.completeOk_memTop : s.completeOk.memTop = s.memTop := rfl
@[simp] theorem State.completeOk_memSize : s.completeOk.memSize = s.memSize := rfl
@[simp] theorem State.completeOk_unseen : s.completeOk.unseen = s.unseen := rfl
@[simp] theorem State.completeOk_draws : s.completeOk.draws = s.draws := rfl
@[simp] theorem State.completeOk_replies : s.completeOk.replies = s.replies := rfl
@[simp] theorem State.completeOk_agenda : s.completeOk.agenda = s.agenda := rfl

@[simp] theorem State.completeErr_regs (e : ErrCode) (i : Word) : (s.completeErr e i).regs = s.regs := rfl
@[simp] theorem State.completeErr_done (e : ErrCode) (i : Word) : (s.completeErr e i).done = s.done := rfl
@[simp] theorem State.completeErr_err (e : ErrCode) (i : Word) : (s.completeErr e i).err = true := rfl
@[simp] theorem State.completeErr_rej (e : ErrCode) (i : Word) : (s.completeErr e i).rej = s.rej := rfl
@[simp] theorem State.completeErr_errCode (e : ErrCode) (i : Word) : (s.completeErr e i).errCode = e := rfl
@[simp] theorem State.completeErr_padded (e : ErrCode) (i : Word) : (s.completeErr e i).padded = s.padded := rfl
@[simp] theorem State.completeErr_inCount (e : ErrCode) (i : Word) : (s.completeErr e i).inCount = s.inCount := rfl
@[simp] theorem State.completeErr_outCount (e : ErrCode) (i : Word) : (s.completeErr e i).outCount = s.outCount := rfl
@[simp] theorem State.completeErr_idxCount (e : ErrCode) (i : Word) : (s.completeErr e i).idxCount = s.idxCount := rfl
@[simp] theorem State.completeErr_tileCount (e : ErrCode) (i : Word) : (s.completeErr e i).tileCount = s.tileCount := rfl
@[simp] theorem State.completeErr_errInfo (e : ErrCode) (i : Word) : (s.completeErr e i).errInfo = i := rfl
@[simp] theorem State.completeErr_latched (e : ErrCode) (i : Word) : (s.completeErr e i).latched = s.latched := rfl
@[simp] theorem State.completeErr_phase (e : ErrCode) (i : Word) : (s.completeErr e i).phase = .idle := rfl
@[simp] theorem State.completeErr_lop (e : ErrCode) (i : Word) : (s.completeErr e i).lop = s.lop := rfl
@[simp] theorem State.completeErr_abortReq (e : ErrCode) (i : Word) : (s.completeErr e i).abortReq = false := rfl
@[simp] theorem State.completeErr_inSr (e : ErrCode) (i : Word) : (s.completeErr e i).inSr = s.inSr := rfl
@[simp] theorem State.completeErr_inLeft (e : ErrCode) (i : Word) : (s.completeErr e i).inLeft = s.inLeft := rfl
@[simp] theorem State.completeErr_acc (e : ErrCode) (i : Word) : (s.completeErr e i).acc = s.acc := rfl
@[simp] theorem State.completeErr_accN (e : ErrCode) (i : Word) : (s.completeErr e i).accN = s.accN := rfl
@[simp] theorem State.completeErr_hdrI (e : ErrCode) (i : Word) : (s.completeErr e i).hdrI = s.hdrI := rfl
@[simp] theorem State.completeErr_palI (e : ErrCode) (i : Word) : (s.completeErr e i).palI = s.palI := rfl
@[simp] theorem State.completeErr_runActive (e : ErrCode) (i : Word) : (s.completeErr e i).runActive = s.runActive := rfl
@[simp] theorem State.completeErr_runColor (e : ErrCode) (i : Word) : (s.completeErr e i).runColor = s.runColor := rfl
@[simp] theorem State.completeErr_runRep (e : ErrCode) (i : Word) : (s.completeErr e i).runRep = s.runRep := rfl
@[simp] theorem State.completeErr_mem (e : ErrCode) (i : Word) : (s.completeErr e i).mem = s.mem := rfl
@[simp] theorem State.completeErr_memTop (e : ErrCode) (i : Word) : (s.completeErr e i).memTop = s.memTop := rfl
@[simp] theorem State.completeErr_memSize (e : ErrCode) (i : Word) : (s.completeErr e i).memSize = s.memSize := rfl
@[simp] theorem State.completeErr_unseen (e : ErrCode) (i : Word) : (s.completeErr e i).unseen = s.unseen := rfl
@[simp] theorem State.completeErr_draws (e : ErrCode) (i : Word) : (s.completeErr e i).draws = s.draws := rfl
@[simp] theorem State.completeErr_replies (e : ErrCode) (i : Word) : (s.completeErr e i).replies = s.replies := rfl
@[simp] theorem State.completeErr_agenda (e : ErrCode) (i : Word) : (s.completeErr e i).agenda = s.agenda := rfl

@[simp] theorem State.clearForStart_regs : s.clearForStart.regs = s.regs := rfl
@[simp] theorem State.clearForStart_done : s.clearForStart.done = false := rfl
@[simp] theorem State.clearForStart_err : s.clearForStart.err = false := rfl
@[simp] theorem State.clearForStart_rej : s.clearForStart.rej = s.rej := rfl
@[simp] theorem State.clearForStart_errCode : s.clearForStart.errCode = .none := rfl
@[simp] theorem State.clearForStart_padded : s.clearForStart.padded = false := rfl
@[simp] theorem State.clearForStart_inCount : s.clearForStart.inCount = 0 := rfl
@[simp] theorem State.clearForStart_outCount : s.clearForStart.outCount = 0 := rfl
@[simp] theorem State.clearForStart_idxCount : s.clearForStart.idxCount = 0 := rfl
@[simp] theorem State.clearForStart_tileCount : s.clearForStart.tileCount = 0 := rfl
@[simp] theorem State.clearForStart_errInfo : s.clearForStart.errInfo = 0 := rfl
@[simp] theorem State.clearForStart_latched : s.clearForStart.latched = s.latched := rfl
@[simp] theorem State.clearForStart_phase : s.clearForStart.phase = s.phase := rfl
@[simp] theorem State.clearForStart_lop : s.clearForStart.lop = s.lop := rfl
@[simp] theorem State.clearForStart_abortReq : s.clearForStart.abortReq = s.abortReq := rfl
@[simp] theorem State.clearForStart_inSr : s.clearForStart.inSr = s.inSr := rfl
@[simp] theorem State.clearForStart_inLeft : s.clearForStart.inLeft = s.inLeft := rfl
@[simp] theorem State.clearForStart_acc : s.clearForStart.acc = s.acc := rfl
@[simp] theorem State.clearForStart_accN : s.clearForStart.accN = s.accN := rfl
@[simp] theorem State.clearForStart_hdrI : s.clearForStart.hdrI = s.hdrI := rfl
@[simp] theorem State.clearForStart_palI : s.clearForStart.palI = s.palI := rfl
@[simp] theorem State.clearForStart_runActive : s.clearForStart.runActive = s.runActive := rfl
@[simp] theorem State.clearForStart_runColor : s.clearForStart.runColor = s.runColor := rfl
@[simp] theorem State.clearForStart_runRep : s.clearForStart.runRep = s.runRep := rfl
@[simp] theorem State.clearForStart_mem : s.clearForStart.mem = s.mem := rfl
@[simp] theorem State.clearForStart_memTop : s.clearForStart.memTop = s.memTop := rfl
@[simp] theorem State.clearForStart_memSize : s.clearForStart.memSize = s.memSize := rfl
@[simp] theorem State.clearForStart_unseen : s.clearForStart.unseen = s.unseen := rfl
@[simp] theorem State.clearForStart_draws : s.clearForStart.draws = s.draws := rfl
@[simp] theorem State.clearForStart_replies : s.clearForStart.replies = s.replies := rfl
@[simp] theorem State.clearForStart_agenda : s.clearForStart.agenda = s.agenda := rfl

@[simp] theorem State.latchAndEnter_regs (op : Lop) : (s.latchAndEnter op).regs = s.regs := rfl
@[simp] theorem State.latchAndEnter_done (op : Lop) : (s.latchAndEnter op).done = s.done := rfl
@[simp] theorem State.latchAndEnter_err (op : Lop) : (s.latchAndEnter op).err = s.err := rfl
@[simp] theorem State.latchAndEnter_rej (op : Lop) : (s.latchAndEnter op).rej = s.rej := rfl
@[simp] theorem State.latchAndEnter_errCode (op : Lop) : (s.latchAndEnter op).errCode = s.errCode := rfl
@[simp] theorem State.latchAndEnter_padded (op : Lop) : (s.latchAndEnter op).padded = s.padded := rfl
@[simp] theorem State.latchAndEnter_inCount (op : Lop) : (s.latchAndEnter op).inCount = s.inCount := rfl
@[simp] theorem State.latchAndEnter_outCount (op : Lop) : (s.latchAndEnter op).outCount = s.outCount := rfl
@[simp] theorem State.latchAndEnter_idxCount (op : Lop) : (s.latchAndEnter op).idxCount = s.idxCount := rfl
@[simp] theorem State.latchAndEnter_tileCount (op : Lop) : (s.latchAndEnter op).tileCount = s.tileCount := rfl
@[simp] theorem State.latchAndEnter_errInfo (op : Lop) : (s.latchAndEnter op).errInfo = s.errInfo := rfl
@[simp] theorem State.latchAndEnter_latched (op : Lop) : (s.latchAndEnter op).latched = s.regs := rfl
@[simp] theorem State.latchAndEnter_phase (op : Lop) : (s.latchAndEnter op).phase = .pre := rfl
@[simp] theorem State.latchAndEnter_lop (op : Lop) : (s.latchAndEnter op).lop = op := rfl
@[simp] theorem State.latchAndEnter_abortReq (op : Lop) : (s.latchAndEnter op).abortReq = false := rfl
@[simp] theorem State.latchAndEnter_inSr (op : Lop) : (s.latchAndEnter op).inSr = 0 := rfl
@[simp] theorem State.latchAndEnter_inLeft (op : Lop) : (s.latchAndEnter op).inLeft = 0 := rfl
@[simp] theorem State.latchAndEnter_acc (op : Lop) : (s.latchAndEnter op).acc = 0 := rfl
@[simp] theorem State.latchAndEnter_accN (op : Lop) : (s.latchAndEnter op).accN = 0 := rfl
@[simp] theorem State.latchAndEnter_hdrI (op : Lop) : (s.latchAndEnter op).hdrI = 0 := rfl
@[simp] theorem State.latchAndEnter_palI (op : Lop) : (s.latchAndEnter op).palI = 0 := rfl
@[simp] theorem State.latchAndEnter_runActive (op : Lop) : (s.latchAndEnter op).runActive = false := rfl
@[simp] theorem State.latchAndEnter_runColor (op : Lop) : (s.latchAndEnter op).runColor = 0 := rfl
@[simp] theorem State.latchAndEnter_runRep (op : Lop) : (s.latchAndEnter op).runRep = 0 := rfl
@[simp] theorem State.latchAndEnter_mem (op : Lop) : (s.latchAndEnter op).mem = s.mem := rfl
@[simp] theorem State.latchAndEnter_memTop (op : Lop) : (s.latchAndEnter op).memTop = s.memTop := rfl
@[simp] theorem State.latchAndEnter_memSize (op : Lop) : (s.latchAndEnter op).memSize = s.memSize := rfl
@[simp] theorem State.latchAndEnter_unseen (op : Lop) : (s.latchAndEnter op).unseen = outputWindows op s.regs ++ s.unseen := rfl
@[simp] theorem State.latchAndEnter_draws (op : Lop) : (s.latchAndEnter op).draws = s.draws := rfl
@[simp] theorem State.latchAndEnter_replies (op : Lop) : (s.latchAndEnter op).replies = s.replies := rfl
@[simp] theorem State.latchAndEnter_agenda (op : Lop) : (s.latchAndEnter op).agenda = s.agenda := rfl

@[simp] theorem State.store_regs (a : Nat) (v : Byte) : (s.store a v).regs = s.regs := rfl
@[simp] theorem State.store_done (a : Nat) (v : Byte) : (s.store a v).done = s.done := rfl
@[simp] theorem State.store_err (a : Nat) (v : Byte) : (s.store a v).err = s.err := rfl
@[simp] theorem State.store_rej (a : Nat) (v : Byte) : (s.store a v).rej = s.rej := rfl
@[simp] theorem State.store_errCode (a : Nat) (v : Byte) : (s.store a v).errCode = s.errCode := rfl
@[simp] theorem State.store_padded (a : Nat) (v : Byte) : (s.store a v).padded = s.padded := rfl
@[simp] theorem State.store_inCount (a : Nat) (v : Byte) : (s.store a v).inCount = s.inCount := rfl
@[simp] theorem State.store_outCount (a : Nat) (v : Byte) : (s.store a v).outCount = s.outCount := rfl
@[simp] theorem State.store_idxCount (a : Nat) (v : Byte) : (s.store a v).idxCount = s.idxCount := rfl
@[simp] theorem State.store_tileCount (a : Nat) (v : Byte) : (s.store a v).tileCount = s.tileCount := rfl
@[simp] theorem State.store_errInfo (a : Nat) (v : Byte) : (s.store a v).errInfo = s.errInfo := rfl
@[simp] theorem State.store_latched (a : Nat) (v : Byte) : (s.store a v).latched = s.latched := rfl
@[simp] theorem State.store_phase (a : Nat) (v : Byte) : (s.store a v).phase = s.phase := rfl
@[simp] theorem State.store_lop (a : Nat) (v : Byte) : (s.store a v).lop = s.lop := rfl
@[simp] theorem State.store_abortReq (a : Nat) (v : Byte) : (s.store a v).abortReq = s.abortReq := rfl
@[simp] theorem State.store_inSr (a : Nat) (v : Byte) : (s.store a v).inSr = s.inSr := rfl
@[simp] theorem State.store_inLeft (a : Nat) (v : Byte) : (s.store a v).inLeft = s.inLeft := rfl
@[simp] theorem State.store_acc (a : Nat) (v : Byte) : (s.store a v).acc = s.acc := rfl
@[simp] theorem State.store_accN (a : Nat) (v : Byte) : (s.store a v).accN = s.accN := rfl
@[simp] theorem State.store_hdrI (a : Nat) (v : Byte) : (s.store a v).hdrI = s.hdrI := rfl
@[simp] theorem State.store_palI (a : Nat) (v : Byte) : (s.store a v).palI = s.palI := rfl
@[simp] theorem State.store_runActive (a : Nat) (v : Byte) : (s.store a v).runActive = s.runActive := rfl
@[simp] theorem State.store_runColor (a : Nat) (v : Byte) : (s.store a v).runColor = s.runColor := rfl
@[simp] theorem State.store_runRep (a : Nat) (v : Byte) : (s.store a v).runRep = s.runRep := rfl
@[simp] theorem State.store_mem (a : Nat) (v : Byte) : (s.store a v).mem = s.mem.write a v := rfl
@[simp] theorem State.store_memTop (a : Nat) (v : Byte) : (s.store a v).memTop = s.memTop := rfl
@[simp] theorem State.store_memSize (a : Nat) (v : Byte) : (s.store a v).memSize = s.memSize := rfl
@[simp] theorem State.store_unseen (a : Nat) (v : Byte) : (s.store a v).unseen = s.unseen := rfl
@[simp] theorem State.store_draws (a : Nat) (v : Byte) : (s.store a v).draws = s.draws := rfl
@[simp] theorem State.store_replies (a : Nat) (v : Byte) : (s.store a v).replies = s.replies := rfl
@[simp] theorem State.store_agenda (a : Nat) (v : Byte) : (s.store a v).agenda = s.agenda := rfl

@[simp] theorem State.countOut_regs : s.countOut.regs = s.regs := rfl
@[simp] theorem State.countOut_done : s.countOut.done = s.done := rfl
@[simp] theorem State.countOut_err : s.countOut.err = s.err := rfl
@[simp] theorem State.countOut_rej : s.countOut.rej = s.rej := rfl
@[simp] theorem State.countOut_errCode : s.countOut.errCode = s.errCode := rfl
@[simp] theorem State.countOut_padded : s.countOut.padded = s.padded := rfl
@[simp] theorem State.countOut_inCount : s.countOut.inCount = s.inCount := rfl
@[simp] theorem State.countOut_outCount : s.countOut.outCount = s.outCount + 1 := rfl
@[simp] theorem State.countOut_idxCount : s.countOut.idxCount = s.idxCount := rfl
@[simp] theorem State.countOut_tileCount : s.countOut.tileCount = s.tileCount := rfl
@[simp] theorem State.countOut_errInfo : s.countOut.errInfo = s.errInfo := rfl
@[simp] theorem State.countOut_latched : s.countOut.latched = s.latched := rfl
@[simp] theorem State.countOut_phase : s.countOut.phase = s.phase := rfl
@[simp] theorem State.countOut_lop : s.countOut.lop = s.lop := rfl
@[simp] theorem State.countOut_abortReq : s.countOut.abortReq = s.abortReq := rfl
@[simp] theorem State.countOut_inSr : s.countOut.inSr = s.inSr := rfl
@[simp] theorem State.countOut_inLeft : s.countOut.inLeft = s.inLeft := rfl
@[simp] theorem State.countOut_acc : s.countOut.acc = s.acc := rfl
@[simp] theorem State.countOut_accN : s.countOut.accN = s.accN := rfl
@[simp] theorem State.countOut_hdrI : s.countOut.hdrI = s.hdrI := rfl
@[simp] theorem State.countOut_palI : s.countOut.palI = s.palI := rfl
@[simp] theorem State.countOut_runActive : s.countOut.runActive = s.runActive := rfl
@[simp] theorem State.countOut_runColor : s.countOut.runColor = s.runColor := rfl
@[simp] theorem State.countOut_runRep : s.countOut.runRep = s.runRep := rfl
@[simp] theorem State.countOut_mem : s.countOut.mem = s.mem := rfl
@[simp] theorem State.countOut_memTop : s.countOut.memTop = s.memTop := rfl
@[simp] theorem State.countOut_memSize : s.countOut.memSize = s.memSize := rfl
@[simp] theorem State.countOut_unseen : s.countOut.unseen = s.unseen := rfl
@[simp] theorem State.countOut_draws : s.countOut.draws = s.draws := rfl
@[simp] theorem State.countOut_replies : s.countOut.replies = s.replies := rfl
@[simp] theorem State.countOut_agenda : s.countOut.agenda = s.agenda := rfl

@[simp] theorem State.countIdx_regs : s.countIdx.regs = s.regs := rfl
@[simp] theorem State.countIdx_done : s.countIdx.done = s.done := rfl
@[simp] theorem State.countIdx_err : s.countIdx.err = s.err := rfl
@[simp] theorem State.countIdx_rej : s.countIdx.rej = s.rej := rfl
@[simp] theorem State.countIdx_errCode : s.countIdx.errCode = s.errCode := rfl
@[simp] theorem State.countIdx_padded : s.countIdx.padded = s.padded := rfl
@[simp] theorem State.countIdx_inCount : s.countIdx.inCount = s.inCount := rfl
@[simp] theorem State.countIdx_outCount : s.countIdx.outCount = s.outCount := rfl
@[simp] theorem State.countIdx_idxCount : s.countIdx.idxCount = s.idxCount + 1 := rfl
@[simp] theorem State.countIdx_tileCount : s.countIdx.tileCount = s.tileCount := rfl
@[simp] theorem State.countIdx_errInfo : s.countIdx.errInfo = s.errInfo := rfl
@[simp] theorem State.countIdx_latched : s.countIdx.latched = s.latched := rfl
@[simp] theorem State.countIdx_phase : s.countIdx.phase = s.phase := rfl
@[simp] theorem State.countIdx_lop : s.countIdx.lop = s.lop := rfl
@[simp] theorem State.countIdx_abortReq : s.countIdx.abortReq = s.abortReq := rfl
@[simp] theorem State.countIdx_inSr : s.countIdx.inSr = s.inSr := rfl
@[simp] theorem State.countIdx_inLeft : s.countIdx.inLeft = s.inLeft := rfl
@[simp] theorem State.countIdx_acc : s.countIdx.acc = s.acc := rfl
@[simp] theorem State.countIdx_accN : s.countIdx.accN = s.accN := rfl
@[simp] theorem State.countIdx_hdrI : s.countIdx.hdrI = s.hdrI := rfl
@[simp] theorem State.countIdx_palI : s.countIdx.palI = s.palI := rfl
@[simp] theorem State.countIdx_runActive : s.countIdx.runActive = s.runActive := rfl
@[simp] theorem State.countIdx_runColor : s.countIdx.runColor = s.runColor := rfl
@[simp] theorem State.countIdx_runRep : s.countIdx.runRep = s.runRep := rfl
@[simp] theorem State.countIdx_mem : s.countIdx.mem = s.mem := rfl
@[simp] theorem State.countIdx_memTop : s.countIdx.memTop = s.memTop := rfl
@[simp] theorem State.countIdx_memSize : s.countIdx.memSize = s.memSize := rfl
@[simp] theorem State.countIdx_unseen : s.countIdx.unseen = s.unseen := rfl
@[simp] theorem State.countIdx_draws : s.countIdx.draws = s.draws := rfl
@[simp] theorem State.countIdx_replies : s.countIdx.replies = s.replies := rfl
@[simp] theorem State.countIdx_agenda : s.countIdx.agenda = s.agenda := rfl

@[simp] theorem State.countIn_regs : s.countIn.regs = s.regs := rfl
@[simp] theorem State.countIn_done : s.countIn.done = s.done := rfl
@[simp] theorem State.countIn_err : s.countIn.err = s.err := rfl
@[simp] theorem State.countIn_rej : s.countIn.rej = s.rej := rfl
@[simp] theorem State.countIn_errCode : s.countIn.errCode = s.errCode := rfl
@[simp] theorem State.countIn_padded : s.countIn.padded = s.padded := rfl
@[simp] theorem State.countIn_inCount : s.countIn.inCount = s.inCount + 1 := rfl
@[simp] theorem State.countIn_outCount : s.countIn.outCount = s.outCount := rfl
@[simp] theorem State.countIn_idxCount : s.countIn.idxCount = s.idxCount := rfl
@[simp] theorem State.countIn_tileCount : s.countIn.tileCount = s.tileCount := rfl
@[simp] theorem State.countIn_errInfo : s.countIn.errInfo = s.errInfo := rfl
@[simp] theorem State.countIn_latched : s.countIn.latched = s.latched := rfl
@[simp] theorem State.countIn_phase : s.countIn.phase = s.phase := rfl
@[simp] theorem State.countIn_lop : s.countIn.lop = s.lop := rfl
@[simp] theorem State.countIn_abortReq : s.countIn.abortReq = s.abortReq := rfl
@[simp] theorem State.countIn_inSr : s.countIn.inSr = s.inSr := rfl
@[simp] theorem State.countIn_inLeft : s.countIn.inLeft = s.inLeft := rfl
@[simp] theorem State.countIn_acc : s.countIn.acc = s.acc := rfl
@[simp] theorem State.countIn_accN : s.countIn.accN = s.accN := rfl
@[simp] theorem State.countIn_hdrI : s.countIn.hdrI = s.hdrI := rfl
@[simp] theorem State.countIn_palI : s.countIn.palI = s.palI := rfl
@[simp] theorem State.countIn_runActive : s.countIn.runActive = s.runActive := rfl
@[simp] theorem State.countIn_runColor : s.countIn.runColor = s.runColor := rfl
@[simp] theorem State.countIn_runRep : s.countIn.runRep = s.runRep := rfl
@[simp] theorem State.countIn_mem : s.countIn.mem = s.mem := rfl
@[simp] theorem State.countIn_memTop : s.countIn.memTop = s.memTop := rfl
@[simp] theorem State.countIn_memSize : s.countIn.memSize = s.memSize := rfl
@[simp] theorem State.countIn_unseen : s.countIn.unseen = s.unseen := rfl
@[simp] theorem State.countIn_draws : s.countIn.draws = s.draws := rfl
@[simp] theorem State.countIn_replies : s.countIn.replies = s.replies := rfl
@[simp] theorem State.countIn_agenda : s.countIn.agenda = s.agenda := rfl

@[simp] theorem State.loadByte_regs (b : Byte) : (s.loadByte b).regs = s.regs := rfl
@[simp] theorem State.loadByte_done (b : Byte) : (s.loadByte b).done = s.done := rfl
@[simp] theorem State.loadByte_err (b : Byte) : (s.loadByte b).err = s.err := rfl
@[simp] theorem State.loadByte_rej (b : Byte) : (s.loadByte b).rej = s.rej := rfl
@[simp] theorem State.loadByte_errCode (b : Byte) : (s.loadByte b).errCode = s.errCode := rfl
@[simp] theorem State.loadByte_padded (b : Byte) : (s.loadByte b).padded = s.padded := rfl
@[simp] theorem State.loadByte_inCount (b : Byte) : (s.loadByte b).inCount = s.inCount := rfl
@[simp] theorem State.loadByte_outCount (b : Byte) : (s.loadByte b).outCount = s.outCount := rfl
@[simp] theorem State.loadByte_idxCount (b : Byte) : (s.loadByte b).idxCount = s.idxCount := rfl
@[simp] theorem State.loadByte_tileCount (b : Byte) : (s.loadByte b).tileCount = s.tileCount := rfl
@[simp] theorem State.loadByte_errInfo (b : Byte) : (s.loadByte b).errInfo = s.errInfo := rfl
@[simp] theorem State.loadByte_latched (b : Byte) : (s.loadByte b).latched = s.latched := rfl
@[simp] theorem State.loadByte_phase (b : Byte) : (s.loadByte b).phase = s.phase := rfl
@[simp] theorem State.loadByte_lop (b : Byte) : (s.loadByte b).lop = s.lop := rfl
@[simp] theorem State.loadByte_abortReq (b : Byte) : (s.loadByte b).abortReq = s.abortReq := rfl
@[simp] theorem State.loadByte_inSr (b : Byte) : (s.loadByte b).inSr = b := rfl
@[simp] theorem State.loadByte_inLeft (b : Byte) : (s.loadByte b).inLeft = s.latched.pIn := rfl
@[simp] theorem State.loadByte_acc (b : Byte) : (s.loadByte b).acc = s.acc := rfl
@[simp] theorem State.loadByte_accN (b : Byte) : (s.loadByte b).accN = s.accN := rfl
@[simp] theorem State.loadByte_hdrI (b : Byte) : (s.loadByte b).hdrI = s.hdrI := rfl
@[simp] theorem State.loadByte_palI (b : Byte) : (s.loadByte b).palI = s.palI := rfl
@[simp] theorem State.loadByte_runActive (b : Byte) : (s.loadByte b).runActive = s.runActive := rfl
@[simp] theorem State.loadByte_runColor (b : Byte) : (s.loadByte b).runColor = s.runColor := rfl
@[simp] theorem State.loadByte_runRep (b : Byte) : (s.loadByte b).runRep = s.runRep := rfl
@[simp] theorem State.loadByte_mem (b : Byte) : (s.loadByte b).mem = s.mem := rfl
@[simp] theorem State.loadByte_memTop (b : Byte) : (s.loadByte b).memTop = s.memTop := rfl
@[simp] theorem State.loadByte_memSize (b : Byte) : (s.loadByte b).memSize = s.memSize := rfl
@[simp] theorem State.loadByte_unseen (b : Byte) : (s.loadByte b).unseen = s.unseen := rfl
@[simp] theorem State.loadByte_draws (b : Byte) : (s.loadByte b).draws = s.draws := rfl
@[simp] theorem State.loadByte_replies (b : Byte) : (s.loadByte b).replies = s.replies := rfl
@[simp] theorem State.loadByte_agenda (b : Byte) : (s.loadByte b).agenda = s.agenda := rfl

@[simp] theorem State.movePixel_regs : s.movePixel.regs = s.regs := rfl
@[simp] theorem State.movePixel_done : s.movePixel.done = s.done := rfl
@[simp] theorem State.movePixel_err : s.movePixel.err = s.err := rfl
@[simp] theorem State.movePixel_rej : s.movePixel.rej = s.rej := rfl
@[simp] theorem State.movePixel_errCode : s.movePixel.errCode = s.errCode := rfl
@[simp] theorem State.movePixel_padded : s.movePixel.padded = s.padded := rfl
@[simp] theorem State.movePixel_inCount : s.movePixel.inCount = s.inCount := rfl
@[simp] theorem State.movePixel_outCount : s.movePixel.outCount = s.outCount := rfl
@[simp] theorem State.movePixel_idxCount : s.movePixel.idxCount = s.idxCount := rfl
@[simp] theorem State.movePixel_tileCount : s.movePixel.tileCount = s.tileCount := rfl
@[simp] theorem State.movePixel_errInfo : s.movePixel.errInfo = s.errInfo := rfl
@[simp] theorem State.movePixel_latched : s.movePixel.latched = s.latched := rfl
@[simp] theorem State.movePixel_phase : s.movePixel.phase = s.phase := rfl
@[simp] theorem State.movePixel_lop : s.movePixel.lop = s.lop := rfl
@[simp] theorem State.movePixel_abortReq : s.movePixel.abortReq = s.abortReq := rfl
@[simp] theorem State.movePixel_inSr : s.movePixel.inSr = rol8 s.inSr s.latched.bin := rfl
@[simp] theorem State.movePixel_inLeft : s.movePixel.inLeft = s.inLeft - 1 := rfl
@[simp] theorem State.movePixel_acc : s.movePixel.acc = packStep s.latched.bout s.acc (rol8 s.inSr s.latched.bin &&& mask s.latched.bin) := rfl
@[simp] theorem State.movePixel_accN : s.movePixel.accN = s.accN + 1 := rfl
@[simp] theorem State.movePixel_hdrI : s.movePixel.hdrI = s.hdrI := rfl
@[simp] theorem State.movePixel_palI : s.movePixel.palI = s.palI := rfl
@[simp] theorem State.movePixel_runActive : s.movePixel.runActive = s.runActive := rfl
@[simp] theorem State.movePixel_runColor : s.movePixel.runColor = s.runColor := rfl
@[simp] theorem State.movePixel_runRep : s.movePixel.runRep = s.runRep := rfl
@[simp] theorem State.movePixel_mem : s.movePixel.mem = s.mem := rfl
@[simp] theorem State.movePixel_memTop : s.movePixel.memTop = s.memTop := rfl
@[simp] theorem State.movePixel_memSize : s.movePixel.memSize = s.memSize := rfl
@[simp] theorem State.movePixel_unseen : s.movePixel.unseen = s.unseen := rfl
@[simp] theorem State.movePixel_draws : s.movePixel.draws = s.draws := rfl
@[simp] theorem State.movePixel_replies : s.movePixel.replies = s.replies := rfl
@[simp] theorem State.movePixel_agenda : s.movePixel.agenda = s.agenda := rfl

@[simp] theorem State.padAcc_regs : s.padAcc.regs = s.regs := rfl
@[simp] theorem State.padAcc_done : s.padAcc.done = s.done := rfl
@[simp] theorem State.padAcc_err : s.padAcc.err = s.err := rfl
@[simp] theorem State.padAcc_rej : s.padAcc.rej = s.rej := rfl
@[simp] theorem State.padAcc_errCode : s.padAcc.errCode = s.errCode := rfl
@[simp] theorem State.padAcc_padded : s.padAcc.padded = s.padded := rfl
@[simp] theorem State.padAcc_inCount : s.padAcc.inCount = s.inCount := rfl
@[simp] theorem State.padAcc_outCount : s.padAcc.outCount = s.outCount := rfl
@[simp] theorem State.padAcc_idxCount : s.padAcc.idxCount = s.idxCount := rfl
@[simp] theorem State.padAcc_tileCount : s.padAcc.tileCount = s.tileCount := rfl
@[simp] theorem State.padAcc_errInfo : s.padAcc.errInfo = s.errInfo := rfl
@[simp] theorem State.padAcc_latched : s.padAcc.latched = s.latched := rfl
@[simp] theorem State.padAcc_phase : s.padAcc.phase = s.phase := rfl
@[simp] theorem State.padAcc_lop : s.padAcc.lop = s.lop := rfl
@[simp] theorem State.padAcc_abortReq : s.padAcc.abortReq = s.abortReq := rfl
@[simp] theorem State.padAcc_inSr : s.padAcc.inSr = s.inSr := rfl
@[simp] theorem State.padAcc_inLeft : s.padAcc.inLeft = s.inLeft := rfl
@[simp] theorem State.padAcc_acc : s.padAcc.acc = padByte s.latched.bout s.latched.pOut s.accN s.acc := rfl
@[simp] theorem State.padAcc_accN : s.padAcc.accN = s.accN := rfl
@[simp] theorem State.padAcc_hdrI : s.padAcc.hdrI = s.hdrI := rfl
@[simp] theorem State.padAcc_palI : s.padAcc.palI = s.palI := rfl
@[simp] theorem State.padAcc_runActive : s.padAcc.runActive = s.runActive := rfl
@[simp] theorem State.padAcc_runColor : s.padAcc.runColor = s.runColor := rfl
@[simp] theorem State.padAcc_runRep : s.padAcc.runRep = s.runRep := rfl
@[simp] theorem State.padAcc_mem : s.padAcc.mem = s.mem := rfl
@[simp] theorem State.padAcc_memTop : s.padAcc.memTop = s.memTop := rfl
@[simp] theorem State.padAcc_memSize : s.padAcc.memSize = s.memSize := rfl
@[simp] theorem State.padAcc_unseen : s.padAcc.unseen = s.unseen := rfl
@[simp] theorem State.padAcc_draws : s.padAcc.draws = s.draws := rfl
@[simp] theorem State.padAcc_replies : s.padAcc.replies = s.replies := rfl
@[simp] theorem State.padAcc_agenda : s.padAcc.agenda = s.agenda := rfl

@[simp] theorem State.clearAcc_regs : s.clearAcc.regs = s.regs := rfl
@[simp] theorem State.clearAcc_done : s.clearAcc.done = s.done := rfl
@[simp] theorem State.clearAcc_err : s.clearAcc.err = s.err := rfl
@[simp] theorem State.clearAcc_rej : s.clearAcc.rej = s.rej := rfl
@[simp] theorem State.clearAcc_errCode : s.clearAcc.errCode = s.errCode := rfl
@[simp] theorem State.clearAcc_padded : s.clearAcc.padded = s.padded := rfl
@[simp] theorem State.clearAcc_inCount : s.clearAcc.inCount = s.inCount := rfl
@[simp] theorem State.clearAcc_outCount : s.clearAcc.outCount = s.outCount := rfl
@[simp] theorem State.clearAcc_idxCount : s.clearAcc.idxCount = s.idxCount := rfl
@[simp] theorem State.clearAcc_tileCount : s.clearAcc.tileCount = s.tileCount := rfl
@[simp] theorem State.clearAcc_errInfo : s.clearAcc.errInfo = s.errInfo := rfl
@[simp] theorem State.clearAcc_latched : s.clearAcc.latched = s.latched := rfl
@[simp] theorem State.clearAcc_phase : s.clearAcc.phase = s.phase := rfl
@[simp] theorem State.clearAcc_lop : s.clearAcc.lop = s.lop := rfl
@[simp] theorem State.clearAcc_abortReq : s.clearAcc.abortReq = s.abortReq := rfl
@[simp] theorem State.clearAcc_inSr : s.clearAcc.inSr = s.inSr := rfl
@[simp] theorem State.clearAcc_inLeft : s.clearAcc.inLeft = s.inLeft := rfl
@[simp] theorem State.clearAcc_acc : s.clearAcc.acc = 0 := rfl
@[simp] theorem State.clearAcc_accN : s.clearAcc.accN = 0 := rfl
@[simp] theorem State.clearAcc_hdrI : s.clearAcc.hdrI = s.hdrI := rfl
@[simp] theorem State.clearAcc_palI : s.clearAcc.palI = s.palI := rfl
@[simp] theorem State.clearAcc_runActive : s.clearAcc.runActive = s.runActive := rfl
@[simp] theorem State.clearAcc_runColor : s.clearAcc.runColor = s.runColor := rfl
@[simp] theorem State.clearAcc_runRep : s.clearAcc.runRep = s.runRep := rfl
@[simp] theorem State.clearAcc_mem : s.clearAcc.mem = s.mem := rfl
@[simp] theorem State.clearAcc_memTop : s.clearAcc.memTop = s.memTop := rfl
@[simp] theorem State.clearAcc_memSize : s.clearAcc.memSize = s.memSize := rfl
@[simp] theorem State.clearAcc_unseen : s.clearAcc.unseen = s.unseen := rfl
@[simp] theorem State.clearAcc_draws : s.clearAcc.draws = s.draws := rfl
@[simp] theorem State.clearAcc_replies : s.clearAcc.replies = s.replies := rfl
@[simp] theorem State.clearAcc_agenda : s.clearAcc.agenda = s.agenda := rfl

@[simp] theorem State.nextHeader_regs : s.nextHeader.regs = s.regs := rfl
@[simp] theorem State.nextHeader_done : s.nextHeader.done = s.done := rfl
@[simp] theorem State.nextHeader_err : s.nextHeader.err = s.err := rfl
@[simp] theorem State.nextHeader_rej : s.nextHeader.rej = s.rej := rfl
@[simp] theorem State.nextHeader_errCode : s.nextHeader.errCode = s.errCode := rfl
@[simp] theorem State.nextHeader_padded : s.nextHeader.padded = s.padded := rfl
@[simp] theorem State.nextHeader_inCount : s.nextHeader.inCount = s.inCount := rfl
@[simp] theorem State.nextHeader_outCount : s.nextHeader.outCount = s.outCount := rfl
@[simp] theorem State.nextHeader_idxCount : s.nextHeader.idxCount = s.idxCount := rfl
@[simp] theorem State.nextHeader_tileCount : s.nextHeader.tileCount = s.tileCount := rfl
@[simp] theorem State.nextHeader_errInfo : s.nextHeader.errInfo = s.errInfo := rfl
@[simp] theorem State.nextHeader_latched : s.nextHeader.latched = s.latched := rfl
@[simp] theorem State.nextHeader_phase : s.nextHeader.phase = if s.hdrI + 1 = 4 then afterHdr s.latched else s.phase := rfl
@[simp] theorem State.nextHeader_lop : s.nextHeader.lop = s.lop := rfl
@[simp] theorem State.nextHeader_abortReq : s.nextHeader.abortReq = s.abortReq := rfl
@[simp] theorem State.nextHeader_inSr : s.nextHeader.inSr = s.inSr := rfl
@[simp] theorem State.nextHeader_inLeft : s.nextHeader.inLeft = s.inLeft := rfl
@[simp] theorem State.nextHeader_acc : s.nextHeader.acc = s.acc := rfl
@[simp] theorem State.nextHeader_accN : s.nextHeader.accN = s.accN := rfl
@[simp] theorem State.nextHeader_hdrI : s.nextHeader.hdrI = s.hdrI + 1 := rfl
@[simp] theorem State.nextHeader_palI : s.nextHeader.palI = s.palI := rfl
@[simp] theorem State.nextHeader_runActive : s.nextHeader.runActive = s.runActive := rfl
@[simp] theorem State.nextHeader_runColor : s.nextHeader.runColor = s.runColor := rfl
@[simp] theorem State.nextHeader_runRep : s.nextHeader.runRep = s.runRep := rfl
@[simp] theorem State.nextHeader_mem : s.nextHeader.mem = s.mem := rfl
@[simp] theorem State.nextHeader_memTop : s.nextHeader.memTop = s.memTop := rfl
@[simp] theorem State.nextHeader_memSize : s.nextHeader.memSize = s.memSize := rfl
@[simp] theorem State.nextHeader_unseen : s.nextHeader.unseen = s.unseen := rfl
@[simp] theorem State.nextHeader_draws : s.nextHeader.draws = s.draws := rfl
@[simp] theorem State.nextHeader_replies : s.nextHeader.replies = s.replies := rfl
@[simp] theorem State.nextHeader_agenda : s.nextHeader.agenda = s.agenda := rfl

@[simp] theorem State.nextEntry_regs : s.nextEntry.regs = s.regs := rfl
@[simp] theorem State.nextEntry_done : s.nextEntry.done = s.done := rfl
@[simp] theorem State.nextEntry_err : s.nextEntry.err = s.err := rfl
@[simp] theorem State.nextEntry_rej : s.nextEntry.rej = s.rej := rfl
@[simp] theorem State.nextEntry_errCode : s.nextEntry.errCode = s.errCode := rfl
@[simp] theorem State.nextEntry_padded : s.nextEntry.padded = s.padded := rfl
@[simp] theorem State.nextEntry_inCount : s.nextEntry.inCount = s.inCount := rfl
@[simp] theorem State.nextEntry_outCount : s.nextEntry.outCount = s.outCount := rfl
@[simp] theorem State.nextEntry_idxCount : s.nextEntry.idxCount = s.idxCount := rfl
@[simp] theorem State.nextEntry_tileCount : s.nextEntry.tileCount = s.tileCount := rfl
@[simp] theorem State.nextEntry_errInfo : s.nextEntry.errInfo = s.errInfo := rfl
@[simp] theorem State.nextEntry_latched : s.nextEntry.latched = s.latched := rfl
@[simp] theorem State.nextEntry_phase : s.nextEntry.phase = if s.palI + 1 = s.latched.palCount then .rleRun else s.phase := rfl
@[simp] theorem State.nextEntry_lop : s.nextEntry.lop = s.lop := rfl
@[simp] theorem State.nextEntry_abortReq : s.nextEntry.abortReq = s.abortReq := rfl
@[simp] theorem State.nextEntry_inSr : s.nextEntry.inSr = s.inSr := rfl
@[simp] theorem State.nextEntry_inLeft : s.nextEntry.inLeft = s.inLeft := rfl
@[simp] theorem State.nextEntry_acc : s.nextEntry.acc = s.acc := rfl
@[simp] theorem State.nextEntry_accN : s.nextEntry.accN = s.accN := rfl
@[simp] theorem State.nextEntry_hdrI : s.nextEntry.hdrI = s.hdrI := rfl
@[simp] theorem State.nextEntry_palI : s.nextEntry.palI = s.palI + 1 := rfl
@[simp] theorem State.nextEntry_runActive : s.nextEntry.runActive = s.runActive := rfl
@[simp] theorem State.nextEntry_runColor : s.nextEntry.runColor = s.runColor := rfl
@[simp] theorem State.nextEntry_runRep : s.nextEntry.runRep = s.runRep := rfl
@[simp] theorem State.nextEntry_mem : s.nextEntry.mem = s.mem := rfl
@[simp] theorem State.nextEntry_memTop : s.nextEntry.memTop = s.memTop := rfl
@[simp] theorem State.nextEntry_memSize : s.nextEntry.memSize = s.memSize := rfl
@[simp] theorem State.nextEntry_unseen : s.nextEntry.unseen = s.unseen := rfl
@[simp] theorem State.nextEntry_draws : s.nextEntry.draws = s.draws := rfl
@[simp] theorem State.nextEntry_replies : s.nextEntry.replies = s.replies := rfl
@[simp] theorem State.nextEntry_agenda : s.nextEntry.agenda = s.agenda := rfl

@[simp] theorem State.openRun_regs (c : Nibble) : (s.openRun c).regs = s.regs := rfl
@[simp] theorem State.openRun_done (c : Nibble) : (s.openRun c).done = s.done := rfl
@[simp] theorem State.openRun_err (c : Nibble) : (s.openRun c).err = s.err := rfl
@[simp] theorem State.openRun_rej (c : Nibble) : (s.openRun c).rej = s.rej := rfl
@[simp] theorem State.openRun_errCode (c : Nibble) : (s.openRun c).errCode = s.errCode := rfl
@[simp] theorem State.openRun_padded (c : Nibble) : (s.openRun c).padded = s.padded := rfl
@[simp] theorem State.openRun_inCount (c : Nibble) : (s.openRun c).inCount = s.inCount := rfl
@[simp] theorem State.openRun_outCount (c : Nibble) : (s.openRun c).outCount = s.outCount := rfl
@[simp] theorem State.openRun_idxCount (c : Nibble) : (s.openRun c).idxCount = s.idxCount := rfl
@[simp] theorem State.openRun_tileCount (c : Nibble) : (s.openRun c).tileCount = s.tileCount := rfl
@[simp] theorem State.openRun_errInfo (c : Nibble) : (s.openRun c).errInfo = s.errInfo := rfl
@[simp] theorem State.openRun_latched (c : Nibble) : (s.openRun c).latched = s.latched := rfl
@[simp] theorem State.openRun_phase (c : Nibble) : (s.openRun c).phase = s.phase := rfl
@[simp] theorem State.openRun_lop (c : Nibble) : (s.openRun c).lop = s.lop := rfl
@[simp] theorem State.openRun_abortReq (c : Nibble) : (s.openRun c).abortReq = s.abortReq := rfl
@[simp] theorem State.openRun_inSr (c : Nibble) : (s.openRun c).inSr = s.inSr := rfl
@[simp] theorem State.openRun_inLeft (c : Nibble) : (s.openRun c).inLeft = s.inLeft := rfl
@[simp] theorem State.openRun_acc (c : Nibble) : (s.openRun c).acc = s.acc := rfl
@[simp] theorem State.openRun_accN (c : Nibble) : (s.openRun c).accN = s.accN := rfl
@[simp] theorem State.openRun_hdrI (c : Nibble) : (s.openRun c).hdrI = s.hdrI := rfl
@[simp] theorem State.openRun_palI (c : Nibble) : (s.openRun c).palI = s.palI := rfl
@[simp] theorem State.openRun_runActive (c : Nibble) : (s.openRun c).runActive = true := rfl
@[simp] theorem State.openRun_runColor (c : Nibble) : (s.openRun c).runColor = c := rfl
@[simp] theorem State.openRun_runRep (c : Nibble) : (s.openRun c).runRep = 0 := rfl
@[simp] theorem State.openRun_mem (c : Nibble) : (s.openRun c).mem = s.mem := rfl
@[simp] theorem State.openRun_memTop (c : Nibble) : (s.openRun c).memTop = s.memTop := rfl
@[simp] theorem State.openRun_memSize (c : Nibble) : (s.openRun c).memSize = s.memSize := rfl
@[simp] theorem State.openRun_unseen (c : Nibble) : (s.openRun c).unseen = s.unseen := rfl
@[simp] theorem State.openRun_draws (c : Nibble) : (s.openRun c).draws = s.draws := rfl
@[simp] theorem State.openRun_replies (c : Nibble) : (s.openRun c).replies = s.replies := rfl
@[simp] theorem State.openRun_agenda (c : Nibble) : (s.openRun c).agenda = s.agenda := rfl

@[simp] theorem State.extendRun_regs : s.extendRun.regs = s.regs := rfl
@[simp] theorem State.extendRun_done : s.extendRun.done = s.done := rfl
@[simp] theorem State.extendRun_err : s.extendRun.err = s.err := rfl
@[simp] theorem State.extendRun_rej : s.extendRun.rej = s.rej := rfl
@[simp] theorem State.extendRun_errCode : s.extendRun.errCode = s.errCode := rfl
@[simp] theorem State.extendRun_padded : s.extendRun.padded = s.padded := rfl
@[simp] theorem State.extendRun_inCount : s.extendRun.inCount = s.inCount := rfl
@[simp] theorem State.extendRun_outCount : s.extendRun.outCount = s.outCount := rfl
@[simp] theorem State.extendRun_idxCount : s.extendRun.idxCount = s.idxCount := rfl
@[simp] theorem State.extendRun_tileCount : s.extendRun.tileCount = s.tileCount := rfl
@[simp] theorem State.extendRun_errInfo : s.extendRun.errInfo = s.errInfo := rfl
@[simp] theorem State.extendRun_latched : s.extendRun.latched = s.latched := rfl
@[simp] theorem State.extendRun_phase : s.extendRun.phase = s.phase := rfl
@[simp] theorem State.extendRun_lop : s.extendRun.lop = s.lop := rfl
@[simp] theorem State.extendRun_abortReq : s.extendRun.abortReq = s.abortReq := rfl
@[simp] theorem State.extendRun_inSr : s.extendRun.inSr = s.inSr := rfl
@[simp] theorem State.extendRun_inLeft : s.extendRun.inLeft = s.inLeft := rfl
@[simp] theorem State.extendRun_acc : s.extendRun.acc = s.acc := rfl
@[simp] theorem State.extendRun_accN : s.extendRun.accN = s.accN := rfl
@[simp] theorem State.extendRun_hdrI : s.extendRun.hdrI = s.hdrI := rfl
@[simp] theorem State.extendRun_palI : s.extendRun.palI = s.palI := rfl
@[simp] theorem State.extendRun_runActive : s.extendRun.runActive = s.runActive := rfl
@[simp] theorem State.extendRun_runColor : s.extendRun.runColor = s.runColor := rfl
@[simp] theorem State.extendRun_runRep : s.extendRun.runRep = s.runRep + 1 := rfl
@[simp] theorem State.extendRun_mem : s.extendRun.mem = s.mem := rfl
@[simp] theorem State.extendRun_memTop : s.extendRun.memTop = s.memTop := rfl
@[simp] theorem State.extendRun_memSize : s.extendRun.memSize = s.memSize := rfl
@[simp] theorem State.extendRun_unseen : s.extendRun.unseen = s.unseen := rfl
@[simp] theorem State.extendRun_draws : s.extendRun.draws = s.draws := rfl
@[simp] theorem State.extendRun_replies : s.extendRun.replies = s.replies := rfl
@[simp] theorem State.extendRun_agenda : s.extendRun.agenda = s.agenda := rfl

@[simp] theorem State.seedRun_regs (c : Nibble) : (s.seedRun c).regs = s.regs := rfl
@[simp] theorem State.seedRun_done (c : Nibble) : (s.seedRun c).done = s.done := rfl
@[simp] theorem State.seedRun_err (c : Nibble) : (s.seedRun c).err = s.err := rfl
@[simp] theorem State.seedRun_rej (c : Nibble) : (s.seedRun c).rej = s.rej := rfl
@[simp] theorem State.seedRun_errCode (c : Nibble) : (s.seedRun c).errCode = s.errCode := rfl
@[simp] theorem State.seedRun_padded (c : Nibble) : (s.seedRun c).padded = s.padded := rfl
@[simp] theorem State.seedRun_inCount (c : Nibble) : (s.seedRun c).inCount = s.inCount := rfl
@[simp] theorem State.seedRun_outCount (c : Nibble) : (s.seedRun c).outCount = s.outCount := rfl
@[simp] theorem State.seedRun_idxCount (c : Nibble) : (s.seedRun c).idxCount = s.idxCount := rfl
@[simp] theorem State.seedRun_tileCount (c : Nibble) : (s.seedRun c).tileCount = s.tileCount := rfl
@[simp] theorem State.seedRun_errInfo (c : Nibble) : (s.seedRun c).errInfo = s.errInfo := rfl
@[simp] theorem State.seedRun_latched (c : Nibble) : (s.seedRun c).latched = s.latched := rfl
@[simp] theorem State.seedRun_phase (c : Nibble) : (s.seedRun c).phase = s.phase := rfl
@[simp] theorem State.seedRun_lop (c : Nibble) : (s.seedRun c).lop = s.lop := rfl
@[simp] theorem State.seedRun_abortReq (c : Nibble) : (s.seedRun c).abortReq = s.abortReq := rfl
@[simp] theorem State.seedRun_inSr (c : Nibble) : (s.seedRun c).inSr = s.inSr := rfl
@[simp] theorem State.seedRun_inLeft (c : Nibble) : (s.seedRun c).inLeft = s.inLeft := rfl
@[simp] theorem State.seedRun_acc (c : Nibble) : (s.seedRun c).acc = s.acc := rfl
@[simp] theorem State.seedRun_accN (c : Nibble) : (s.seedRun c).accN = s.accN := rfl
@[simp] theorem State.seedRun_hdrI (c : Nibble) : (s.seedRun c).hdrI = s.hdrI := rfl
@[simp] theorem State.seedRun_palI (c : Nibble) : (s.seedRun c).palI = s.palI := rfl
@[simp] theorem State.seedRun_runActive (c : Nibble) : (s.seedRun c).runActive = s.runActive := rfl
@[simp] theorem State.seedRun_runColor (c : Nibble) : (s.seedRun c).runColor = c := rfl
@[simp] theorem State.seedRun_runRep (c : Nibble) : (s.seedRun c).runRep = 0 := rfl
@[simp] theorem State.seedRun_mem (c : Nibble) : (s.seedRun c).mem = s.mem := rfl
@[simp] theorem State.seedRun_memTop (c : Nibble) : (s.seedRun c).memTop = s.memTop := rfl
@[simp] theorem State.seedRun_memSize (c : Nibble) : (s.seedRun c).memSize = s.memSize := rfl
@[simp] theorem State.seedRun_unseen (c : Nibble) : (s.seedRun c).unseen = s.unseen := rfl
@[simp] theorem State.seedRun_draws (c : Nibble) : (s.seedRun c).draws = s.draws := rfl
@[simp] theorem State.seedRun_replies (c : Nibble) : (s.seedRun c).replies = s.replies := rfl
@[simp] theorem State.seedRun_agenda (c : Nibble) : (s.seedRun c).agenda = s.agenda := rfl

@[simp] theorem State.closeRun_regs : s.closeRun.regs = s.regs := rfl
@[simp] theorem State.closeRun_done : s.closeRun.done = s.done := rfl
@[simp] theorem State.closeRun_err : s.closeRun.err = s.err := rfl
@[simp] theorem State.closeRun_rej : s.closeRun.rej = s.rej := rfl
@[simp] theorem State.closeRun_errCode : s.closeRun.errCode = s.errCode := rfl
@[simp] theorem State.closeRun_padded : s.closeRun.padded = s.padded := rfl
@[simp] theorem State.closeRun_inCount : s.closeRun.inCount = s.inCount := rfl
@[simp] theorem State.closeRun_outCount : s.closeRun.outCount = s.outCount := rfl
@[simp] theorem State.closeRun_idxCount : s.closeRun.idxCount = s.idxCount := rfl
@[simp] theorem State.closeRun_tileCount : s.closeRun.tileCount = s.tileCount := rfl
@[simp] theorem State.closeRun_errInfo : s.closeRun.errInfo = s.errInfo := rfl
@[simp] theorem State.closeRun_latched : s.closeRun.latched = s.latched := rfl
@[simp] theorem State.closeRun_phase : s.closeRun.phase = s.phase := rfl
@[simp] theorem State.closeRun_lop : s.closeRun.lop = s.lop := rfl
@[simp] theorem State.closeRun_abortReq : s.closeRun.abortReq = s.abortReq := rfl
@[simp] theorem State.closeRun_inSr : s.closeRun.inSr = s.inSr := rfl
@[simp] theorem State.closeRun_inLeft : s.closeRun.inLeft = s.inLeft := rfl
@[simp] theorem State.closeRun_acc : s.closeRun.acc = s.acc := rfl
@[simp] theorem State.closeRun_accN : s.closeRun.accN = s.accN := rfl
@[simp] theorem State.closeRun_hdrI : s.closeRun.hdrI = s.hdrI := rfl
@[simp] theorem State.closeRun_palI : s.closeRun.palI = s.palI := rfl
@[simp] theorem State.closeRun_runActive : s.closeRun.runActive = false := rfl
@[simp] theorem State.closeRun_runColor : s.closeRun.runColor = s.runColor := rfl
@[simp] theorem State.closeRun_runRep : s.closeRun.runRep = s.runRep := rfl
@[simp] theorem State.closeRun_mem : s.closeRun.mem = s.mem := rfl
@[simp] theorem State.closeRun_memTop : s.closeRun.memTop = s.memTop := rfl
@[simp] theorem State.closeRun_memSize : s.closeRun.memSize = s.memSize := rfl
@[simp] theorem State.closeRun_unseen : s.closeRun.unseen = s.unseen := rfl
@[simp] theorem State.closeRun_draws : s.closeRun.draws = s.draws := rfl
@[simp] theorem State.closeRun_replies : s.closeRun.replies = s.replies := rfl
@[simp] theorem State.closeRun_agenda : s.closeRun.agenda = s.agenda := rfl

@[simp] theorem State.requestAbort_regs : s.requestAbort.regs = s.regs := rfl
@[simp] theorem State.requestAbort_done : s.requestAbort.done = s.done := rfl
@[simp] theorem State.requestAbort_err : s.requestAbort.err = s.err := rfl
@[simp] theorem State.requestAbort_rej : s.requestAbort.rej = s.rej := rfl
@[simp] theorem State.requestAbort_errCode : s.requestAbort.errCode = s.errCode := rfl
@[simp] theorem State.requestAbort_padded : s.requestAbort.padded = s.padded := rfl
@[simp] theorem State.requestAbort_inCount : s.requestAbort.inCount = s.inCount := rfl
@[simp] theorem State.requestAbort_outCount : s.requestAbort.outCount = s.outCount := rfl
@[simp] theorem State.requestAbort_idxCount : s.requestAbort.idxCount = s.idxCount := rfl
@[simp] theorem State.requestAbort_tileCount : s.requestAbort.tileCount = s.tileCount := rfl
@[simp] theorem State.requestAbort_errInfo : s.requestAbort.errInfo = s.errInfo := rfl
@[simp] theorem State.requestAbort_latched : s.requestAbort.latched = s.latched := rfl
@[simp] theorem State.requestAbort_phase : s.requestAbort.phase = s.phase := rfl
@[simp] theorem State.requestAbort_lop : s.requestAbort.lop = s.lop := rfl
@[simp] theorem State.requestAbort_abortReq : s.requestAbort.abortReq = true := rfl
@[simp] theorem State.requestAbort_inSr : s.requestAbort.inSr = s.inSr := rfl
@[simp] theorem State.requestAbort_inLeft : s.requestAbort.inLeft = s.inLeft := rfl
@[simp] theorem State.requestAbort_acc : s.requestAbort.acc = s.acc := rfl
@[simp] theorem State.requestAbort_accN : s.requestAbort.accN = s.accN := rfl
@[simp] theorem State.requestAbort_hdrI : s.requestAbort.hdrI = s.hdrI := rfl
@[simp] theorem State.requestAbort_palI : s.requestAbort.palI = s.palI := rfl
@[simp] theorem State.requestAbort_runActive : s.requestAbort.runActive = s.runActive := rfl
@[simp] theorem State.requestAbort_runColor : s.requestAbort.runColor = s.runColor := rfl
@[simp] theorem State.requestAbort_runRep : s.requestAbort.runRep = s.runRep := rfl
@[simp] theorem State.requestAbort_mem : s.requestAbort.mem = s.mem := rfl
@[simp] theorem State.requestAbort_memTop : s.requestAbort.memTop = s.memTop := rfl
@[simp] theorem State.requestAbort_memSize : s.requestAbort.memSize = s.memSize := rfl
@[simp] theorem State.requestAbort_unseen : s.requestAbort.unseen = s.unseen := rfl
@[simp] theorem State.requestAbort_draws : s.requestAbort.draws = s.draws := rfl
@[simp] theorem State.requestAbort_replies : s.requestAbort.replies = s.replies := rfl
@[simp] theorem State.requestAbort_agenda : s.requestAbort.agenda = s.agenda := rfl

@[simp] theorem State.reply_regs (r : Reply) : (s.reply r).regs = s.regs := rfl
@[simp] theorem State.reply_done (r : Reply) : (s.reply r).done = s.done := rfl
@[simp] theorem State.reply_err (r : Reply) : (s.reply r).err = s.err := rfl
@[simp] theorem State.reply_rej (r : Reply) : (s.reply r).rej = s.rej := rfl
@[simp] theorem State.reply_errCode (r : Reply) : (s.reply r).errCode = s.errCode := rfl
@[simp] theorem State.reply_padded (r : Reply) : (s.reply r).padded = s.padded := rfl
@[simp] theorem State.reply_inCount (r : Reply) : (s.reply r).inCount = s.inCount := rfl
@[simp] theorem State.reply_outCount (r : Reply) : (s.reply r).outCount = s.outCount := rfl
@[simp] theorem State.reply_idxCount (r : Reply) : (s.reply r).idxCount = s.idxCount := rfl
@[simp] theorem State.reply_tileCount (r : Reply) : (s.reply r).tileCount = s.tileCount := rfl
@[simp] theorem State.reply_errInfo (r : Reply) : (s.reply r).errInfo = s.errInfo := rfl
@[simp] theorem State.reply_latched (r : Reply) : (s.reply r).latched = s.latched := rfl
@[simp] theorem State.reply_phase (r : Reply) : (s.reply r).phase = s.phase := rfl
@[simp] theorem State.reply_lop (r : Reply) : (s.reply r).lop = s.lop := rfl
@[simp] theorem State.reply_abortReq (r : Reply) : (s.reply r).abortReq = s.abortReq := rfl
@[simp] theorem State.reply_inSr (r : Reply) : (s.reply r).inSr = s.inSr := rfl
@[simp] theorem State.reply_inLeft (r : Reply) : (s.reply r).inLeft = s.inLeft := rfl
@[simp] theorem State.reply_acc (r : Reply) : (s.reply r).acc = s.acc := rfl
@[simp] theorem State.reply_accN (r : Reply) : (s.reply r).accN = s.accN := rfl
@[simp] theorem State.reply_hdrI (r : Reply) : (s.reply r).hdrI = s.hdrI := rfl
@[simp] theorem State.reply_palI (r : Reply) : (s.reply r).palI = s.palI := rfl
@[simp] theorem State.reply_runActive (r : Reply) : (s.reply r).runActive = s.runActive := rfl
@[simp] theorem State.reply_runColor (r : Reply) : (s.reply r).runColor = s.runColor := rfl
@[simp] theorem State.reply_runRep (r : Reply) : (s.reply r).runRep = s.runRep := rfl
@[simp] theorem State.reply_mem (r : Reply) : (s.reply r).mem = s.mem := rfl
@[simp] theorem State.reply_memTop (r : Reply) : (s.reply r).memTop = s.memTop := rfl
@[simp] theorem State.reply_memSize (r : Reply) : (s.reply r).memSize = s.memSize := rfl
@[simp] theorem State.reply_unseen (r : Reply) : (s.reply r).unseen = s.unseen := rfl
@[simp] theorem State.reply_draws (r : Reply) : (s.reply r).draws = s.draws := rfl
@[simp] theorem State.reply_replies (r : Reply) : (s.reply r).replies = r :: s.replies := rfl
@[simp] theorem State.reply_agenda (r : Reply) : (s.reply r).agenda = s.agenda := rfl

@[simp] theorem State.drawn_regs : s.drawn.regs = s.regs := rfl
@[simp] theorem State.drawn_done : s.drawn.done = s.done := rfl
@[simp] theorem State.drawn_err : s.drawn.err = s.err := rfl
@[simp] theorem State.drawn_rej : s.drawn.rej = s.rej := rfl
@[simp] theorem State.drawn_errCode : s.drawn.errCode = s.errCode := rfl
@[simp] theorem State.drawn_padded : s.drawn.padded = s.padded := rfl
@[simp] theorem State.drawn_inCount : s.drawn.inCount = s.inCount := rfl
@[simp] theorem State.drawn_outCount : s.drawn.outCount = s.outCount := rfl
@[simp] theorem State.drawn_idxCount : s.drawn.idxCount = s.idxCount := rfl
@[simp] theorem State.drawn_tileCount : s.drawn.tileCount = s.tileCount := rfl
@[simp] theorem State.drawn_errInfo : s.drawn.errInfo = s.errInfo := rfl
@[simp] theorem State.drawn_latched : s.drawn.latched = s.latched := rfl
@[simp] theorem State.drawn_phase : s.drawn.phase = s.phase := rfl
@[simp] theorem State.drawn_lop : s.drawn.lop = s.lop := rfl
@[simp] theorem State.drawn_abortReq : s.drawn.abortReq = s.abortReq := rfl
@[simp] theorem State.drawn_inSr : s.drawn.inSr = s.inSr := rfl
@[simp] theorem State.drawn_inLeft : s.drawn.inLeft = s.inLeft := rfl
@[simp] theorem State.drawn_acc : s.drawn.acc = s.acc := rfl
@[simp] theorem State.drawn_accN : s.drawn.accN = s.accN := rfl
@[simp] theorem State.drawn_hdrI : s.drawn.hdrI = s.hdrI := rfl
@[simp] theorem State.drawn_palI : s.drawn.palI = s.palI := rfl
@[simp] theorem State.drawn_runActive : s.drawn.runActive = s.runActive := rfl
@[simp] theorem State.drawn_runColor : s.drawn.runColor = s.runColor := rfl
@[simp] theorem State.drawn_runRep : s.drawn.runRep = s.runRep := rfl
@[simp] theorem State.drawn_mem : s.drawn.mem = s.mem := rfl
@[simp] theorem State.drawn_memTop : s.drawn.memTop = s.memTop := rfl
@[simp] theorem State.drawn_memSize : s.drawn.memSize = s.memSize := rfl
@[simp] theorem State.drawn_unseen : s.drawn.unseen = s.unseen := rfl
@[simp] theorem State.drawn_draws : s.drawn.draws = s.draws + 1 := rfl
@[simp] theorem State.drawn_replies : s.drawn.replies = s.replies := rfl
@[simp] theorem State.drawn_agenda : s.drawn.agenda = s.agenda := rfl

end Sys2Proof.Machine
end

