-- ==== Sys2Proof/Laws/Config.lean ====
section
/-! SUPPORT. Facts of the decoded configuration (the values of depths and tile sizes, and that the derived names are positive) and of the preflight checks. -/

namespace Sys2Proof.Machine

/-! ## Depths and tile geometry (spec/00_scope.md R13) -/

theorem CfgRegs.bin_cases (c : CfgRegs) : c.bin = 1 ∨ c.bin = 2 ∨ c.bin = 4 ∨ c.bin = 8 := by
  have h : ∀ s : BitVec 2, (1 <<< s.toNat : Nat) = 1 ∨ (1 <<< s.toNat : Nat) = 2 ∨ (1 <<< s.toNat : Nat) = 4
      ∨ (1 <<< s.toNat : Nat) = 8 := by decide
  exact h c.binSel

theorem CfgRegs.bout_cases (c : CfgRegs) : c.bout = 1 ∨ c.bout = 2 ∨ c.bout = 4 ∨ c.bout = 8 := by
  have h : ∀ s : BitVec 2, (1 <<< s.toNat : Nat) = 1 ∨ (1 <<< s.toNat : Nat) = 2 ∨ (1 <<< s.toNat : Nat) = 4
      ∨ (1 <<< s.toNat : Nat) = 8 := by decide
  exact h c.boutSel

theorem CfgRegs.tw_cases (c : CfgRegs) : c.tw = 8 ∨ c.tw = 16 := by
  have h : ∀ s : BitVec 1, (8 <<< s.toNat : Nat) = 8 ∨ (8 <<< s.toNat : Nat) = 16 := by decide
  exact h c.twSel

theorem CfgRegs.th_cases (c : CfgRegs) : c.th = 8 ∨ c.th = 16 := by
  have h : ∀ s : BitVec 1, (8 <<< s.toNat : Nat) = 8 ∨ (8 <<< s.toNat : Nat) = 16 := by decide
  exact h c.thSel

theorem CfgRegs.bin_pos (c : CfgRegs) : 0 < c.bin := by rcases c.bin_cases with h | h | h | h <;> omega
theorem CfgRegs.bout_pos (c : CfgRegs) : 0 < c.bout := by rcases c.bout_cases with h | h | h | h <;> omega
theorem CfgRegs.mapw_pos (c : CfgRegs) : 0 < c.mapw := Nat.succ_pos _

/-- pIn pixels of Bin bits fill a byte. -/
theorem CfgRegs.pIn_mul_bin (c : CfgRegs) : c.pIn * c.bin = 8 := by
  unfold CfgRegs.pIn; rcases c.bin_cases with h | h | h | h <;> rw [h]

/-- pOut pixels of Bout bits fill a byte. -/
theorem CfgRegs.pOut_mul_bout (c : CfgRegs) : c.pOut * c.bout = 8 := by
  unfold CfgRegs.pOut; rcases c.bout_cases with h | h | h | h <;> rw [h]

theorem CfgRegs.pIn_pos (c : CfgRegs) : 0 < c.pIn := by
  have := c.pIn_mul_bin; by_contra h; have : c.pIn = 0 := by omega
  simp_all

theorem CfgRegs.pOut_pos (c : CfgRegs) : 0 < c.pOut := by
  have := c.pOut_mul_bout; by_contra h; have : c.pOut = 0 := by omega
  simp_all

/-- A tile width is a whole number of bytes at every depth. -/
theorem CfgRegs.twb_mul (c : CfgRegs) : c.twb * 8 = c.tw * c.bin := by
  unfold CfgRegs.twb
  rcases c.tw_cases with h | h <;> rcases c.bin_cases with g | g | g | g <;> rw [h, g]

/-- TILEB is TH rows of TWB bytes. -/
theorem CfgRegs.tileb_eq (c : CfgRegs) : c.tileb = c.th * c.twb := by
  unfold CfgRegs.tileb CfgRegs.twb
  rcases c.tw_cases with h | h <;> rcases c.th_cases with k | k <;> rcases c.bin_cases with g | g | g | g <;> rw [h, k, g]

/-- A tile has TW * TH pixels in its input bytes and in its output bytes. -/
theorem CfgRegs.tileb_pixels (c : CfgRegs) : c.tileb * c.pIn = c.tw * c.th := by
  unfold CfgRegs.tileb CfgRegs.pIn
  rcases c.tw_cases with h | h <;> rcases c.th_cases with k | k <;> rcases c.bin_cases with g | g | g | g <;> rw [h, k, g]

theorem CfgRegs.tileob_pixels (c : CfgRegs) : c.tileob * c.pOut = c.tw * c.th := by
  unfold CfgRegs.tileob CfgRegs.pOut
  rcases c.tw_cases with h | h <;> rcases c.th_cases with k | k <;> rcases c.bout_cases with g | g | g | g <;> rw [h, k, g]

theorem CfgRegs.th_pos (c : CfgRegs) : 0 < c.th := by rcases c.th_cases with h | h <;> omega
theorem CfgRegs.twb_pos (c : CfgRegs) : 0 < c.twb := by
  have := c.twb_mul; rcases c.tw_cases with h | h <;> rcases c.bin_cases with g | g | g | g <;> rw [h, g] at this <;> omega
theorem CfgRegs.tileb_pos (c : CfgRegs) : 0 < c.tileb := by
  rw [c.tileb_eq]; exact Nat.mul_pos c.th_pos c.twb_pos
theorem CfgRegs.tileob_pos (c : CfgRegs) : 0 < c.tileob := by
  have h := c.tileob_pixels
  by_contra h0
  have h0 : c.tileob = 0 := by omega
  rw [h0] at h
  rcases c.tw_cases with k | k <;> rcases c.th_cases with l | l <;> rw [k, l] at h <;> omega

/-! ## Preflight (spec/40_command.md R120 to R124) -/

theorem checkLen_of_fail {c : CfgRegs} (h : lenRemainder c ≠ 0) (hp : c.padMode = false) :
    checkLen c = some (.elen, BitVec.ofNat 32 (lenRemainder c)) := by unfold checkLen; rw [if_pos ⟨h, hp⟩]

theorem checkLen_eq_none (c : CfgRegs) : checkLen c = none ↔ lenRemainder c = 0 ∨ c.padMode = true := by
  unfold checkLen
  split_ifs with h
  · simp [h.1, h.2]
  · simp only [true_iff]
    by_contra hn
    simp only [not_or, Bool.not_eq_true] at hn
    exact h hn

theorem checkGeom_of_fail {c : CfgRegs} (h : geomRemainder c ≠ 0) :
    checkGeom c = some (.egeom, BitVec.ofNat 32 (geomRemainder c)) := by unfold checkGeom; rw [if_pos h]

theorem checkGeom_eq_none (c : CfgRegs) : checkGeom c = none ↔ geomRemainder c = 0 := by
  unfold checkGeom; split_ifs with h <;> simp_all

theorem checkBounds_eq_none (memSize : Nat) (ws : List Window) :
    checkBounds memSize ws = none ↔ ∀ w ∈ ws, w.base + w.length ≤ memSize := by
  unfold checkBounds
  simp [List.find?_eq_none, Window.overruns]

/-- Preflight passes only if every active window fits. -/
theorem bounds_of_preflight {memSize : Nat} {op : Lop} {c : CfgRegs} (h : preflightError memSize op c = none) :
    ∀ w ∈ activeWindows op c, w.base + w.length ≤ memSize := by
  unfold preflightError at h
  simp only [Option.or_eq_none_iff] at h
  exact (checkBounds_eq_none _ _).1 h.1

/-- Preflight passes only if no two active windows conflict. -/
theorem overlap_of_preflight {memSize : Nat} {op : Lop} {c : CfgRegs} (h : preflightError memSize op c = none) :
    firstConflict (activeWindows op c) = none := by
  unfold preflightError at h
  simp only [Option.or_eq_none_iff, checkOverlap, Option.map_eq_none_iff] at h
  exact h.2.1

/-- Preflight passes only if the command's own check does. -/
theorem own_of_preflight {memSize : Nat} {op : Lop} {c : CfgRegs} (h : preflightError memSize op c = none) :
    checkOwn op c = none := by
  unfold preflightError at h
  simp only [Option.or_eq_none_iff] at h
  exact h.2.2

/-- Which errors preflight raises. -/
theorem preflightError_code {memSize : Nat} {op : Lop} {c : CfgRegs} {e : ErrCode} {i : Word}
    (h : preflightError memSize op c = some (e, i)) :
    e = .ewindow ∨ (e = .elen ∧ op = .repackLin) ∨ (e = .egeom ∧ op = .repackTile) := by
  unfold preflightError at h
  simp only [Option.or_eq_some_iff] at h
  rcases h with h | ⟨-, h | ⟨-, h⟩⟩
  · obtain ⟨w, -, hw⟩ := Option.map_eq_some_iff.1 h
    simp only [Prod.mk.injEq] at hw; exact .inl hw.1.symm
  · obtain ⟨w, -, hw⟩ := Option.map_eq_some_iff.1 h
    simp only [Prod.mk.injEq] at hw; exact .inl hw.1.symm
  · cases op with
    | repackLin =>
      simp only [checkOwn, checkLen] at h
      split at h
      · simp only [Option.some.injEq, Prod.mk.injEq] at h; exact .inr (.inl ⟨h.1.symm, rfl⟩)
      · cases h
    | repackTile =>
      simp only [checkOwn, checkGeom] at h
      split at h
      · simp only [Option.some.injEq, Prod.mk.injEq] at h; exact .inr (.inr ⟨h.1.symm, rfl⟩)
      · cases h
    | rleEnc => cases h

/-- What the preflight step can do. -/
theorem stepPre_cases (s : State) :
    (∃ e i, preflightError s.memSize s.lop s.latched = some (e, i) ∧ stepPre s = .ended (s.completeErr e i)) ∨
    (preflightError s.memSize s.lop s.latched = none
      ∧ stepPre s = .go { s with phase := firstPhase s.lop s.latched }) := by
  unfold stepPre raise
  cases h : preflightError s.memSize s.lop s.latched with
  | none => exact .inr ⟨rfl, rfl⟩
  | some p => exact .inl ⟨p.1, p.2, rfl, rfl⟩

end Sys2Proof.Machine
end

