-- ==== Sys2Proof/Laws/Memory.lean ====
section
/-! SUPPORT. Laws of buffer memory: read after write, the frame of a write, and the canonical form. -/

namespace Sys2Proof.Machine

@[simp] theorem Memory.read_nil (a : Nat) : Memory.read [] a = none := rfl

theorem Memory.read_cons (k : Nat) (v : Byte) (m : Memory) (a : Nat) :
    Memory.read ((k, v) :: m) a = if a = k then some v else Memory.read m a := rfl

/-- Reading the byte just written gives the value written. -/
@[simp] theorem Memory.read_write_same (m : Memory) (a : Nat) (v : Byte) : (Memory.write m a v).read a = some v := by
  induction m with
  | nil => simp [Memory.write, Memory.read]
  | cons c m ih =>
    obtain ⟨k, w⟩ := c
    simp only [Memory.write]
    split_ifs with h1 h2
    · simp [Memory.read]
    · simp [Memory.read]
    · simpa [Memory.read, h2] using ih

/-- A write leaves every other byte alone. -/
theorem Memory.read_write_ne (m : Memory) {a b : Nat} (v : Byte) (h : b ≠ a) :
    (Memory.write m a v).read b = m.read b := by
  induction m with
  | nil => simp [Memory.write, Memory.read, h]
  | cons c m ih =>
    obtain ⟨k, w⟩ := c
    simp only [Memory.write]
    split_ifs with h1 h2
    · simp [Memory.read, h]
    · subst h2; simp [Memory.read, h]
    · simp [Memory.read, ih]

theorem Memory.read_write (m : Memory) (a b : Nat) (v : Byte) :
    (Memory.write m a v).read b = if b = a then some v else m.read b := by
  split_ifs with h
  · subst h; simp
  · exact Memory.read_write_ne m v h

/-- The cells after a write: the new one, or an old one at another address. -/
theorem Memory.mem_write {m : Memory} {a : Nat} {v : Byte} {c : Host.Cell} (h : c ∈ Memory.write m a v) :
    c = (a, v) ∨ c ∈ m := by
  induction m with
  | nil => simpa [Memory.write] using h
  | cons d m ih =>
    obtain ⟨k, w⟩ := d
    simp only [Memory.write] at h
    split_ifs at h with h1 h2
    · simpa using h
    · simp only [List.mem_cons] at h ⊢; tauto
    · simp only [List.mem_cons] at h ⊢
      rcases h with h | h
      · exact .inr (.inl h)
      · rcases ih h with h | h
        · exact .inl h
        · exact .inr (.inr h)

/-- A write keeps the canonical form. -/
theorem Memory.wf_write {m : Memory} (h : m.wf) (a : Nat) (v : Byte) : (Memory.write m a v).wf := by
  induction m with
  | nil => simp [Memory.write, Memory.wf]
  | cons d m ih =>
    obtain ⟨k, w⟩ := d
    have hp := List.pairwise_cons.1 h
    simp only [Memory.write]
    split_ifs with h1 h2
    · refine List.pairwise_cons.2 ⟨fun c hc => ?_, h⟩
      rcases List.mem_cons.1 hc with rfl | hc
      · exact h1
      · exact Nat.lt_trans h1 (hp.1 c hc)
    · subst h2
      exact List.pairwise_cons.2 ⟨hp.1, hp.2⟩
    · refine List.pairwise_cons.2 ⟨fun c hc => ?_, ih hp.2⟩
      rcases Memory.mem_write hc with rfl | hc
      · show k < a; omega
      · exact hp.1 c hc

theorem Memory.leaveResidue_cons (k : Nat) (v : Byte) (m : Memory) (ws : List Window) (n : Nat) :
    Memory.leaveResidue ((k, v) :: m) ws n
      = (k, if ws.any (·.contains k) then Config.residue n k else v) :: Memory.leaveResidue m ws n := by
  unfold Memory.leaveResidue
  rw [List.map_cons]
  congr 1
  show (if ws.any (·.contains k) then (k, Config.residue n k) else (k, v)) = _
  split_ifs <;> rfl

/-- What a byte reads as after a warm reset of a running command: the same bytes are written, and those inside the
windows take the free value. -/
theorem Memory.read_leaveResidue (m : Memory) (ws : List Window) (n a : Nat) :
    (m.leaveResidue ws n).read a
      = (m.read a).map fun b => if ws.any (·.contains a) then Config.residue n a else b := by
  induction m with
  | nil => rfl
  | cons d m ih =>
    obtain ⟨k, w⟩ := d
    rw [Memory.leaveResidue_cons, Memory.read_cons, Memory.read_cons]
    by_cases ha : a = k
    · subst ha; simp
    · rw [if_neg ha, if_neg ha]; exact ih

/-- A warm reset's residue keeps the canonical form. -/
theorem Memory.wf_leaveResidue {m : Memory} (h : m.wf) (ws : List Window) (n : Nat) : (m.leaveResidue ws n).wf := by
  refine List.pairwise_map.2 (List.Pairwise.imp (fun {x y} hxy => ?_) h)
  split_ifs <;> exact hxy

theorem Memory.mem_leaveResidue {m : Memory} {ws : List Window} {n : Nat} {c : Host.Cell}
    (h : c ∈ m.leaveResidue ws n) : ∃ d ∈ m, d.1 = c.1 := by
  obtain ⟨d, hd, rfl⟩ := List.mem_map.1 h
  exact ⟨d, hd, by split_ifs <;> rfl⟩

/-- On a canonical memory a written byte is a listed one. -/
theorem Memory.read_eq_none_of_lt {m : Memory} {a : Nat} (h : ∀ c ∈ m, a < c.1) : m.read a = none := by
  induction m with
  | nil => rfl
  | cons d m ih =>
    obtain ⟨k, w⟩ := d
    have hk : a < k := h (k, w) (by simp)
    rw [Memory.read_cons, if_neg (by omega)]
    exact ih fun c hc => h c (by simp [hc])

theorem Memory.mem_of_read {m : Memory} {a : Nat} {b : Byte} (h : m.read a = some b) : (a, b) ∈ m := by
  induction m with
  | nil => simp at h
  | cons d m ih =>
    obtain ⟨k, w⟩ := d
    rw [Memory.read_cons] at h
    split_ifs at h with ha
    · subst ha; simp only [Option.some.injEq] at h; subst h; simp
    · exact List.mem_cons_of_mem _ (ih h)

/-- Two canonical memories that read alike everywhere are the same list. -/
theorem Memory.ext_of_wf {m n : Memory} (hm : m.wf) (hn : n.wf) (h : ∀ a, m.read a = n.read a) : m = n := by
  induction m generalizing n with
  | nil =>
    cases n with
    | nil => rfl
    | cons d n => obtain ⟨k, w⟩ := d; have := h k; simp [Memory.read] at this
  | cons c m ih =>
    obtain ⟨k, v⟩ := c
    cases n with
    | nil => have := h k; simp [Memory.read] at this
    | cons d n =>
      obtain ⟨l, w⟩ := d
      have pm := List.pairwise_cons.1 hm
      have pn := List.pairwise_cons.1 hn
      have hkl : k = l := by
        rcases Nat.lt_trichotomy k l with hlt | heq | hgt
        · have h1 := h k
          rw [Memory.read_cons, if_pos rfl, Memory.read_cons, if_neg (by omega),
            Memory.read_eq_none_of_lt fun c hc => Nat.lt_trans hlt (pn.1 c hc)] at h1
          simp at h1
        · exact heq
        · have h1 := h l
          rw [Memory.read_cons, if_neg (by omega), Memory.read_cons, if_pos rfl,
            Memory.read_eq_none_of_lt fun c hc => Nat.lt_trans hgt (pm.1 c hc)] at h1
          simp at h1
      subst hkl
      have hv : v = w := by simpa [Memory.read] using h k
      subst hv
      have htail : ∀ a, Memory.read m a = Memory.read n a := fun a => by
        by_cases ha : a = k
        · subst ha
          rw [Memory.read_eq_none_of_lt pm.1, Memory.read_eq_none_of_lt pn.1]
        · have := h a
          simpa [Memory.read, ha] using this
      rw [ih pm.2 pn.2 htail]

end Sys2Proof.Machine
end

