-- ==== Sys2Proof/Laws/Ops.lean ====
section
/-! SUPPORT. What each shared operation can do, said once: inversion lemmas and the equations of the cases. -/

namespace Sys2Proof.Machine

/-! ## Progress -/

@[simp] theorem Progress.go_andThen (s : State) (k : State → Progress) : (Progress.go s).andThen k = k s := rfl
@[simp] theorem Progress.ended_andThen (s : State) (k : State → Progress) : (Progress.ended s).andThen k = .ended s := rfl
@[simp] theorem Progress.stop_andThen (r : Fault) (k : State → Progress) : (Progress.stop r).andThen k = .stop r := rfl
@[simp] theorem Progress.go_outcome (s : State) : (Progress.go s).outcome = .next s := rfl
@[simp] theorem Progress.ended_outcome (s : State) : (Progress.ended s).outcome = .next s := rfl
@[simp] theorem Progress.stop_outcome (r : Fault) : (Progress.stop r).outcome = .fault r := rfl

theorem Progress.andThen_eq_go {p : Progress} {k : State → Progress} {t : State} (h : p.andThen k = .go t) :
    ∃ u, p = .go u ∧ k u = .go t := by
  cases p with
  | go u => exact ⟨u, rfl, h⟩
  | ended u => cases h
  | stop r => cases h

theorem Progress.andThen_eq_ended {p : Progress} {k : State → Progress} {t : State} (h : p.andThen k = .ended t) :
    p = .ended t ∨ ∃ u, p = .go u ∧ k u = .ended t := by
  cases p with
  | go u => exact .inr ⟨u, rfl, h⟩
  | ended u => exact .inl h
  | stop r => cases h

theorem Progress.andThen_eq_stop {p : Progress} {k : State → Progress} {r : Fault} (h : p.andThen k = .stop r) :
    p = .stop r ∨ ∃ u, p = .go u ∧ k u = .stop r := by
  cases p with
  | go u => exact .inr ⟨u, rfl, h⟩
  | ended u => cases h
  | stop q => exact .inl h

/-- A next state comes from a part that went on or from a raise. -/
theorem Progress.outcome_eq_next {p : Progress} {t : State} (h : p.outcome = .next t) : p = .go t ∨ p = .ended t := by
  cases p with
  | go u => cases h; exact .inl rfl
  | ended u => cases h; exact .inr rfl
  | stop r => cases h

theorem Progress.outcome_eq_fault {p : Progress} {r : Fault} (h : p.outcome = .fault r) : p = .stop r := by
  cases p with
  | go u => cases h
  | ended u => cases h
  | stop q => cases h; rfl

/-- An engine step is never refused. -/
theorem Progress.outcome_ne_refused (p : Progress) (r : Refusal) : p.outcome ≠ .refused r := by
  cases p <;> simp [Progress.outcome]

/-! ## Engine accesses -/

theorem engineRead_cases (a : Nat) (s : State) (k : Byte → Progress) :
    (s.memSize ≤ a ∧ engineRead a s k = .stop (.outsideBufferMemory a)) ∨
    (a < s.memSize ∧ s.mem.read a = none ∧ engineRead a s k = .stop (.unwrittenRead a)) ∨
    (∃ b, a < s.memSize ∧ s.mem.read a = some b ∧ engineRead a s k = k b) := by
  unfold engineRead
  split_ifs with h
  · exact .inl ⟨h, rfl⟩
  · right
    cases hr : s.mem.read a with
    | none => exact .inl ⟨by omega, rfl, rfl⟩
    | some b => exact .inr ⟨b, by omega, rfl, rfl⟩

theorem engineRead_eq {a : Nat} {s : State} {b : Byte} (ha : a < s.memSize) (hb : s.mem.read a = some b)
    (k : Byte → Progress) : engineRead a s k = k b := by
  unfold engineRead
  rw [if_neg (by omega), hb]

/-- What a checked destination write can do. -/
theorem dstWrite_cases (v : Byte) (s : State) :
    (s.outCount = s.latched.dstCap ∧ dstWrite v s = .ended (s.completeErr .edstovf s.outCount)) ∨
    (s.outCount ≠ s.latched.dstCap ∧ s.memSize ≤ s.dstAddr ∧ dstWrite v s = .stop (.outsideBufferMemory s.dstAddr)) ∨
    (s.outCount ≠ s.latched.dstCap ∧ s.dstAddr < s.memSize ∧ dstWrite v s = .go (s.store s.dstAddr v).countOut) := by
  unfold dstWrite engineWrite raise
  split_ifs with h1 h2
  · exact .inl ⟨h1, rfl⟩
  · exact .inr (.inl ⟨h1, h2, rfl⟩)
  · exact .inr (.inr ⟨h1, by omega, rfl⟩)

theorem dstWrite_eq {s : State} (h : s.outCount ≠ s.latched.dstCap) (ha : s.dstAddr < s.memSize) (v : Byte) :
    dstWrite v s = .go (s.store s.dstAddr v).countOut := by
  unfold dstWrite engineWrite
  rw [if_neg h, if_neg (by omega)]
  rfl

theorem dstWrite_full {s : State} (h : s.outCount = s.latched.dstCap) (v : Byte) :
    dstWrite v s = .ended (s.completeErr .edstovf s.outCount) := by
  unfold dstWrite raise
  rw [if_pos h]

/-- What a checked palette-index write can do. -/
theorem idxWrite_cases (v : Byte) (s : State) :
    (s.idxCount = s.latched.idxCap ∧ idxWrite v s = .ended (s.completeErr .eidxovf s.idxCount)) ∨
    (s.idxCount ≠ s.latched.idxCap ∧ s.memSize ≤ s.idxAddr ∧ idxWrite v s = .stop (.outsideBufferMemory s.idxAddr)) ∨
    (s.idxCount ≠ s.latched.idxCap ∧ s.idxAddr < s.memSize ∧ idxWrite v s = .go (s.store s.idxAddr v).countIdx) := by
  unfold idxWrite engineWrite raise
  split_ifs with h1 h2
  · exact .inl ⟨h1, rfl⟩
  · exact .inr (.inl ⟨h1, h2, rfl⟩)
  · exact .inr (.inr ⟨h1, by omega, rfl⟩)

theorem idxWrite_eq {s : State} (h : s.idxCount ≠ s.latched.idxCap) (ha : s.idxAddr < s.memSize) (v : Byte) :
    idxWrite v s = .go (s.store s.idxAddr v).countIdx := by
  unfold idxWrite engineWrite
  rw [if_neg h, if_neg (by omega)]
  rfl

/-! ## Busy and idle -/

theorem State.busy_iff (s : State) : s.busy = true ↔ s.phase ≠ .idle := by simp [State.busy]
theorem State.not_busy_iff (s : State) : s.busy = false ↔ s.phase = .idle := by simp [State.busy]

/-- The fields `start` sets, with the rest of the state kept (spec/40_command.md R117). -/
theorem State.start_eq (op : Lop) (s : State) : s.start op = s.clearForStart.latchAndEnter op := rfl

/-! ## The step, by who moves -/

theorem engineTurn_busy {s : State} (h : s.busy = true) : engineTurn s = (engineStep s).outcome := by
  simp [engineTurn, h]

theorem engineTurn_idle {s : State} (h : s.busy = false) : engineTurn s = .next s := by simp [engineTurn, h]

theorem step_nil {s : State} (h : s.agenda = []) : step s = engineTurn s := by simp [step, h]

theorem step_cons {s : State} {e : Event} {rest : List Event} (h : s.agenda = e :: rest) :
    step s = takeEvent e { s with agenda := rest } := by simp [step, h]

/-- What a host register write can do. -/
theorem hostWrite_cases (off : BitVec 8) (v : Word) (s : State) :
    (off.toNat % 4 ≠ 0 ∧ hostWrite off v s = .refused (.platformSubword off)) ∨
    (Reg.atOffset off = some .cmd ∧ hostWrite off v s = issue v s) ∨
    (∃ r, r ≠ .cmd ∧ Reg.atOffset off = some r ∧ hostWrite off v s = .next (s.writeReg r v)) ∨
    (Reg.atOffset off = none ∧ hostWrite off v s = .next s) := by
  unfold hostWrite
  split_ifs with h
  · exact .inl ⟨h, rfl⟩
  · right
    cases hr : Reg.atOffset off with
    | none => exact .inr (.inr ⟨rfl, rfl⟩)
    | some r =>
      by_cases hc : r = .cmd
      · subst hc; exact .inl ⟨rfl, rfl⟩
      · refine .inr (.inl ⟨r, hc, rfl, ?_⟩)
        cases r <;> first | rfl | exact absurd rfl hc

/-- A host register read changes nothing but the replies, the count of free values and the unseen outputs. -/
theorem hostRead_cases (off : BitVec 8) (s : State) :
    hostRead off s = .refused (.platformSubword off) ∨
    (∃ v, hostRead off s = .next (s.settle.reply (.word off v))) ∨
    (∃ v, hostRead off s = .next (s.drawn.reply (.word off v))) ∨
    (∃ v, hostRead off s = .next (s.reply (.word off v))) := by
  unfold hostRead
  split_ifs with h
  · exact .inl rfl
  · right
    split
    · exact .inl ⟨_, rfl⟩
    · split_ifs
      · exact .inr (.inl ⟨_, rfl⟩)
      · exact .inr (.inr ⟨_, rfl⟩)
    · exact .inr (.inr ⟨_, rfl⟩)

/-- What a host byte store can do. -/
theorem hostStore_cases (a : Word) (v : Byte) (s : State) :
    (s.memSize ≤ a.toNat ∧ hostStore a v s = .next s) ∨
    (a.toNat < s.memSize ∧ s.runningWindows.any (·.contains a.toNat) = true
      ∧ hostStore a v s = .fault (.hostWindowWrite a.toNat)) ∨
    (a.toNat < s.memSize ∧ s.runningWindows.any (·.contains a.toNat) = false
      ∧ hostStore a v s = .next (s.store a.toNat v)) := by
  unfold hostStore
  split_ifs with h1 h2
  · exact .inl ⟨h1, rfl⟩
  · exact .inr (.inl ⟨by omega, h2, rfl⟩)
  · exact .inr (.inr ⟨by omega, by simpa using h2, rfl⟩)

/-- What a host byte load can do. -/
theorem hostLoad_cases (a : Word) (s : State) :
    (s.memSize ≤ a.toNat ∧ hostLoad a s = .next s) ∨
    (∃ v, hostLoad a s = .next (s.drawn.reply (.byte a v))) ∨ (∃ v, hostLoad a s = .next (s.reply (.byte a v))) := by
  unfold hostLoad
  split_ifs with h1 h2
  · exact .inl ⟨h1, rfl⟩
  · exact .inr (.inl ⟨_, rfl⟩)
  · cases s.mem.read a.toNat with
    | none => exact .inr (.inl ⟨_, rfl⟩)
    | some b => exact .inr (.inr ⟨_, rfl⟩)

/-- What a CMD write can do: every next state is the same state, a rejection, an abort request, a start or ECMD. -/
theorem issue_cases (w : Word) (s : State) :
    issue w s = .next s ∨ (s.busy = true ∧ issue w s = .next s.reject) ∨ (s.busy = true ∧ issue w s = .next s.requestAbort) ∨
    (s.busy = false ∧ ∃ op, issue w s = .next (s.start op)) ∨
    (s.busy = false ∧ issue w s = .next (s.clearForStart.completeErr .ecmd w)) := by
  unfold issue
  cases hd : decode w with
  | error e => cases hb : s.busy <;> simp [State.reservedWord, hb]
  | ok i =>
    cases hb : s.busy <;> cases i <;>
      simp only [exec, execNop, execAbort, execRepackLin, execRepackTile, execRleEnc, startOrReject, hb,
        Bool.false_eq_true, if_true, if_false, true_and, false_and, false_or, true_or, or_true, Host.Outcome.next.injEq]
    · exact .inr (.inl ⟨_, rfl⟩)
    · exact .inr (.inl ⟨_, rfl⟩)
    · exact .inr (.inl ⟨_, rfl⟩)

/-- A starting command is rejected while busy and starts while idle (spec/40_command.md R113). -/
theorem startOrReject_cases (op : Lop) (s : State) :
    (s.busy = true ∧ startOrReject op s = .next s.reject) ∨ (s.busy = false ∧ startOrReject op s = .next (s.start op)) := by
  unfold startOrReject
  cases hb : s.busy <;> simp

/-- One poll of the `wait` loop: an engine turn while busy, else the STATUS read that ends it. -/
theorem waitTurn_cases (s : State) :
    (s.busy = true ∧ waitTurn s = engineTurn { s with agenda := .waitIdle :: s.agenda }) ∨
    (s.busy = false ∧ waitTurn s = hostRead (Reg.offset .status) s) := by
  unfold waitTurn
  cases hb : s.busy <;> simp

/-- A counter below its bound counts up without wrapping. -/
theorem toNat_add_one_of_ne {a b : Word} (h : a ≠ b) (hle : a.toNat ≤ b.toNat) :
    (a + 1).toNat = a.toNat + 1 ∧ a.toNat < b.toNat := by
  have hne : a.toNat ≠ b.toNat := fun hh => h (BitVec.eq_of_toNat_eq hh)
  have hb := b.isLt
  refine ⟨?_, by omega⟩
  rw [BitVec.toNat_add, show (1 : Word).toNat = 1 from rfl]
  omega

/-! ## Runs of engine turns -/

@[simp] theorem engineRun_zero (s : State) : engineRun 0 s = .next s := rfl

theorem engineRun_succ {s t : State} (h : engineTurn s = .next t) (n : Nat) : engineRun (n + 1) s = engineRun n t := by
  simp [engineRun, h]

/-- Runs add up. -/
theorem engineRun_add {n : Nat} {s t : State} (h : engineRun n s = .next t) (k : Nat) :
    engineRun (n + k) s = engineRun k t := by
  induction n generalizing s with
  | zero => cases h; rw [Nat.zero_add]
  | succ n ih =>
    rw [Nat.succ_add]
    cases hs : engineTurn s with
    | next u => rw [engineRun_succ hs] at h ⊢; exact ih h
    | fault r => simp [engineRun, hs] at h
    | refused r => simp [engineRun, hs] at h

/-- An idle block stays as it is, whatever the number of turns. -/
theorem engineRun_idle {s : State} (h : s.busy = false) (n : Nat) : engineRun n s = .next s := by
  induction n with
  | zero => rfl
  | succ n ih => rw [engineRun_succ (engineTurn_idle h)]; exact ih

end Sys2Proof.Machine
end

