-- ==== Sys2Proof/Laws/Engine.lean ====
section
/-! SUPPORT. What an engine step can do in each phase, said once. -/

namespace Sys2Proof.Machine

/-! ## Which step is taken -/

theorem engineTurn_abort {s : State} (hb : s.phase ≠ .idle) (ha : s.abortReq = true) :
    engineTurn s = .next (s.completeErr .eabort 0) := by
  simp [engineTurn, State.busy, hb, engineStep, ha, raise]

theorem engineTurn_phase {s : State} (hb : s.phase ≠ .idle) (ha : s.abortReq = false) :
    engineTurn s = (phaseStep s).outcome := by
  simp [engineTurn, State.busy, hb, engineStep, ha]

/-- A turn passes while idle, is the abort, or is the step of the phase. -/
theorem engineTurn_cases (s : State) :
    (s.phase = .idle ∧ engineTurn s = .next s) ∨
    (s.phase ≠ .idle ∧ s.abortReq = true ∧ engineTurn s = .next (s.completeErr .eabort 0)) ∨
    (s.phase ≠ .idle ∧ s.abortReq = false ∧ engineTurn s = (phaseStep s).outcome) := by
  by_cases hb : s.phase = .idle
  · exact .inl ⟨hb, engineTurn_idle (by simp [State.busy, hb])⟩
  · cases ha : s.abortReq with
    | true => exact .inr (.inl ⟨hb, rfl, engineTurn_abort hb ha⟩)
    | false => exact .inr (.inr ⟨hb, rfl, engineTurn_phase hb ha⟩)

/-! ## Repacker -/

@[simp] theorem State.movePixel_dstAddr (s : State) : s.movePixel.dstAddr = s.dstAddr := rfl
@[simp] theorem State.countIn_dstAddr (s : State) : s.countIn.dstAddr = s.dstAddr := rfl
@[simp] theorem State.countIn_idxAddr (s : State) : s.countIn.idxAddr = s.idxAddr := rfl

/-- The state after a completed output byte is written (spec/41_repack.md R163). -/
def State.byteDone (s : State) : State := (s.movePixel.store s.dstAddr s.movePixel.acc).countOut.clearAcc.countTile

/-- What one pixel can do. -/
theorem pixelStep_cases (s : State) :
    (s.accN + 1 ≠ s.latched.pOut ∧ pixelStep s = .go s.movePixel) ∨
    (s.accN + 1 = s.latched.pOut ∧ s.outCount = s.latched.dstCap
      ∧ pixelStep s = .ended (s.movePixel.completeErr .edstovf s.outCount)) ∨
    (s.accN + 1 = s.latched.pOut ∧ s.outCount ≠ s.latched.dstCap ∧ s.memSize ≤ s.dstAddr
      ∧ pixelStep s = .stop (.outsideBufferMemory s.dstAddr)) ∨
    (s.accN + 1 = s.latched.pOut ∧ s.outCount ≠ s.latched.dstCap ∧ s.dstAddr < s.memSize
      ∧ pixelStep s = .go s.byteDone) := by
  unfold pixelStep
  by_cases h : s.accN + 1 = s.latched.pOut
  · right
    rw [if_pos (by simpa using h)]
    rcases dstWrite_cases s.movePixel.acc s.movePixel with ⟨h1, h2⟩ | ⟨h1, h2, h3⟩ | ⟨h1, h2, h3⟩
    · exact .inl ⟨h, h1, by rw [h2]; rfl⟩
    · exact .inr (.inl ⟨h, h1, h2, by rw [h3]; rfl⟩)
    · exact .inr (.inr ⟨h, h1, h2, by rw [h3]; rfl⟩)
  · exact .inl ⟨h, if_neg (by simpa using h)⟩

/-- Where the next source byte is read (spec/41_repack.md R157, R159). -/
def State.srcAddr (s : State) : Nat := s.latched.srcBase.toNat + readOffset s.lop s.latched s.inCount.toNat

/-- What a fetch can do. -/
theorem fetchByte_cases (s : State) :
    (s.lop = .repackTile ∧ s.latched.srcLen.toNat ≤ readOffset s.lop s.latched s.inCount.toNat
      ∧ fetchByte s = .ended
          (s.completeErr .etrunc (BitVec.ofNat 32 (readOffset s.lop s.latched s.inCount.toNat)))) ∨
    (¬(s.lop = .repackTile ∧ s.latched.srcLen.toNat ≤ readOffset s.lop s.latched s.inCount.toNat) ∧
      ((s.memSize ≤ s.srcAddr ∧ fetchByte s = .stop (.outsideBufferMemory s.srcAddr)) ∨
      (s.srcAddr < s.memSize ∧ s.mem.read s.srcAddr = none ∧ fetchByte s = .stop (.unwrittenRead s.srcAddr)) ∨
      ∃ b, s.srcAddr < s.memSize ∧ s.mem.read s.srcAddr = some b ∧
        ((s.startsTile = false ∧ fetchByte s = .go (s.countIn.loadByte b)) ∨
        (s.startsTile = true ∧ s.idxCount = s.latched.idxCap
          ∧ fetchByte s = .ended (s.countIn.completeErr .eidxovf s.idxCount)) ∨
        (s.startsTile = true ∧ s.idxCount ≠ s.latched.idxCap ∧ s.memSize ≤ s.idxAddr
          ∧ fetchByte s = .stop (.outsideBufferMemory s.idxAddr)) ∨
        (s.startsTile = true ∧ s.idxCount ≠ s.latched.idxCap ∧ s.idxAddr < s.memSize
          ∧ fetchByte s = .go ((s.countIn.store s.idxAddr (paletteIndex b)).countIdx.loadByte b))))) := by
  by_cases h : s.lop = .repackTile ∧ s.latched.srcLen.toNat ≤ readOffset s.lop s.latched s.inCount.toNat
  · exact .inl ⟨h.1, h.2, by unfold fetchByte; rw [if_pos h]; rfl⟩
  · refine .inr ⟨h, ?_⟩
    have hf : fetchByte s = engineRead s.srcAddr s fun b => (if s.startsTile then idxWrite (paletteIndex b) s.countIn
        else .go s.countIn).andThen fun t => .go (t.loadByte b) := by
      unfold fetchByte; rw [if_neg h]; rfl
    rw [hf]
    rcases engineRead_cases s.srcAddr s fun b => (if s.startsTile then idxWrite (paletteIndex b) s.countIn
        else .go s.countIn).andThen fun t => .go (t.loadByte b) with ⟨h1, h2⟩ | ⟨h1, h2, h3⟩ | ⟨b, h1, h2, h3⟩
    · exact .inl ⟨h1, h2⟩
    · exact .inr (.inl ⟨h1, h2, h3⟩)
    · refine .inr (.inr ⟨b, h1, h2, ?_⟩)
      rw [h3]
      cases ht : s.startsTile with
      | false => exact .inl ⟨rfl, rfl⟩
      | true =>
        right
        rcases idxWrite_cases (paletteIndex b) s.countIn with ⟨g1, g2⟩ | ⟨g1, g2, g3⟩ | ⟨g1, g2, g3⟩
        · exact .inl ⟨rfl, g1, by rw [if_pos rfl, g2]; rfl⟩
        · exact .inr (.inl ⟨rfl, g1, g2, by rw [if_pos rfl, g3]; rfl⟩)
        · exact .inr (.inr ⟨rfl, g1, g2, by rw [if_pos rfl, g3]; rfl⟩)

/-- What the final step can do. -/
theorem repackFinal_cases (s : State) :
    (s.accN = 0 ∧ repackFinal s = .go s.completeOk) ∨
    (s.accN ≠ 0 ∧ s.outCount = s.latched.dstCap ∧ repackFinal s = .ended (s.padAcc.completeErr .edstovf s.outCount)) ∨
    (s.accN ≠ 0 ∧ s.outCount ≠ s.latched.dstCap ∧ s.memSize ≤ s.dstAddr
      ∧ repackFinal s = .stop (.outsideBufferMemory s.dstAddr)) ∨
    (s.accN ≠ 0 ∧ s.outCount ≠ s.latched.dstCap ∧ s.dstAddr < s.memSize
      ∧ repackFinal s = .go (s.padAcc.store s.dstAddr s.padAcc.acc).countOut.setPadded.clearAcc.completeOk) := by
  unfold repackFinal
  by_cases h : s.accN = 0
  · exact .inl ⟨h, by rw [if_neg (by simpa using h)]⟩
  · right
    rw [if_pos h]
    rcases dstWrite_cases s.padAcc.acc s.padAcc with
      ⟨h1, h2⟩ | ⟨h1, h2, h3⟩ | ⟨h1, h2, h3⟩
    · exact .inl ⟨h, h1, by rw [h2]; rfl⟩
    · exact .inr (.inl ⟨h, h1, h2, by rw [h3]; rfl⟩)
    · exact .inr (.inr ⟨h, h1, h2, by rw [h3]; rfl⟩)

/-- Which part of the repack step is taken. -/
theorem stepRepack_cases (s : State) :
    (s.inLeft = 0 ∧ s.inCount = s.latched.srcLen ∧ stepRepack s = repackFinal s) ∨
    (s.inLeft = 0 ∧ s.inCount ≠ s.latched.srcLen ∧ stepRepack s = (fetchByte s).andThen pixelStep) ∨
    (s.inLeft ≠ 0 ∧ stepRepack s = pixelStep s) := by
  unfold stepRepack
  split_ifs with h1 h2
  · exact .inl ⟨h1, h2, rfl⟩
  · exact .inr (.inl ⟨h1, h2, rfl⟩)
  · exact .inr (.inr ⟨h1, rfl⟩)

/-! ## Run-length encoder -/

/-- What several checked writes can do, from OUT_COUNT within the capacity: all bytes are written in order from
L.DST_BASE + OUT_COUNT, or the first byte past the capacity raises with the bytes before it kept, or the model stops at an
address outside memory. -/
theorem dstWrites_cases (vs : List Byte) (s : State) (h : s.outCount.toNat ≤ s.latched.dstCap.toNat) :
    (∃ m, dstWrites vs s = .go { s with mem := m, outCount := s.outCount + BitVec.ofNat 32 vs.length }
      ∧ s.outCount.toNat + vs.length ≤ s.latched.dstCap.toNat
      ∧ (∀ j (hj : j < vs.length), m.read (s.dstAddr + j) = some vs[j])
      ∧ ∀ a, ¬(s.dstAddr ≤ a ∧ a < s.dstAddr + vs.length) → m.read a = s.mem.read a) ∨
    (∃ m, dstWrites vs s = .ended ({ s with mem := m, outCount := s.latched.dstCap }.completeErr .edstovf s.latched.dstCap)
      ∧ s.latched.dstCap.toNat < s.outCount.toNat + vs.length
      ∧ (∀ j (hj : j < vs.length), s.outCount.toNat + j < s.latched.dstCap.toNat → m.read (s.dstAddr + j) = some vs[j])
      ∧ ∀ a, ¬(s.dstAddr ≤ a ∧ a < s.latched.dstBase.toNat + s.latched.dstCap.toNat) → m.read a = s.mem.read a) ∨
    (∃ a, s.dstAddr ≤ a ∧ a < s.dstAddr + vs.length ∧ a < s.latched.dstBase.toNat + s.latched.dstCap.toNat
      ∧ s.memSize ≤ a ∧ dstWrites vs s = .stop (.outsideBufferMemory a)) := by
  induction vs generalizing s with
  | nil =>
    exact .inl ⟨s.mem, by simp [dstWrites], by simpa using h, by simp, fun _ _ => rfl⟩
  | cons v vs ih =>
    simp only [dstWrites]
    rcases dstWrite_cases v s with ⟨h1, h2⟩ | ⟨h1, h2, h3⟩ | ⟨h1, h2, h3⟩
    · refine .inr (.inl ⟨s.mem, by rw [h2, h1]; simp [← h1], by rw [h1]; simp, fun j _ hj => ?_, fun _ _ => rfl⟩)
      rw [h1] at hj; omega
    · refine .inr (.inr ⟨s.dstAddr, Nat.le_refl _, by simp, ?_, h2, by rw [h3]; rfl⟩)
      have : s.outCount.toNat ≠ s.latched.dstCap.toNat := fun hh => h1 (BitVec.eq_of_toNat_eq hh)
      unfold State.dstAddr; omega
    · have hlt : s.outCount.toNat < s.latched.dstCap.toNat := by
        have : s.outCount.toNat ≠ s.latched.dstCap.toNat := fun hh => h1 (BitVec.eq_of_toNat_eq hh)
        omega
      have hout : (s.outCount + 1).toNat = s.outCount.toNat + 1 := by
        have := s.latched.dstCap.isLt
        rw [BitVec.toNat_add]; simp; omega
      have hout' : (s.store s.dstAddr v).countOut.outCount.toNat = s.outCount.toNat + 1 := hout
      have haddr : (s.store s.dstAddr v).countOut.dstAddr = s.dstAddr + 1 := by
        show s.latched.dstBase.toNat + (s.outCount + 1).toNat = _
        rw [hout]; unfold State.dstAddr; omega
      have hb := ih (s.store s.dstAddr v).countOut (by rw [hout']; exact hlt)
      rw [haddr, hout'] at hb
      rw [h3, Progress.go_andThen]
      rcases hb with ⟨m, g1, g2, g3, g4⟩ | ⟨m, g1, g2, g4, g3⟩ | ⟨a, g1, g2, g3, g4, g5⟩
      · refine .inl ⟨m, ?_, by simp at g2 ⊢; omega, ?_, ?_⟩
        · rw [g1]
          have : s.outCount + 1 + BitVec.ofNat 32 vs.length = s.outCount + BitVec.ofNat 32 (v :: vs).length := by
            apply BitVec.eq_of_toNat_eq; simp [BitVec.toNat_add]; congr 1; omega
          simp only [State.countOut_outCount, State.store_outCount, this]
          rfl
        · intro j hj
          cases j with
          | zero =>
            rw [g4 _ (by omega)]
            simp
          | succ j =>
            have := g3 j (by simpa using hj)
            rw [show s.dstAddr + 1 + j = s.dstAddr + (j + 1) by omega] at this
            simpa using this
        · intro a ha
          simp only [List.length_cons] at ha
          rw [g4 a (by omega)]
          exact Memory.read_write_ne _ _ (by omega)
      · have ha' : s.latched.dstBase.toNat + s.latched.dstCap.toNat > s.dstAddr := by unfold State.dstAddr; omega
        refine .inr (.inl ⟨m, by rw [g1]; rfl, by simp at g2 ⊢; omega, fun j hj hc => ?_, fun a ha => ?_⟩)
        · cases j with
          | zero =>
            rw [g3 _ (by omega)]
            simp
          | succ j =>
            have := g4 j (by simpa using hj) (by simpa using by omega)
            rw [show s.dstAddr + 1 + j = s.dstAddr + (j + 1) by omega] at this
            simpa using this
        · rw [g3 a (by simp only [State.countOut_latched, State.store_latched]; omega)]
          exact Memory.read_write_ne _ _ (by omega)
      · exact .inr (.inr ⟨a, by omega, by simp only [List.length_cons]; omega, g3, g4, g5⟩)

/-- A token is one or two bytes. -/
theorem tokenBytes_length (c : Nibble) (r : Byte) : (tokenBytes c r).length = if r.toNat < 15 then 1 else 2 := by
  unfold tokenBytes; split_ifs <;> rfl

/-- What one source colour can do. -/
theorem takeColor_cases (c : Nibble) (s : State) :
    (s.runActive = false ∧ takeColor c s = .go (s.openRun c)) ∨
    (s.runActive = true ∧ c = s.runColor ∧ s.runRep.toNat < 255 ∧ takeColor c s = .go s.extendRun) ∨
    (s.runActive = true ∧ ¬(c = s.runColor ∧ s.runRep.toNat < 255)
      ∧ takeColor c s = (emitRun s).andThen fun t => .go (t.seedRun c)) := by
  unfold takeColor
  split_ifs with h1 h2
  · exact .inl ⟨h1, rfl⟩
  · exact .inr (.inl ⟨by simpa using h1, h2.1, h2.2, rfl⟩)
  · exact .inr (.inr ⟨by simpa using h1, h2, rfl⟩)

/-- What the header step can do. -/
theorem stepRleHdr_cases (s : State) :
    (s.outCount = s.latched.dstCap ∧ stepRleHdr s = .ended (s.completeErr .edstovf s.outCount)) ∨
    (s.outCount ≠ s.latched.dstCap ∧ s.memSize ≤ s.dstAddr ∧ stepRleHdr s = .stop (.outsideBufferMemory s.dstAddr)) ∨
    (s.outCount ≠ s.latched.dstCap ∧ s.dstAddr < s.memSize
      ∧ stepRleHdr s = .go (s.store s.dstAddr (headerByte s.latched s.hdrI)).countOut.nextHeader) := by
  unfold stepRleHdr
  rcases dstWrite_cases (headerByte s.latched s.hdrI) s with ⟨h1, h2⟩ | ⟨h1, h2, h3⟩ | ⟨h1, h2, h3⟩
  · exact .inl ⟨h1, by rw [h2]; rfl⟩
  · exact .inr (.inl ⟨h1, h2, by rw [h3]; rfl⟩)
  · exact .inr (.inr ⟨h1, h2, by rw [h3]; rfl⟩)

/-- What the palette step can do: it stops at one of the entry's three bytes, or writes the entry's palette word. -/
theorem stepRlePal_cases (s : State) :
    (∃ j, j < 3 ∧ (stepRlePal s = .stop (.outsideBufferMemory (s.palAddr + j)) ∧ s.memSize ≤ s.palAddr + j
      ∨ stepRlePal s = .stop (.unwrittenRead (s.palAddr + j)) ∧ s.mem.read (s.palAddr + j) = none)) ∨
    (∃ r g b, s.mem.read s.palAddr = some r ∧ s.mem.read (s.palAddr + 1) = some g ∧ s.mem.read (s.palAddr + 2) = some b
      ∧ stepRlePal s = (dstWrites (palBytes r g b) s).andThen fun t => .go t.nextEntry) := by
  unfold stepRlePal
  rcases engineRead_cases s.palAddr s _ with ⟨h, e⟩ | ⟨-, h, e⟩ | ⟨r, -, hr, e⟩
  · exact .inl ⟨0, by omega, .inl ⟨e, h⟩⟩
  · exact .inl ⟨0, by omega, .inr ⟨e, h⟩⟩
  rw [e]
  rcases engineRead_cases (s.palAddr + 1) s _ with ⟨h, e⟩ | ⟨-, h, e⟩ | ⟨g, -, hg, e⟩
  · exact .inl ⟨1, by omega, .inl ⟨e, h⟩⟩
  · exact .inl ⟨1, by omega, .inr ⟨e, h⟩⟩
  rw [e]
  rcases engineRead_cases (s.palAddr + 2) s _ with ⟨h, e⟩ | ⟨-, h, e⟩ | ⟨b, -, hb, e⟩
  · exact .inl ⟨2, by omega, .inl ⟨e, h⟩⟩
  · exact .inl ⟨2, by omega, .inr ⟨e, h⟩⟩
  exact .inr ⟨r, g, b, hr, hg, hb, e⟩

/-- What the flush step can do. -/
theorem rleFlush_cases (s : State) :
    (s.runActive = false ∧ rleFlush s = .go s.closeRun.completeOk) ∨
    (s.runActive = true ∧ rleFlush s = (emitRun s).andThen fun t => .go t.closeRun.completeOk) := by
  unfold rleFlush
  cases s.runActive
  · exact .inl ⟨rfl, rfl⟩
  · exact .inr ⟨rfl, rfl⟩

/-- What the run step can do: flush, stop at a source byte, or take one colour. -/
theorem stepRleRun_cases (s : State) :
    (s.inCount = s.latched.srcLen ∧ stepRleRun s = rleFlush s) ∨
    (s.inCount ≠ s.latched.srcLen ∧
      ((s.memSize ≤ s.latched.srcBase.toNat + s.inCount.toNat
          ∧ stepRleRun s = .stop (.outsideBufferMemory (s.latched.srcBase.toNat + s.inCount.toNat))) ∨
      (s.mem.read (s.latched.srcBase.toNat + s.inCount.toNat) = none
          ∧ stepRleRun s = .stop (.unwrittenRead (s.latched.srcBase.toNat + s.inCount.toNat))) ∨
      ∃ b, s.mem.read (s.latched.srcBase.toNat + s.inCount.toNat) = some b
          ∧ stepRleRun s = takeColor (colorOf b) s.countIn)) := by
  unfold stepRleRun
  split_ifs with h
  · exact .inl ⟨h, rfl⟩
  · refine .inr ⟨h, ?_⟩
    rcases engineRead_cases (s.latched.srcBase.toNat + s.inCount.toNat) s fun b => takeColor (colorOf b) s.countIn with
      ⟨g, e⟩ | ⟨-, g, e⟩ | ⟨b, -, g, e⟩
    · exact .inl ⟨g, e⟩
    · exact .inr (.inl ⟨g, e⟩)
    · exact .inr (.inr ⟨b, g, e⟩)

end Sys2Proof.Machine
end

