-- ==== Sys2Proof/Laws/PerInstr.lean ====
section
/-! SUPPORT. Facts about every command as syntax, one lemma per constructor. -/

namespace Sys2Proof.Laws.CommandWord

/-- The word of a command has Z = 0 and an opcode in OP, so it is a valid command word (spec/30_encoding.md R91). -/
def Statement (i : Instr) : Prop := (encode i).extractLsb' 4 28 = 0#28 ∧ validCommandWord (encode i) = true

theorem nop : Statement .nop := by unfold Statement; decide
theorem repackLin : Statement .repackLin := by unfold Statement; decide
theorem repackTile : Statement .repackTile := by unfold Statement; decide
theorem rleEnc : Statement .rleEnc := by unfold Statement; decide
theorem abort : Statement .abort := by unfold Statement; decide

end Sys2Proof.Laws.CommandWord
end

