-- ==== Sys2Proof/Laws/Reset.lean ====
section
/-! SUPPORT. What a warm reset does to buffer memory, said once. -/

namespace Sys2Proof.Machine

/-! ## The rest of a command, left to itself -/

theorem State.runOut_idle {s : State} (h : s.busy = false) (n : Nat) : State.runOut n s = s := by
  cases n with
  | zero => rfl
  | succ n => simp [State.runOut, h]

theorem State.runOut_next {s t : State} (hb : s.busy = true) (h : engineTurn s = .next t) (n : Nat) :
    State.runOut (n + 1) s = State.runOut n t := by
  simp [State.runOut, hb, h]

theorem State.runOut_stop {s : State} {r : Fault} (h : engineTurn s = .fault r) (n : Nat) : State.runOut n s = s := by
  cases n with
  | zero => rfl
  | succ n => simp [State.runOut, h]

/-- What every engine turn of a running command keeps holds where it comes to rest. -/
theorem State.runOut_induction {P : State → Prop} (hP : ∀ s t, s.busy = true → P s → engineTurn s = .next t → P t) (n : Nat) :
    ∀ {s : State}, P s → P (State.runOut n s) := by
  induction n with
  | zero => exact id
  | succ n ih =>
    intro s hs
    cases hb : s.busy with
    | false => rwa [State.runOut_idle hb]
    | true =>
      cases ht : engineTurn s with
      | next t => rw [State.runOut_next hb ht]; exact ih (hP s t hb hs ht)
      | fault r => rwa [State.runOut_stop ht]
      | refused r => simpa [State.runOut, hb, ht] using hs

/-! ## The bytes it could have written -/

@[simp] theorem Window.upTo_id (w : Window) (n : Nat) : (w.upTo n).id = w.id := rfl
@[simp] theorem Window.upTo_base (w : Window) (n : Nat) : (w.upTo n).base = w.base := rfl
@[simp] theorem Window.upTo_length (w : Window) (n : Nat) : (w.upTo n).length = min w.length n := rfl

/-- The first `n` bytes of a window are in it. -/
theorem Window.contains_upTo {w : Window} {n a : Nat} (h : (w.upTo n).contains a = true) :
    w.contains a = true ∧ a < w.base + n := by
  simp only [Window.contains, Bool.and_eq_true, decide_eq_true_eq] at h ⊢
  simp only [Window.upTo_base, Window.upTo_length] at h
  omega

@[simp] theorem State.couldWrite_idle {s : State} (h : s.busy = false) : s.couldWrite = [] := by
  simp [State.couldWrite, State.runningOutputs, h]

/-- A byte a running command could have written lies in an output window, among the bytes written by the command's end. -/
theorem State.mem_couldWrite {s : State} {a : Nat} (h : s.couldWrite.any (·.contains a) = true) :
    ∃ w ∈ s.runningOutputs, w.contains a = true
      ∧ a < w.base + (State.runOut s.stepsLeft { s with abortReq := false }).writtenTo w.id := by
  simp only [State.couldWrite, List.any_map, List.any_eq_true, Function.comp] at h
  obtain ⟨w, hw, ha⟩ := h
  exact ⟨w, hw, Window.contains_upTo ha⟩

/-! ## The reset itself -/

@[simp] theorem State.warmReset_mem_idle {s : State} (h : s.busy = false) : s.warmReset.mem = s.mem := by
  simp [State.warmReset, h]

/-- Every byte reads as before or, where the ended command could have written it, as the residue; none is marked anew. -/
theorem State.warmReset_read (s : State) (a : Nat) :
    s.warmReset.mem.read a
      = (s.mem.read a).map fun b => if s.couldWrite.any (·.contains a) then Config.residue s.draws a else b := by
  cases h : s.busy with
  | false => rw [State.warmReset_mem_idle h, State.couldWrite_idle h]; cases s.mem.read a <;> rfl
  | true =>
    rw [show s.warmReset.mem = s.mem.leaveResidue s.couldWrite s.draws by simp [State.warmReset, h]]
    exact Memory.read_leaveResidue _ _ _ _

/-- A byte the ended command could not have written is unchanged. -/
theorem State.warmReset_read_of_not {s : State} {a : Nat} (h : s.couldWrite.any (·.contains a) = false) :
    s.warmReset.mem.read a = s.mem.read a := by
  rw [State.warmReset_read, h]; cases s.mem.read a <;> rfl

/-- A warm reset keeps the canonical form. -/
theorem State.warmReset_wf {s : State} (h : s.mem.wf) : s.warmReset.mem.wf := by
  cases hb : s.busy with
  | false => rwa [State.warmReset_mem_idle hb]
  | true => simpa [State.warmReset, hb] using Memory.wf_leaveResidue h _ _

end Sys2Proof.Machine
end

