-- ==== Sys2Proof/Tests/Slice0.lean ====
section
/-! SUPPORT. The model's own tests, with expected values taken from spec/95_test_vectors.md or worked out by hand from the cited rules, and one witness per statement that has hypotheses. -/

namespace Sys2Proof.Tests

open Sys2Proof Sys2Proof.Machine

/-! ## Decoding: the words of spec/30_encoding.md R93, bit by bit -/

theorem test_decode_nop : decode 0b00000000000000000000000000000000#32 = .ok .nop := by decide
theorem test_decode_repack_lin : decode 0b00000000000000000000000000000001#32 = .ok .repackLin := by decide
theorem test_decode_repack_tile : decode 0b00000000000000000000000000000010#32 = .ok .repackTile := by decide
theorem test_decode_rle_enc : decode 0b00000000000000000000000000000011#32 = .ok .rleEnc := by decide
theorem test_decode_abort : decode 0b00000000000000000000000000001000#32 = .ok .abort := by decide

/-- A reserved OP and a word with Z not 0 (R94, and the corner case of spec/40_command.md R116). -/
theorem test_decode_rejects : decode 0x00000004#32 = .error (.reservedOp 4) ∧ decode 0x00000011#32 = .error .highBits := by
  decide

theorem test_decodeTableWord :
    decodeTableWord 32 8 = some .abort ∧ decodeTableWord 8 3 = some .rleEnc ∧ decodeTableWord 32 0x80000001 = none := by
  decide

/-! ## Well-formedness: each check refuses an ill-formed term -/

theorem test_wf_word_reserved_op : validCommandWord 0x00000004#32 = false := by decide
theorem test_wf_word_high_bits : validCommandWord 0x00000011#32 = false := by decide
theorem test_wf_write_misaligned : HostOp.wellFormed (.wr 0x06#8 0) = false := by decide
theorem test_wf_read_misaligned : HostOp.wellFormed (.rd 0x0D#8) = false := by decide
theorem test_wf_subword : HostOp.wellFormed (.subword 0x04#8) = false := by decide
theorem test_wf_ctrl_bin : CtrlKeys.wellFormed { bin := 3 } = false := by decide
theorem test_wf_ctrl_bout : CtrlKeys.wellFormed { bout := 16 } = false := by decide
theorem test_wf_ctrl_tw : CtrlKeys.wellFormed { tw := 9 } = false := by decide
theorem test_wf_ctrl_th : CtrlKeys.wellFormed { th := 4 } = false := by decide
theorem test_wf_ctrl_mapw_low : CtrlKeys.wellFormed { mapw := 0 } = false := by decide
theorem test_wf_ctrl_mapw_high : CtrlKeys.wellFormed { mapw := 65 } = false := by decide

/-! ## Small states -/

/-- SRC 0..7, DST 16..23, IDX 32, PAL 40..42 of a memory of 64 bytes, with a CTRL word. -/
def demoRegs (ctrl : Word) : CfgRegs :=
  { ctrl := ctrl, srcBase := 0, srcLen := 8, dstBase := 16, dstCap := 8, idxBase := 32, idxCap := 1, palBase := 40,
    palCount := 1, magic := 0x44434241 }

/-- The SRC and PAL windows written, the outputs not. -/
def demoMem : Memory :=
  [(0, 0xB4), (1, 0x02), (2, 0x13), (3, 0xFF), (4, 0x00), (5, 0x05), (6, 0x05), (7, 0x03), (40, 255), (41, 0), (42, 128)]

/-- A running command in a phase. -/
def demo (op : Lop) (ph : Phase) (ctrl : Word) : State :=
  { State.powerUp 63 with
    regs := demoRegs ctrl, latched := demoRegs ctrl, lop := op, phase := ph, mem := demoMem }

/-- Bin = 8, Bout = 4 (spec/30_encoding.md R106). -/
abbrev ctrl84 : Word := 0x0000000B#32

/-- The outcome is a next state with this property. -/
abbrev NextIs (o : Host.Outcome State Fault Refusal) (p : State → Bool) : Bool :=
  match o with
  | .next t => p t
  | .fault _ => false
  | .refused _ => false

/-! ## Commands -/

/-- spec/40_command.md R114, its example: STATUS stays 0x2. -/
theorem test_nop_keeps_status :
    NextIs (hostWrite 0x08#8 0#32 { State.powerUp 63 with done := true }) (·.statusWord == 0x00000002#32) = true := by decide

/-- spec/40_command.md R115, its example: ERR with ERRCODE 8 and BUSY = 0 after the next engine step. -/
theorem test_abort_status :
    NextIs (exec .abort (demo .repackLin .repack ctrl84)) (fun t => NextIs (engineTurn t) (·.statusWord == 0x00000084#32))
      = true := by decide
theorem test_abort_idle : NextIs (exec .abort (State.powerUp 63)) (·.abortReq == false) = true := by decide

/-- spec/40_command.md R116, its example. -/
theorem test_reserved_word :
    NextIs (hostWrite 0x08#8 4#32 (State.powerUp 63)) (fun t => t.statusWord == 0x00000014#32 && t.errInfo == 4#32) = true := by
  decide

/-- spec/40_command.md R117: BUSY reads 1 right after the start, with the registers latched. -/
theorem test_repack_lin_starts :
    NextIs (exec .repackLin (demo .rleEnc .idle ctrl84)) (fun t => t.statusWord == 1#32 && t.lop == .repackLin) = true := by
  decide
theorem test_repack_tile_starts :
    NextIs (exec .repackTile (demo .rleEnc .idle ctrl84)) (fun t => t.phase == .pre && t.lop == .repackTile) = true := by decide
/-- spec/40_command.md R113: a second command while busy sets REJ and does not touch the running one. -/
theorem test_rle_enc_rejected_while_busy :
    NextIs (exec .rleEnc (demo .repackLin .repack ctrl84)) (fun t => t.rej && t.lop == .repackLin) = true := by decide
theorem test_repack_lin_rejected_while_busy :
    NextIs (exec .repackLin (demo .rleEnc .rleRun 0)) (fun t => t.statusWord == 0x00000009#32) = true := by decide

/-! ## Datapath and formats -/

/-- spec/41_repack.md R150, its example. -/
theorem test_unpack : unpack 0xB4#8 2 = [2, 3, 1, 0] ∧ unpack 0xB4#8 4 = [0xB, 0x4] := by decide
/-- spec/41_repack.md R165, its example. -/
theorem test_repack_84 : repackBytes 8 4 [0x01, 0x02, 0x13, 0xFF] = [0x12, 0x3F] := by decide
/-- spec/41_repack.md R158, its examples: MAPW = 2, TW = TH = 8, Bin = 8 is CTRL 0x0001_0003. -/
theorem test_tile_offset :
    tileOffset (demoRegs 0x00010003#32) 1 0 = 8 ∧ tileOffset (demoRegs 0x00010003#32) 1 8 = 24
      ∧ tileOffset (demoRegs 0x00010003#32) 2 0 = 128 := by decide
/-- spec/42_rle.md R203 and spec/95_test_vectors.md S8. -/
theorem test_tokens :
    tokenBytes 5 2 = [0x25] ∧ tokenBytes 7 15 = [0xF7, 0x00] ∧ tokenBytes 7 255 = [0xF7, 0xF0] ∧ tokenBytes 0xA 14 = [0xEA] := by
  decide
/-- spec/42_rle.md R212, its example. -/
theorem test_rle_stream : rleTokens [5, 5, 5, 3] = [0x25, 0x03] := by decide
/-- spec/42_rle.md R206, R207: the boundary values and the palette word. -/
theorem test_quantiser : q4 8 = 0 ∧ q4 9 = 1 ∧ q4 128 = 8 ∧ q4 240 = 14 ∧ palWord 255 0 128 = 0x0F08#16 := by decide
/-- spec/30_encoding.md R106, its examples. -/
theorem test_ctrl_word :
    ctrlWord { bin := 8, bout := 4 } = some 0x0000000B#32 ∧ ctrlWord { idx := true, mapw := 2 } = some 0x00010040#32
      ∧ ctrlWord { bin := 5 } = none := by decide
/-- spec/30_encoding.md R105: `ack`. -/
theorem test_assemble_ack : assemble [.ack, .cmd .repackTile]
    = some [.access (.wr 0x0C#8 0x0000000E#32), .access (.wr 0x08#8 0x00000002#32)] := by decide

/-! ## Memory -/

theorem test_reset_memory_wf : State.reset.mem.wf := by decide
/-- The canonical form makes equal memories equal data, whatever the order of the writes. -/
theorem test_memory_write_order : ((Memory.write [] 5 1).write 3 2).write 5 9 = [(3, 2), (5, 9)] := by decide

/-! ## Witnesses: states and operands that meet the hypotheses of each statement -/

theorem witness_CtrlFieldsDecode :
    (demoRegs 0x0#32).ctrl.extractLsb' 0 2 = 0#2 ∧ (demoRegs 0x5#32).ctrl.extractLsb' 0 2 = 1#2
      ∧ (demoRegs 0xA#32).ctrl.extractLsb' 0 2 = 2#2 ∧ (demoRegs 0xF#32).ctrl.extractLsb' 0 2 = 3#2
      ∧ (demoRegs 0x0#32).ctrl.extractLsb' 2 2 = 0#2 ∧ (demoRegs 0x5#32).ctrl.extractLsb' 2 2 = 1#2
      ∧ (demoRegs 0xA#32).ctrl.extractLsb' 2 2 = 2#2 ∧ (demoRegs 0xF#32).ctrl.extractLsb' 2 2 = 3#2 := by decide

theorem witness_StepRunsTheDecodedCommand :
    ({ State.powerUp 63 with agenda := [cmdWrite 3#32, .engine] }).agenda = cmdWrite 3#32 :: [.engine]
      ∧ decode 3#32 = .ok .rleEnc := by decide

/-- A pending event of each kind: an engine turn, accesses at the last word offset, at an offset that is no word offset and
narrower than a word, a poll while busy and while idle, a warm reset. -/
theorem witness_StepTakesTheNextEvent :
    (State.powerUp 63).agenda = [] ∧ ({ State.powerUp 63 with agenda := [.engine] }).agenda = .engine :: []
      ∧ ({ State.powerUp 63 with agenda := [.access (.rd 0xFC)] }).agenda = .access (.rd 0xFC) :: [] ∧ (0xFC#8).toNat % 4 = 0
      ∧ ({ State.powerUp 63 with agenda := [.access (.wr 0x05 1)] }).agenda = .access (.wr 0x05 1) :: [] ∧ (0x05#8).toNat % 4 ≠ 0
      ∧ ({ State.powerUp 63 with agenda := [.access (.subword 0x04)] }).agenda = .access (.subword 0x04) :: []
      ∧ ({ State.powerUp 63 with agenda := [.access (.sb 3 7)] }).agenda = .access (.sb 3 7) :: []
      ∧ ({ State.powerUp 63 with agenda := [.access (.lb 3)] }).agenda = .access (.lb 3) :: []
      ∧ ({ demo .rleEnc .rleRun 0 with agenda := [.waitIdle] }).busy = true
      ∧ ({ State.powerUp 63 with agenda := [.waitIdle] }).busy = false
      ∧ ({ State.powerUp 63 with agenda := [.warmReset] }).agenda = .warmReset :: [] := by decide

theorem witness_ReservedWordCompletesWithEcmd :
    (State.powerUp 63).phase = .idle ∧ ∀ i, decode 0x00000004#32 ≠ .ok i :=
  ⟨rfl, fun i => by cases i <;> decide⟩

theorem witness_AbortIsTakenAtTheNextStep :
    (State.powerUp 63).phase = .idle ∧ (demo .repackLin .pre ctrl84).phase ≠ .idle
      ∧ ({ demo .repackLin .pre ctrl84 with abortReq := true }).abortReq = true := by decide

theorem witness_StartLatchesTheConfiguration :
    (demo .repackLin .idle ctrl84).phase = .idle ∧ ((.rleEnc, .rleEnc) : Instr × Lop) ∈
      [(Instr.repackLin, Lop.repackLin), (.repackTile, .repackTile), (.rleEnc, .rleEnc)] := by decide

theorem witness_EngineMovesOnlyWhileBusy :
    (State.powerUp 63).phase = .idle ∧ (demo .rleEnc .rleRun 0).phase ≠ .idle := by decide

/-- A DST window one byte too long, behind a SRC window that just fits. -/
def outOfBounds : State := { demo .repackLin .pre ctrl84 with memTop := 22 }

theorem witness_FirstWindowOutOfBoundsIsReported :
    outOfBounds.phase = .pre ∧ outOfBounds.abortReq = false
      ∧ activeWindows outOfBounds.lop outOfBounds.latched = [⟨.src, 0, 8⟩] ++ ⟨.dst, 16, 8⟩ :: []
      ∧ (∀ x ∈ [(⟨.src, 0, 8⟩ : Window)], x.base + x.length ≤ outOfBounds.memSize) ∧ outOfBounds.memSize < 16 + 8 := by decide

theorem witness_FirstWindowOutOfBoundsIsReported_empty : (⟨.idx, 64, 0⟩ : Window).length = 0 := rfl

/-- The four windows of a register block, with IDX and PAL enabled and not. -/
theorem witness_FirstWindowOutOfBoundsIsReported_table :
    (⟨.src, 0, 8⟩ : Window) = ⟨.src, (demoRegs 0x240).srcBase.toNat, (demoRegs 0x240).srcLen.toNat⟩
      ∧ (⟨.dst, 16, 8⟩ : Window) = ⟨.dst, (demoRegs 0x240).dstBase.toNat, (demoRegs 0x240).dstCap.toNat⟩
      ∧ (⟨.idx, 32, 1⟩ : Window) = ⟨.idx, (demoRegs 0x240).idxBase.toNat, (demoRegs 0x240).idxCap.toNat⟩
      ∧ (⟨.pal, 40, 3⟩ : Window) = ⟨.pal, (demoRegs 0x240).palBase.toNat, 3 * (demoRegs 0x240).palCount.toNat⟩
      ∧ (demoRegs 0x240).ctrl.getLsbD 6 = true ∧ (demoRegs 0x240).ctrl.getLsbD 9 = true
      ∧ (demoRegs 0).ctrl.getLsbD 6 = false ∧ (demoRegs 0).ctrl.getLsbD 9 = false := by decide

/-- The DST window starts at the last SRC byte. -/
def overlapping : State :=
  { demo .repackLin .pre ctrl84 with latched := { demoRegs ctrl84 with dstBase := 7 } }

theorem witness_FirstOverlapIsReported :
    overlapping.phase = .pre ∧ overlapping.abortReq = false
      ∧ activeWindows overlapping.lop overlapping.latched = [] ++ ⟨.src, 0, 8⟩ :: ([] ++ ⟨.dst, 7, 8⟩ :: [])
      ∧ (∀ w ∈ activeWindows overlapping.lop overlapping.latched, w.base + w.length ≤ overlapping.memSize)
      ∧ (∀ a₁ (p : Window) a₂, ([] : List Window) = a₁ ++ p :: a₂ →
          ∀ q ∈ a₂ ++ ⟨.src, 0, 8⟩ :: ([] ++ [⟨.dst, 7, 8⟩]), ¬p.Overlaps q)
      ∧ (∀ q ∈ ([] : List Window), ¬Window.Overlaps ⟨.src, 0, 8⟩ q) ∧ Window.Overlaps ⟨.src, 0, 8⟩ ⟨.dst, 7, 8⟩ :=
  ⟨rfl, rfl, by decide, by decide, fun a₁ p a₂ h => by simp at h, by simp, by decide⟩

theorem witness_FirstOverlapIsReported_other_clauses :
    (⟨.src, 0, 8⟩ : Window).id = .src ∧ (⟨.pal, 4, 3⟩ : Window).id = .pal
      ∧ (⟨.src, 0, 8⟩ : Window).base + (⟨.src, 0, 8⟩ : Window).length = (⟨.dst, 8, 8⟩ : Window).base := by decide

/-- Bin = 8, Bout = 4 with seven source bytes. -/
def odd (pad : Word) : State :=
  { demo .repackLin .pre 0 with latched := { demoRegs (ctrl84 ||| pad) with srcLen := 7 } }

theorem witness_LengthCheckOfRepackLin_refused :
    (odd 0).phase = .pre ∧ (odd 0).abortReq = false ∧ (odd 0).lop = .repackLin ∧ (odd 0).WindowsOk
      ∧ (odd 0).latched.srcLen.toNat * (odd 0).latched.pIn % (odd 0).latched.pOut ≠ 0
      ∧ (odd 0).latched.padMode = false := by decide

theorem witness_LengthCheckOfRepackLin_accepted :
    (odd 0x80).phase = .pre ∧ (odd 0x80).abortReq = false ∧ (odd 0x80).lop = .repackLin ∧ (odd 0x80).WindowsOk
      ∧ (odd 0x80).latched.padMode = true ∧ (demo .repackLin .pre ctrl84).WindowsOk
      ∧ (demo .repackLin .pre ctrl84).latched.srcLen.toNat * (demo .repackLin .pre ctrl84).latched.pIn
          % (demo .repackLin .pre ctrl84).latched.pOut = 0 := by decide

/-- Tiles of 16 bytes (Bin = 2) over eight source bytes, and of 8 bytes (Bin = 1). -/
theorem witness_GeometryCheckOfRepackTile :
    (demo .repackTile .pre 1).phase = .pre ∧ (demo .repackTile .pre 1).abortReq = false
      ∧ (demo .repackTile .pre 1).lop = .repackTile ∧ (demo .repackTile .pre 1).WindowsOk
      ∧ (demo .repackTile .pre 1).latched.srcLen.toNat
          % ((demo .repackTile .pre 1).latched.mapw * (demo .repackTile .pre 1).latched.tileb) ≠ 0
      ∧ (demo .repackTile .pre 0).WindowsOk
      ∧ (demo .repackTile .pre 0).latched.srcLen.toNat
          % ((demo .repackTile .pre 0).latched.mapw * (demo .repackTile .pre 0).latched.tileb) = 0 := by decide

theorem witness_RleEncEntersItsFirstPhase :
    (demo .rleEnc .pre 0x300).phase = .pre ∧ (demo .rleEnc .pre 0x300).abortReq = false
      ∧ (demo .rleEnc .pre 0x300).lop = .rleEnc ∧ (demo .rleEnc .pre 0x300).WindowsOk
      ∧ (demo .rleEnc .pre 0x300).latched.hdrEn = true
      ∧ (demo .rleEnc .pre 0x200).WindowsOk ∧ (demo .rleEnc .pre 0x200).latched.hdrEn = false
      ∧ (demo .rleEnc .pre 0x200).latched.palEn = true ∧ 0 < (demo .rleEnc .pre 0x200).latched.palCount.toNat
      ∧ (demo .rleEnc .pre 0).WindowsOk ∧ (demo .rleEnc .pre 0).latched.hdrEn = false
      ∧ (demo .rleEnc .pre 0).latched.palEn = false := by decide

/-- OUT_COUNT at the capacity, one below it, and at 0. -/
theorem witness_DestinationWriteIsChecked :
    ({ demo .rleEnc .rleRun 0 with outCount := 8 }).outCount = (demo .rleEnc .rleRun 0).latched.dstCap
      ∧ (demo .rleEnc .rleRun 0).outCount ≠ (demo .rleEnc .rleRun 0).latched.dstCap
      ∧ (demo .rleEnc .rleRun 0).latched.dstBase.toNat + (demo .rleEnc .rleRun 0).outCount.toNat
          < (demo .rleEnc .rleRun 0).memSize
      ∧ (7#32 : Word) ≠ (demo .rleEnc .rleRun 0).latched.dstCap
      ∧ ({ demo .rleEnc .rleRun 0 with outCount := 7 }).outCount + 1 = (demo .rleEnc .rleRun 0).latched.dstCap
      ∧ (demo .rleEnc .rleRun 0).latched.dstBase.toNat + 7 < (demo .rleEnc .rleRun 0).memSize := by decide

theorem witness_IndexWriteIsChecked :
    ({ demo .repackTile .repack 0x40 with idxCount := 1 }).idxCount = (demo .repackTile .repack 0x40).latched.idxCap
      ∧ (demo .repackTile .repack 0x40).idxCount ≠ (demo .repackTile .repack 0x40).latched.idxCap
      ∧ (demo .repackTile .repack 0x40).latched.idxBase.toNat + (demo .repackTile .repack 0x40).idxCount.toNat
          < (demo .repackTile .repack 0x40).memSize := by decide

theorem witness_PackStepsBuildTheOutputByte :
    ([1, 2] : List Byte) ≠ [] ∧ ([1, 2] : List Byte).length ≤ 8 / (1 <<< (2#2).toNat) := by decide

theorem witness_RepackRoundTrips :
    (0#2) < (2#2) ∧ ([0x12, 0x34, 0x56, 0x78] : List Byte).length * (8 / (1 <<< (2#2).toNat)) % (8 / (1 <<< (0#2).toNat)) = 0 := by
  decide

theorem witness_TileOffsetsAreABijection :
    (demoRegs 0).srcLen.toNat = 1 * (demoRegs 0).mapw * (demoRegs 0).tileb ∧ 7 < (demoRegs 0).srcLen.toNat
      ∧ tileOffset (demoRegs 0) (7 / (demoRegs 0).tileb) (7 % (demoRegs 0).tileb) = 7 := by decide

theorem witness_TileOffsetsRunAlongRows :
    (0 + 1) % (demoRegs 3).twb ≠ 0 ∧ (demoRegs 3).mapw = 1 ∧ 63 < (demoRegs 3).tileb := by decide

/-- Bin = Bout = 1, one pixel of the first byte moved; and with the last pixel of the byte left. -/
def midByte : State := { demo .repackLin .repack 0 with inCount := 1, inSr := 0x69, inLeft := 7, acc := 1, accN := 1 }
/-- See `midByte`. -/
def lastPixel : State := { demo .repackLin .repack 0 with inCount := 1, inSr := 0x5A, inLeft := 1, acc := 0x5A, accN := 7 }

theorem witness_RepackStepMovesOnePixel_inside :
    midByte.phase = .repack ∧ midByte.abortReq = false ∧ midByte.inLeft ≠ 0 ∧ midByte.accN + 1 ≠ midByte.latched.pOut := by
  decide

theorem witness_RepackStepMovesOnePixel_completes :
    lastPixel.phase = .repack ∧ lastPixel.abortReq = false ∧ lastPixel.inLeft ≠ 0
      ∧ lastPixel.accN + 1 = lastPixel.latched.pOut ∧ lastPixel.outCount ≠ lastPixel.latched.dstCap
      ∧ lastPixel.dstAddr < lastPixel.memSize := by decide

theorem witness_RepackStepMovesOnePixel_no_room :
    ({ lastPixel with outCount := 8 }).inLeft ≠ 0 ∧ ({ lastPixel with outCount := 8 }).accN + 1 = lastPixel.latched.pOut
      ∧ ({ lastPixel with outCount := 8 }).outCount = lastPixel.latched.dstCap := by decide

/-- REPACK_LIN about to fetch byte 5, REPACK_TILE about to fetch the byte 4 inside a tile. -/
theorem witness_RepackStepMovesOnePixel_fetches :
    (demo .repackLin .repack 0).inLeft = 0 ∧ ({ demo .repackLin .repack 0 with inCount := 5 }).inCount ≠ (demoRegs 0).srcLen
      ∧ (demo .repackLin .repack 0).lop ≠ .repackTile ∧ demoMem.read (0 + 5) = some 0x05
      ∧ tileOffset (demoRegs 0x40) (4 / (demoRegs 0x40).tileb) (4 % (demoRegs 0x40).tileb) = 4
      ∧ 4 < (demoRegs 0x40).srcLen.toNat ∧ 4 < (demo .repackTile .repack 0x40).memSize ∧ demoMem.read (0 + 4) = some 0x00
      ∧ 4 % (demoRegs 0x40).tileb ≠ 0 := by decide

/-- REPACK_TILE about to fetch the first byte of a tile, with room for its palette index. -/
theorem witness_RepackStepMovesOnePixel_starts_a_tile :
    (demo .repackTile .repack 0x40).inLeft = 0 ∧ (demo .repackTile .repack 0x40).inCount ≠ (demoRegs 0x40).srcLen
      ∧ tileOffset (demoRegs 0x40) (0 / (demoRegs 0x40).tileb) (0 % (demoRegs 0x40).tileb) = 0
      ∧ demoMem.read (0 + 0) = some 0xB4
      ∧ (demo .repackTile .repack 0x40).inCount.toNat % (demo .repackTile .repack 0x40).latched.tileb = 0
      ∧ (demo .repackTile .repack 0x40).latched.idxEn = true
      ∧ (demo .repackTile .repack 0x40).idxCount ≠ (demo .repackTile .repack 0x40).latched.idxCap
      ∧ (demo .repackTile .repack 0x40).idxAddr < (demo .repackTile .repack 0x40).memSize := by decide

/-- MAPW = 2 with eight source bytes, which no preflight lets through: stream index 4 is read at offset 8. -/
theorem witness_RepackStepMovesOnePixel_etrunc :
    (demo .repackTile .repack 0x00010000).inLeft = 0
      ∧ ({ demo .repackTile .repack 0x00010000 with inCount := 4 }).inCount ≠ (demoRegs 0x00010000).srcLen
      ∧ tileOffset (demoRegs 0x00010000) (4 / (demoRegs 0x00010000).tileb) (4 % (demoRegs 0x00010000).tileb) = 8
      ∧ (demoRegs 0x00010000).srcLen.toNat ≤ 8 := by decide

/-- REPACK_TILE at its first tile with no room in the IDX window. -/
def indexFull : State :=
  { demo .repackTile .repack 0x40 with latched := { demoRegs 0x40 with idxCap := 0 } }

theorem witness_IndexOverflowCountsTheByteOnly :
    indexFull.phase = .repack ∧ indexFull.abortReq = false ∧ indexFull.lop = .repackTile ∧ indexFull.latched.idxEn = true
      ∧ indexFull.inLeft = 0 ∧ indexFull.inCount ≠ indexFull.latched.srcLen
      ∧ indexFull.inCount.toNat % indexFull.latched.tileb = 0 ∧ indexFull.idxCount = indexFull.latched.idxCap
      ∧ tileOffset indexFull.latched (indexFull.inCount.toNat / indexFull.latched.tileb) 0 < indexFull.latched.srcLen.toNat
      ∧ indexFull.latched.srcBase.toNat + tileOffset indexFull.latched (indexFull.inCount.toNat / indexFull.latched.tileb) 0
          < indexFull.memSize
      ∧ indexFull.mem.read (indexFull.latched.srcBase.toNat
          + tileOffset indexFull.latched (indexFull.inCount.toNat / indexFull.latched.tileb) 0) = some 0xB4 := by decide

/-- Bin = 8, Bout = 4, PAD_MODE = 1: seven bytes read, one pixel pending. -/
def finalOdd : State :=
  { demo .repackLin .repack 0 with
    latched := { demoRegs 0x8B#32 with srcLen := 7 }, inCount := 7, outCount := 3, acc := 5, accN := 1 }

theorem witness_FinalRepackStepPads_pads :
    finalOdd.phase = .repack ∧ finalOdd.abortReq = false ∧ finalOdd.inLeft = 0 ∧ finalOdd.inCount = finalOdd.latched.srcLen
      ∧ finalOdd.accN ≠ 0 ∧ finalOdd.outCount ≠ finalOdd.latched.dstCap ∧ finalOdd.dstAddr < finalOdd.memSize
      ∧ finalOdd.RepackOk := by decide

/-- The same with no room left in DST, and a command with nothing pending. -/
theorem witness_FinalRepackStepPads_other_clauses :
    ({ finalOdd with latched := { finalOdd.latched with dstCap := 3 } }).outCount
        = ({ finalOdd with latched := { finalOdd.latched with dstCap := 3 } }).latched.dstCap
      ∧ ({ finalOdd with latched := { finalOdd.latched with dstCap := 3 } }).accN ≠ 0
      ∧ (demo .repackLin .repack 0).accN = 0 ∧ ({ demo .repackLin .repack 0 with inCount := 8 }).inCount = (demoRegs 0).srcLen := by
  decide

/-- The eight source bytes. -/
def demoBytes : List Byte := [0xB4, 0x02, 0x13, 0xFF, 0x00, 0x05, 0x05, 0x03]

theorem witness_RepackLinWritesTheRepackedPixels :
    (demo .repackLin .idle ctrl84).phase = .idle
      ∧ preflightError 64 .repackLin (demoRegs ctrl84) = none ∧ reads demoMem .repackLin (demoRegs ctrl84) demoBytes
      ∧ (repackBytes (demoRegs ctrl84).bin (demoRegs ctrl84).bout demoBytes).length ≤ (demoRegs ctrl84).dstCap.toNat :=
  ⟨rfl, by decide, by unfold reads; decide, by decide⟩

theorem witness_RepackTileWritesTheTiles :
    (demo .repackTile .idle 0x40).phase = .idle
      ∧ preflightError 64 .repackTile (demoRegs 0x40) = none ∧ reads demoMem .repackTile (demoRegs 0x40) demoBytes
      ∧ (repackBytes (demoRegs 0x40).bin (demoRegs 0x40).bout demoBytes).length ≤ (demoRegs 0x40).dstCap.toNat
      ∧ (demoRegs 0x40).idxEn = true ∧ (demoRegs 0x40).srcLen.toNat / (demoRegs 0x40).tileb ≤ (demoRegs 0x40).idxCap.toNat :=
  ⟨rfl, by decide, by unfold reads; decide, by decide, by decide, by decide⟩

theorem witness_TokensAreOneOrTwoBytes : tokenBytes 3 15 = [0xF3, 0x00] ∧ tokenBytes 3 14 = [0xE3] := by decide

/-- The last header byte, with room and without. -/
theorem witness_HeaderStepEmitsAMagicByte :
    ({ demo .rleEnc .rleHdr 0x300 with hdrI := 3, outCount := 3 }).phase = .rleHdr
      ∧ ({ demo .rleEnc .rleHdr 0x300 with hdrI := 3, outCount := 3 }).abortReq = false
      ∧ ({ demo .rleEnc .rleHdr 0x300 with hdrI := 3, outCount := 3 }).outCount ≠ (demoRegs 0x300).dstCap
      ∧ ({ demo .rleEnc .rleHdr 0x300 with hdrI := 3, outCount := 3 }).dstAddr < 64
      ∧ ({ demo .rleEnc .rleHdr 0x300 with outCount := 8 }).outCount = (demoRegs 0x300).dstCap := by decide

/-- Exactly two bytes of room. -/
def palNear : State := { demo .rleEnc .rlePal 0x300 with hdrI := 4, outCount := 6 }

theorem witness_PaletteStepEmitsAPaletteWord :
    palNear.phase = .rlePal ∧ palNear.abortReq = false
      ∧ palNear.latched.palBase.toNat + 3 * palNear.palI.toNat + 2 < palNear.memSize
      ∧ palNear.mem.read (palNear.latched.palBase.toNat + 3 * palNear.palI.toNat) = some 255
      ∧ palNear.mem.read (palNear.latched.palBase.toNat + 3 * palNear.palI.toNat + 1) = some 0
      ∧ palNear.mem.read (palNear.latched.palBase.toNat + 3 * palNear.palI.toNat + 2) = some 128
      ∧ palNear.outCount.toNat + 2 ≤ palNear.latched.dstCap.toNat ∧ palNear.dstAddr + 1 < palNear.memSize := by decide

/-- No room, and room for the low byte only. -/
theorem witness_PaletteStepEmitsAPaletteWord_overflow :
    ({ palNear with outCount := 8 }).outCount = palNear.latched.dstCap
      ∧ ({ palNear with outCount := 7 }).outCount.toNat + 1 = palNear.latched.dstCap.toNat
      ∧ ({ palNear with outCount := 7 }).dstAddr < palNear.memSize := by decide

/-- At the source byte 5 of address 6, with a run of colour `c` and `r` repeats open. -/
def inRun (c : Nibble) (r : Byte) : State :=
  { demo .rleEnc .rleRun 0 with inCount := 6, runActive := true, runColor := c, runRep := r }

theorem witness_RunStepTakesOneByte_opens :
    (demo .rleEnc .rleRun 0).phase = .rleRun ∧ (demo .rleEnc .rleRun 0).abortReq = false
      ∧ (demo .rleEnc .rleRun 0).inCount ≠ (demoRegs 0).srcLen
      ∧ (demo .rleEnc .rleRun 0).latched.srcBase.toNat + (demo .rleEnc .rleRun 0).inCount.toNat < 64
      ∧ (demo .rleEnc .rleRun 0).mem.read 0 = some 0xB4 ∧ (demo .rleEnc .rleRun 0).runActive = false := by decide

theorem witness_RunStepTakesOneByte_extends :
    (inRun 5 254).phase = .rleRun ∧ (inRun 5 254).abortReq = false ∧ (inRun 5 254).inCount ≠ (demoRegs 0).srcLen
      ∧ (inRun 5 254).mem.read ((inRun 5 254).latched.srcBase.toNat + (inRun 5 254).inCount.toNat) = some 0x05
      ∧ (inRun 5 254).runActive = true ∧ (0x05#8).extractLsb' 0 4 = (inRun 5 254).runColor
      ∧ (inRun 5 254).runRep.toNat < 255 := by decide

/-- A change of colour, and the cap. -/
theorem witness_RunStepTakesOneByte_breaks :
    (inRun 4 0).runActive = true ∧ (0x05#8).extractLsb' 0 4 ≠ (inRun 4 0).runColor ∧ (inRun 5 255).runRep.toNat = 255
      ∧ (inRun 5 255).outCount.toNat + (tokenBytes (inRun 5 255).runColor (inRun 5 255).runRep).length
          ≤ (inRun 5 255).latched.dstCap.toNat
      ∧ (inRun 5 255).dstAddr + (tokenBytes (inRun 5 255).runColor (inRun 5 255).runRep).length ≤ (inRun 5 255).memSize := by
  decide

/-- A long token with no room, and with room for its first byte only. -/
theorem witness_RunStepTakesOneByte_overflow :
    (inRun 4 15).runActive = true ∧ (0x05#8).extractLsb' 0 4 ≠ (inRun 4 15).runColor ∧ 15 ≤ (inRun 4 15).runRep.toNat
      ∧ ({ inRun 4 15 with outCount := 8 }).outCount = (inRun 4 15).latched.dstCap
      ∧ ({ inRun 4 15 with outCount := 7 }).outCount.toNat + 1 = (inRun 4 15).latched.dstCap.toNat
      ∧ ({ inRun 4 15 with outCount := 7 }).dstAddr < (inRun 4 15).memSize := by decide

theorem witness_FlushStepEmitsTheLastRun :
    ({ inRun 5 1 with inCount := 8 }).phase = .rleRun ∧ ({ inRun 5 1 with inCount := 8 }).abortReq = false
      ∧ ({ inRun 5 1 with inCount := 8 }).inCount = (inRun 5 1).latched.srcLen ∧ (inRun 5 1).runActive = true
      ∧ (inRun 5 1).outCount.toNat + (tokenBytes (inRun 5 1).runColor (inRun 5 1).runRep).length
          ≤ (inRun 5 1).latched.dstCap.toNat
      ∧ (inRun 5 1).dstAddr + (tokenBytes (inRun 5 1).runColor (inRun 5 1).runRep).length ≤ (inRun 5 1).memSize
      ∧ ({ demo .rleEnc .rleRun 0 with latched := { demoRegs 0 with srcLen := 0 } }).inCount
          = ({ demo .rleEnc .rleRun 0 with latched := { demoRegs 0 with srcLen := 0 } }).latched.srcLen
      ∧ (demo .rleEnc .rleRun 0).runActive = false := by decide

/-- See `witness_RunStepTakesOneByte_overflow`. -/
theorem witness_FlushStepEmitsTheLastRun_overflow :
    ({ inRun 5 255 with inCount := 8, outCount := 8 }).inCount = (inRun 5 255).latched.srcLen
      ∧ ({ inRun 5 255 with inCount := 8, outCount := 8 }).outCount = (inRun 5 255).latched.dstCap
      ∧ (inRun 5 255).runActive = true ∧ 15 ≤ (inRun 5 255).runRep.toNat
      ∧ ({ inRun 5 255 with inCount := 8, outCount := 7 }).outCount.toNat + 1 = (inRun 5 255).latched.dstCap.toNat
      ∧ ({ inRun 5 255 with inCount := 8, outCount := 7 }).dstAddr < (inRun 5 255).memSize := by decide

/-- Header, one palette entry and eight source bytes of one run: 4 + 2 + 7 bytes in a DST window of 16. -/
def rleRegs : CfgRegs := { demoRegs 0x300 with dstCap := 16 }

theorem witness_RleEncWritesHeaderPaletteTokens :
    ({ demo .rleEnc .idle 0x300 with regs := rleRegs }).phase = .idle ∧ preflightError 64 .rleEnc rleRegs = none
      ∧ reads demoMem .rleEnc rleRegs demoBytes ∧ ([255, 0, 128] : List Byte).length = 3 * rleRegs.palLen
      ∧ holds demoMem rleRegs.palBase.toNat [255, 0, 128]
      ∧ (headerBytes rleRegs ++ paletteBytes [255, 0, 128] ++ rleTokens (demoBytes.map colorOf)).length ≤ rleRegs.dstCap.toNat :=
  ⟨rfl, by decide, by unfold reads; decide, by decide, by unfold holds; decide, by decide⟩

theorem runDemo_ok (s : State) (hp : s.phase = .rleRun) (h : s.RunOk) : s.CommandOk := by
  unfold State.CommandOk
  rw [hp]
  exact ⟨nofun, nofun, nofun, nofun, fun _ => h⟩

theorem repackDemo_ok (s : State) (hp : s.phase = .repack) (h : s.RepackOk) : s.CommandOk := by
  unfold State.CommandOk
  rw [hp]
  exact ⟨nofun, fun _ => h, nofun, nofun, nofun⟩

/-- RLE_ENC at its last source byte: the seven bytes before it made tokens and an open run. -/
def lastByte : State :=
  { demo .rleEnc .rleRun 0 with inCount := 7, outCount := 5, runActive := true, runColor := 5, runRep := 1 }

theorem lastByte_ok : lastByte.CommandOk := runDemo_ok _ rfl (by decide)

/-- One step from the end of a repack with a partial byte. -/
theorem finalOdd_ok : finalOdd.CommandOk := repackDemo_ok _ rfl (by decide)

theorem witness_AmpleRleWindowNeverOverflows :
    lastByte.busy = true ∧ lastByte.CommandOk ∧ lastByte.lop = .rleEnc ∧ lastByte.errCode = .none
      ∧ lastByte.latched.hdrLen + 2 * lastByte.latched.palLen + lastByte.latched.srcLen.toNat ≤ lastByte.latched.dstCap.toNat
      ∧ ∃ t, engineTurn lastByte = .next t :=
  ⟨by decide, lastByte_ok, rfl, rfl, by decide, _, rfl⟩

/-- The first and the last offset of the last clause, and a reserved one. -/
theorem witness_RegisterWritesStore :
    (0x34#8).toNat % 4 = 0 ∧ 0x34 ≤ (0x34#8).toNat ∧ (0xFC#8).toNat % 4 = 0 ∧ 0x34 ≤ (0xFC#8).toNat ∧ (0x00#8).toNat % 4 = 0 := by
  decide

theorem witness_RegisterReadsGiveTheValue :
    (0x34#8).toNat % 4 = 0 ∧ (0x48#8).toNat % 4 = 0 ∧ 0x48 ≤ (0x48#8).toNat ∧ (State.powerUp 63).busy = false
      ∧ lastByte.busy = true ∧ (0x40#8) ∈ [0x34#8, 0x38#8, 0x3C#8, 0x40#8] := by decide

/-- The first address outside, an unwritten byte, a written output byte of the running command, and a written byte outside its
outputs. -/
theorem witness_HostLoadsReadWrittenBytes :
    lastByte.memSize ≤ (64#32 : Word).toNat ∧ (63#32 : Word).toNat < lastByte.memSize ∧ lastByte.mem.read 63 = none
      ∧ lastByte.busy = true ∧ (∃ w ∈ outputWindows lastByte.lop lastByte.latched, w.contains 16 = true)
      ∧ lastByte.mem.read 7 = some 0x03 ∧ (∀ w ∈ lastByte.unseen, w.contains 7 = false)
      ∧ ∀ w ∈ outputWindows lastByte.lop lastByte.latched, w.contains 7 = false := by decide

/-- The first address outside; the last byte of memory, outside every window; and the last byte of the SRC window. -/
theorem witness_HostStoresWriteOneByte :
    lastByte.memSize ≤ (64#32 : Word).toNat ∧ (63#32 : Word).toNat < lastByte.memSize ∧ lastByte.busy = true
      ∧ (∀ w ∈ activeWindows lastByte.lop lastByte.latched, w.contains 63 = false)
      ∧ ∃ w ∈ activeWindows lastByte.lop lastByte.latched, w.contains 7 = true := by decide

theorem witness_IrqFollowsCompletion : ∃ t, hostRead 0x0C#8 lastByte = .next t := ⟨_, rfl⟩

/-- The smallest and the largest size of buffer memory. -/
theorem witness_PowerUpState : (1 : Nat) ≤ 1 ∧ 1 ≤ 2 ^ 32 ∧ (2 : Nat) ^ 32 ≤ 2 ^ 32
      ∧ (State.powerUp 0).memSize = 1 ∧ (State.powerUp 0xFFFFFFFF).memSize = 2 ^ 32 := by decide

theorem witness_WarmResetKeepsMemory :
    (State.powerUp 63).busy = false ∧ ∀ w ∈ outputWindows lastByte.lop lastByte.latched, w.contains 24 = false := by decide

theorem preDemo_ok (s : State) (hp : s.phase = .pre) (h : s.AtStart) : s.CommandOk := by
  unfold State.CommandOk
  rw [hp]
  exact ⟨fun _ => h, nofun, nofun, nofun, nofun⟩

/-- A command whose preflight fails, over written bytes. -/
theorem witness_WarmResetKeepsMemory_preflight :
    overlapping.CommandOk ∧ overlapping.phase = .pre
      ∧ preflightError overlapping.memSize overlapping.lop overlapping.latched ≠ none :=
  ⟨preDemo_ok _ rfl (by decide), rfl, by decide⟩

/-- SRC_LEN = 0. -/
theorem witness_WarmResetKeepsMemory_nothing_to_write :
    ({ demo .repackLin .pre 0 with latched := { demoRegs 0 with srcLen := 0 } }).CommandOk
      ∧ maxOutput .repackLin { demoRegs 0 with srcLen := 0 } = 0 :=
  ⟨preDemo_ok _ rfl (by decide), by decide⟩

/-- A repack of seven bytes to four: the DST byte 4 of its eight is past the longest output, and there is no IDX window. -/
theorem witness_WarmResetKeepsMemory_past_the_output :
    finalOdd.CommandOk ∧ maxOutput finalOdd.lop finalOdd.latched = 4
      ∧ ¬(finalOdd.latched.dstBase.toNat ≤ 20
          ∧ 20 < finalOdd.latched.dstBase.toNat + maxOutput finalOdd.lop finalOdd.latched)
      ∧ finalOdd.latched.dstWindow.contains 20 = true ∧ finalOdd.lop ≠ .repackTile :=
  ⟨finalOdd_ok, by decide, by decide, by decide, by decide⟩

/-- spec/70_reset_and_hazards.md R282, spec/93_implementation_defined.md I13: a byte of the DST window past any output keeps
its value through a warm reset of a running command; a failing preflight leaves even the overlapped SRC byte 7. -/
theorem test_warm_reset_keeps_bytes :
    (finalOdd.store 20 0x77).warmReset.mem.read 20 = some 0x77 ∧ overlapping.warmReset.mem.read 7 = some 0x03
      ∧ (finalOdd.store 20 0x77).couldWrite = [⟨.dst, 16, 4⟩] := by decide

/-- spec/41_repack.md R164, spec/60_exceptions.md R255: EDSTOVF in the final step leaves ACC shifted. -/
theorem test_final_overflow_shifts_acc :
    NextIs (engineTurn { finalOdd with latched := { finalOdd.latched with dstCap := 3 } })
      (fun t => t.acc == 0x50 && t.errCode == .edstovf && t.errInfo == 3) = true := by decide

/-- spec/40_command.md R110, spec/10_state.md R43: after completion a counter reads its value, without a STATUS read first. -/
theorem test_counter_read_after_completion :
    NextIs (engineTurn finalOdd) (fun t =>
      NextIs (hostRead 0x38#8 t) (fun u => u.replies == [.word 0x38#8 4#32])) = true := by decide

/-- spec/20_memory.md R65: an access past the end leaves the block as it is. -/
theorem test_host_access_outside : hostStore 64#32 1 lastByte = .next lastByte ∧ hostLoad 64#32 lastByte = .next lastByte :=
  ⟨rfl, rfl⟩

theorem witness_StepKeepsMemoryOk : lastByte.MemoryOk ∧ ∃ t, step lastByte = .next t := ⟨by decide, _, rfl⟩

theorem witness_StepKeepsStatusOk : lastByte.StatusOk ∧ ∃ t, step lastByte = .next t := ⟨by decide, _, rfl⟩

theorem witness_StepKeepsCommandOk : finalOdd.CommandOk ∧ ∃ t, step finalOdd = .next t := ⟨finalOdd_ok, _, rfl⟩

/-- A step that goes on, and the last one. -/
theorem witness_EngineStepsCountDown :
    lastByte.busy = true ∧ lastByte.CommandOk ∧ lastByte.done = false ∧ NextIs (engineTurn lastByte) (·.busy) = true
      ∧ finalOdd.busy = true ∧ finalOdd.CommandOk ∧ finalOdd.done = false ∧ NextIs (engineTurn finalOdd) (·.done) = true :=
  ⟨by decide, lastByte_ok, rfl, by decide, by decide, finalOdd_ok, rfl, by decide⟩

theorem witness_EveryCommandEnds : finalOdd.CommandOk ∧ ∃ t, engineRun finalOdd.stepsLeft finalOdd = .next t :=
  ⟨finalOdd_ok, _, rfl⟩

/-- The last source byte unwritten. -/
def unwrittenSource : State := { lastByte with mem := [] }

theorem witness_EngineFaultsOnlyOnUnwrittenSources_stops :
    unwrittenSource.CommandOk ∧ engineTurn unwrittenSource = .fault (.unwrittenRead 7) :=
  ⟨runDemo_ok _ rfl (by decide), rfl⟩

theorem lastByte_sources : lastByte.SourcesWritten := by
  intro w hw hr a ha
  have h : ∀ w ∈ activeWindows lastByte.lop lastByte.latched, w.id.written = false → w.base + w.length ≤ 8 := by decide
  have hb := h w hw hr
  have hlt : a < 8 := by
    simp only [Window.contains, Bool.and_eq_true, decide_eq_true_eq] at ha
    omega
  have hm : ∀ a, a < 8 → lastByte.mem.read a ≠ none := by decide
  exact hm a hlt

theorem witness_EngineFaultsOnlyOnUnwrittenSources_goes_on :
    lastByte.busy = true ∧ lastByte.CommandOk ∧ lastByte.SourcesWritten ∧ NextIs (engineTurn lastByte) (·.busy) = true :=
  ⟨by decide, lastByte_ok, lastByte_sources, by decide⟩

/-- The byte right after the DST window. -/
theorem witness_EngineWritesOnlyItsOutputWindows :
    lastByte.CommandOk ∧ (∃ t, engineTurn lastByte = .next t)
      ∧ ∀ w ∈ outputWindows lastByte.lop lastByte.latched, w.contains 24 = false :=
  ⟨lastByte_ok, ⟨_, rfl⟩, by decide⟩

/-- A last run that no longer fits. -/
def noRoom : State := { finalOdd with latched := { finalOdd.latched with dstCap := 3 } }

theorem witness_EngineErrorsFollowTheTable :
    noRoom.busy = true ∧ noRoom.CommandOk ∧ noRoom.err = false ∧ NextIs (engineTurn noRoom) (·.err) = true :=
  ⟨by decide, repackDemo_ok _ rfl (by decide), rfl, by decide⟩

theorem witness_LatchedConfigurationIsFixed :
    lastByte.busy = true ∧ NextIs (step lastByte) (·.busy) = true := by decide

theorem witness_EngineIgnoresRegisterWrites : Reg.ctrl ≠ .cmd ∧ Reg.ctrl ≠ .status := by decide

theorem witness_EngineIgnoresStoresElsewhere :
    lastByte.busy = true ∧ lastByte.MemoryOk ∧ lastByte.CommandOk
      ∧ ∀ w ∈ activeWindows lastByte.lop lastByte.latched, w.contains 24 = false :=
  ⟨by decide, by decide, lastByte_ok, by decide⟩

theorem witness_OnlyAStartMakesTheBlockBusy :
    ({ State.powerUp 63 with agenda := [cmdWrite 2#32] }).busy = false
      ∧ NextIs (step { State.powerUp 63 with agenda := [cmdWrite 2#32] }) (·.busy) = true := by decide

end Sys2Proof.Tests
end

section
/-! Encoding (spec/30_encoding.md sections 1 and 2): the command word as its two fields, decode against encode, and the decoded
values of the control-word fields. -/

namespace Sys2Proof

/-! ## The command word -/

/-- The fields Z and OP make up the whole command word (R91). -/
theorem commandWord_eq_iff_fields (v w : Word) :
    v = w ↔ v.extractLsb' 4 28 = w.extractLsb' 4 28 ∧ v.extractLsb' 0 4 = w.extractLsb' 0 4 := by
  refine ⟨fun h => by simp [h], fun ⟨hz, hop⟩ => BitVec.eq_of_toNat_eq ?_⟩
  have hzNat := congrArg BitVec.toNat hz
  have hopNat := congrArg BitVec.toNat hop
  simp only [BitVec.extractLsb'_toNat, Nat.shiftRight_eq_div_pow] at hzNat hopNat
  omega

@[simp] theorem encode_highBits (i : Instr) : (encode i).extractLsb' 4 28 = 0#28 := by
  cases i with
  | nop => exact Laws.CommandWord.nop.1
  | repackLin => exact Laws.CommandWord.repackLin.1
  | repackTile => exact Laws.CommandWord.repackTile.1
  | rleEnc => exact Laws.CommandWord.rleEnc.1
  | abort => exact Laws.CommandWord.abort.1

/-- The listed opcodes are those of the commands, and no others (R93). -/
theorem mem_opcodes_iff (op : BitVec 4) :
    op ∈ [0x0#4, 0x1#4, 0x2#4, 0x3#4, 0x8#4] ↔ ∃ i, op = (encode i).extractLsb' 0 4 := by
  constructor
  · intro h
    simp only [List.mem_cons, List.not_mem_nil, or_false] at h
    rcases h with rfl | rfl | rfl | rfl | rfl
    · exact ⟨.nop, rfl⟩
    · exact ⟨.repackLin, rfl⟩
    · exact ⟨.repackTile, rfl⟩
    · exact ⟨.rleEnc, rfl⟩
    · exact ⟨.abort, rfl⟩
  · rintro ⟨i, rfl⟩
    cases i <;> decide

/-- What `decode` accepts, field by field: Z is 0 and OP is the command's opcode (R91). -/
theorem decode_eq_ok_iff_fields (w : Word) (i : Instr) :
    decode w = .ok i ↔ w.extractLsb' 4 28 = 0#28 ∧ w.extractLsb' 0 4 = (encode i).extractLsb' 0 4 := by
  unfold decode
  split_ifs with hz
  · simp only [hz, true_and]
    generalize w.extractLsb' 0 4 = op
    revert op
    cases i <;> decide
  · simp [hz]

theorem decode_eq_ok_iff (w : Word) (i : Instr) : decode w = .ok i ↔ w = encode i := by
  rw [decode_eq_ok_iff_fields, commandWord_eq_iff_fields, encode_highBits]

/-- Settles O2: both halves read off what `decode` accepts field by field. -/
theorem decodeAcceptsExactlyTheValidWords : Obligations.DecodeAcceptsExactlyTheValidWords := by
  intro w
  refine ⟨?_, decode_eq_ok_iff w⟩
  simp only [decode_eq_ok_iff_fields, exists_and_left, mem_opcodes_iff]

end Sys2Proof

namespace Sys2Proof.Machine

/-! ## The control word (R92) -/

theorem CfgRegs.bin_eq_two_pow (c : CfgRegs) : c.bin = 2 ^ (c.ctrl.extractLsb' 0 2).toNat := Nat.one_shiftLeft _

theorem CfgRegs.bout_eq_two_pow (c : CfgRegs) : c.bout = 2 ^ (c.ctrl.extractLsb' 2 2).toNat := Nat.one_shiftLeft _

/-- A one-bit tile selector picks 8 or 16. -/
theorem eight_shiftLeft_selector (w : Word) (k : Nat) :
    8 <<< (w.extractLsb' k 1).toNat = if w.getLsbD k = true then 16 else 8 := by
  have hsel : ∀ sel : BitVec 1, 8 <<< sel.toNat = if sel.getLsbD 0 = true then 16 else 8 := by decide
  simpa using hsel (w.extractLsb' k 1)

theorem CfgRegs.tw_eq_ite (c : CfgRegs) : c.tw = if c.ctrl.getLsbD 4 = true then 16 else 8 :=
  eight_shiftLeft_selector c.ctrl 4

theorem CfgRegs.th_eq_ite (c : CfgRegs) : c.th = if c.ctrl.getLsbD 5 = true then 16 else 8 :=
  eight_shiftLeft_selector c.ctrl 5

/-- MAPW_M1 has six bits. -/
theorem CfgRegs.mapw_le (c : CfgRegs) : c.mapw ≤ 64 := c.mapwM1.isLt

/-- Settles O3: the depths are powers of two of their selectors, the tile sides and MAPW have their own lemmas, and the
enables are bits of CTRL by definition. -/
theorem ctrlFieldsDecode : Obligations.CtrlFieldsDecode := by
  intro c
  have hbin : ∀ sel, c.ctrl.extractLsb' 0 2 = sel → c.bin = 2 ^ sel.toNat := fun _ h => h ▸ c.bin_eq_two_pow
  have hbout : ∀ sel, c.ctrl.extractLsb' 2 2 = sel → c.bout = 2 ^ sel.toNat := fun _ h => h ▸ c.bout_eq_two_pow
  exact ⟨hbin 0#2, hbin 1#2, hbin 2#2, hbin 3#2, hbout 0#2, hbout 1#2, hbout 2#2, hbout 3#2, c.tw_eq_ite, c.th_eq_ite,
    rfl, c.mapw_pos, c.mapw_le, rfl, rfl, rfl, rfl, rfl⟩

end Sys2Proof.Machine
end

section
/-! The command port and the preflight (spec/40_command.md): the CMD write word by word, host register writes, the preflight
checks in their priority order, and the checked output writes. -/

namespace Sys2Proof.Machine

/-! ## The commands by phase (R113 to R117) -/

/-- The command that starts with a latched opcode (spec/10_state.md R46). -/
def Lop.command : Lop → Instr
  | .repackLin => .repackLin
  | .repackTile => .repackTile
  | .rleEnc => .rleEnc

@[simp] theorem exec_nop (s : State) : exec .nop s = .next s := rfl

theorem exec_abort_idle {s : State} (h : s.phase = .idle) : exec .abort s = .next s :=
  if_neg (by simp [State.busy, h])

theorem exec_abort_busy {s : State} (h : s.phase ≠ .idle) : exec .abort s = .next s.requestAbort :=
  if_pos (s.busy_iff.2 h)

/-- The three starting commands share one meaning. -/
theorem exec_command (op : Lop) (s : State) : exec op.command s = startOrReject op s := by
  cases op <;> rfl

theorem exec_command_idle {s : State} (h : s.phase = .idle) (op : Lop) : exec op.command s = .next (s.start op) := by
  rw [exec_command]
  exact if_neg (by simp [State.busy, h])

theorem exec_command_busy {s : State} (h : s.phase ≠ .idle) (op : Lop) : exec op.command s = .next s.reject := by
  rw [exec_command]
  exact if_pos (s.busy_iff.2 h)

theorem State.reservedWord_idle {s : State} (h : s.phase = .idle) (w : Word) :
    s.reservedWord w = s.clearForStart.completeErr .ecmd w :=
  if_neg (by simp [State.busy, h])

theorem State.reservedWord_busy {s : State} (h : s.phase ≠ .idle) (w : Word) : s.reservedWord w = s.reject :=
  if_pos (s.busy_iff.2 h)

/-! ## The CMD write (R113) -/

theorem hostWrite_cmd (w : Word) (s : State) : hostWrite 0x08#8 w s = issue w s := rfl

theorem issue_of_decode {w : Word} {i : Instr} (h : decode w = .ok i) (s : State) : issue w s = exec i s := by
  simp [issue, h]

theorem issue_encode (i : Instr) (s : State) : issue (encode i) s = exec i s :=
  issue_of_decode ((decode_eq_ok_iff _ i).2 rfl) s

theorem issue_reserved {w : Word} (h : ∀ i, decode w ≠ .ok i) (s : State) : issue w s = .next (s.reservedWord w) := by
  cases hw : decode w with
  | ok i => exact absurd hw (h i)
  | error e => simp [issue, hw]

/-- Every word is the word of a command or reserved (spec/30_encoding.md R94). -/
theorem command_or_reserved (w : Word) : (∃ i, w = encode i) ∨ ∀ i, decode w ≠ .ok i := by
  simp only [ne_eq, decode_eq_ok_iff]
  exact (em _).imp_right not_exists.1

/-- What a word that is no command's is not. -/
theorem ne_words_of_reserved {w : Word} (h : ∀ i, decode w ≠ .ok i) :
    w ≠ 0x00000000#32 ∧ w ≠ 0x00000001#32 ∧ w ≠ 0x00000002#32 ∧ w ≠ 0x00000003#32 ∧ w ≠ 0x00000008#32 := by
  simp only [ne_eq, decode_eq_ok_iff] at h
  exact ⟨h .nop, h .repackLin, h .repackTile, h .rleEnc, h .abort⟩

theorem issue_idle {s : State} (h : s.phase = .idle) (w : Word) : issue w s =
    if w = 0x00000000#32 ∨ w = 0x00000008#32 then .next s
    else if w = 0x00000001#32 then .next (s.start .repackLin)
    else if w = 0x00000002#32 then .next (s.start .repackTile)
    else if w = 0x00000003#32 then .next (s.start .rleEnc)
    else .next (s.clearForStart.completeErr .ecmd w) := by
  rcases command_or_reserved w with ⟨i, rfl⟩ | hres
  · rw [issue_encode]
    cases i with
    | nop => rfl
    | repackLin => exact exec_command_idle h .repackLin
    | repackTile => exact exec_command_idle h .repackTile
    | rleEnc => exact exec_command_idle h .rleEnc
    | abort => exact exec_abort_idle h
  · obtain ⟨h0, h1, h2, h3, h8⟩ := ne_words_of_reserved hres
    simp [issue_reserved hres, State.reservedWord_idle h, h0, h1, h2, h3, h8]

theorem issue_busy {s : State} (h : s.phase ≠ .idle) (w : Word) : issue w s =
    if w = 0x00000000#32 then .next s
    else if w = 0x00000008#32 then .next s.requestAbort
    else .next s.reject := by
  rcases command_or_reserved w with ⟨i, rfl⟩ | hres
  · rw [issue_encode]
    cases i with
    | nop => rfl
    | repackLin => exact exec_command_busy h .repackLin
    | repackTile => exact exec_command_busy h .repackTile
    | rleEnc => exact exec_command_busy h .rleEnc
    | abort => exact exec_abort_busy h
  · obtain ⟨h0, -, -, -, h8⟩ := ne_words_of_reserved hres
    simp [issue_reserved hres, State.reservedWord_busy h, h0, h8]

/-- Settles O6: the dispatch while idle and while busy. -/
theorem cmdWriteDispatch : Obligations.CmdWriteDispatch := by
  intro w s
  rw [hostWrite_cmd]
  by_cases h : s.phase = .idle
  · rw [if_pos h]
    exact issue_idle h w
  · rw [if_neg h]
    exact issue_busy h w

/-- Settles O7: the reserved word's completion, and two words that are no command's. -/
theorem reservedWordCompletesWithEcmd : Obligations.ReservedWordCompletesWithEcmd := by
  refine ⟨fun s w h hres => ?_, fun i => ?_⟩
  · rw [hostWrite_cmd, issue_reserved hres, State.reservedWord_idle h]
    rfl
  · have h11 : decode 0x00000011#32 = .error .highBits := rfl
    have h4 : decode 0x00000004#32 = .error (.reservedOp 4#4) := rfl
    simp [h11, h4]

/-- Settles O8. -/
theorem nopChangesNothing : Obligations.NopChangesNothing := exec_nop

/-- Settles O9: ABORT by phase, and the abort test in front of every phase's step. -/
theorem abortIsTakenAtTheNextStep : Obligations.AbortIsTakenAtTheNextStep := fun s =>
  ⟨exec_abort_idle, fun hbusy => ⟨exec_abort_busy hbusy, exec_abort_busy (s := s.requestAbort) hbusy,
    engineTurn_abort hbusy⟩⟩

/-- BUSY is bit 0 of the STATUS word (spec/10_state.md R27). -/
theorem State.statusWord_busy (s : State) : s.statusWord.getLsbD 0 = s.busy := by
  rw [State.statusWord, BitVec.getLsbD_append]
  simp

/-- Settles O10: the start of a command leaves the state R117 describes, with BUSY = 1 as its phase is PRE. -/
theorem startLatchesTheConfiguration : Obligations.StartLatchesTheConfiguration := by
  intro s i op h hop
  have hi : i = op.command := by
    simp only [List.mem_cons, Prod.mk.injEq, List.not_mem_nil, or_false] at hop
    rcases hop with ⟨rfl, rfl⟩ | ⟨rfl, rfl⟩ | ⟨rfl, rfl⟩ <;> rfl
  exact ⟨s.start op, hi ▸ exec_command_idle h op, State.statusWord_busy _, rfl⟩

/-- Settles O17: what follows an ended part of a step does not run. -/
theorem raiseEndsTheStep : Obligations.RaiseEndsTheStep := fun e info s k =>
  Progress.ended_andThen (s.completeErr e info) k

/-! ## Register writes (R111) -/

theorem Reg.offset_of_atOffset {off : BitVec 8} {r : Reg} (h : Reg.atOffset off = some r) : off = Reg.offset r := by
  unfold Reg.atOffset at h
  split at h <;> cases h <;> rfl

/-- A host write at the offset of any register but CMD. -/
theorem hostWrite_offset {r : Reg} (hr : r ≠ .cmd) (v : Word) (s : State) :
    hostWrite (Reg.offset r) v s = .next (s.writeReg r v) := by
  cases r with
  | cmd => exact absurd rfl hr
  | _ => rfl

/-- IDENT and the registers from IN_COUNT on ignore a write. -/
theorem State.writeReg_readOnly {r : Reg} (hr : Reg.offset r = 0x00#8 ∨ 0x34 ≤ (Reg.offset r).toNat) (v : Word)
    (s : State) : s.writeReg r v = s := by
  cases r with
  | ident | inCount | outCount | idxCount | tileCount | errInfo => rfl
  | _ => exact absurd hr (by decide)

/-- IDENT, the counters, ERR_INFO and the reserved offsets ignore a write. -/
theorem hostWrite_readOnly {off : BitVec 8} (haligned : off.toNat % 4 = 0) (hoff : off = 0x00#8 ∨ 0x34 ≤ off.toNat)
    (v : Word) (s : State) : hostWrite off v s = .next s := by
  rcases hostWrite_cases off v s with ⟨hmis, -⟩ | ⟨hcmd, -⟩ | ⟨r, -, hr, heq⟩ | ⟨-, heq⟩
  · exact absurd haligned hmis
  · obtain rfl := Reg.offset_of_atOffset hcmd
    exact absurd hoff (by decide)
  · obtain rfl := Reg.offset_of_atOffset hr
    rw [heq, State.writeReg_readOnly hoff]
  · exact heq

/-- Settles O39: a write by register, and the offsets that ignore it. -/
theorem registerWritesStore : Obligations.RegisterWritesStore := fun v s =>
  have hwrite (r : Reg) (hr : r ≠ .cmd) : hostWrite (Reg.offset r) v s = .next (s.writeReg r v) :=
    hostWrite_offset hr v s
  ⟨hwrite .ctrl nofun, hwrite .srcBase nofun, hwrite .srcLen nofun, hwrite .dstBase nofun, hwrite .dstCap nofun,
    hwrite .idxBase nofun, hwrite .idxCap nofun, hwrite .palBase nofun, hwrite .palCount nofun, hwrite .magic nofun,
    hwrite .status nofun, hostWrite_cmd v s, fun _ haligned hoff => hostWrite_readOnly haligned hoff v s⟩

/-! ## The preflight step (R120) -/

theorem engineTurn_preflight_fails {s : State} {e : ErrCode} {info : Word} (hp : s.phase = .pre)
    (ha : s.abortReq = false) (herr : preflightError s.memSize s.lop s.latched = some (e, info)) :
    engineTurn s = .next (s.completeErr e info) := by
  rw [engineTurn_phase (by simp [hp]) ha]
  simp [phaseStep, hp, stepPre, herr, raise]

theorem engineTurn_preflight_passes {s : State} (hp : s.phase = .pre) (ha : s.abortReq = false)
    (hok : preflightError s.memSize s.lop s.latched = none) :
    engineTurn s = .next { s with phase := firstPhase s.lop s.latched } := by
  rw [engineTurn_phase (by simp [hp]) ha]
  simp [phaseStep, hp, stepPre, hok]

/-! ## Bounds (R121) -/

theorem Window.overruns_iff (memSize : Nat) (w : Window) :
    w.overruns memSize = true ↔ memSize < w.base + w.length := by simp [Window.overruns]

theorem Window.overruns_eq_false_iff (memSize : Nat) (w : Window) :
    w.overruns memSize = false ↔ w.base + w.length ≤ memSize := by simp [Window.overruns]

/-- The bounds check reports the first window that does not fit. -/
theorem checkBounds_of_first {memSize : Nat} {before after : List Window} {w : Window}
    (hbefore : ∀ x ∈ before, x.base + x.length ≤ memSize) (hw : memSize < w.base + w.length) :
    checkBounds memSize (before ++ w :: after) = some (.ewindow, BitVec.ofNat 32 w.id.num) := by
  have hfind : (before ++ w :: after).find? (·.overruns memSize) = some w :=
    List.find?_eq_some_iff_append.2 ⟨(w.overruns_iff memSize).2 hw, before, after, rfl, fun x hx => by
      simpa [Window.overruns_eq_false_iff] using hbefore x hx⟩
  rw [checkBounds, hfind]
  rfl

theorem preflightError_of_bounds {memSize : Nat} {op : Lop} {c : CfgRegs} {p : ErrCode × Word}
    (h : checkBounds memSize (activeWindows op c) = some p) : preflightError memSize op c = some p := by
  rw [preflightError, h, Option.some_or]

theorem activeWindows_repackTile (c : CfgRegs) : activeWindows .repackTile c =
    if c.idxEn then [c.srcWindow, c.dstWindow, c.idxWindow] else [c.srcWindow, c.dstWindow] := rfl

theorem activeWindows_rleEnc (c : CfgRegs) : activeWindows .rleEnc c =
    if c.palEn then [c.srcWindow, c.dstWindow, c.palWindow] else [c.srcWindow, c.dstWindow] := rfl

theorem outputWindows_repackTile (c : CfgRegs) : outputWindows .repackTile c =
    if c.idxEn then [c.dstWindow, c.idxWindow] else [c.dstWindow] := by
  rw [outputWindows, activeWindows_repackTile]
  split_ifs <;> rfl

theorem outputWindows_rleEnc (c : CfgRegs) : outputWindows .rleEnc c = [c.dstWindow] := by
  rw [outputWindows, activeWindows_rleEnc]
  split_ifs <;> rfl

/-- Settles O12: the first window that overruns, the empty window, and the table of active windows. -/
theorem firstWindowOutOfBoundsIsReported : Obligations.FirstWindowOutOfBoundsIsReported := by
  refine ⟨fun s before after w hp ha hws hbefore hw => ?_, fun memSize w hlen => ?_, ?_⟩
  · have hbounds := checkBounds_of_first (after := after) hbefore hw
    rw [engineTurn_preflight_fails hp ha (preflightError_of_bounds (hws ▸ hbounds))]
    obtain ⟨id, base, length⟩ := w
    cases id <;> rfl
  · rw [w.overruns_eq_false_iff, hlen, Nat.add_zero]
  · rintro c _ _ _ _ rfl rfl rfl rfl
    exact ⟨rfl, rfl, activeWindows_repackTile c, outputWindows_repackTile c, activeWindows_rleEnc c,
      outputWindows_rleEnc c⟩

/-! ## Overlaps (R122) -/

theorem Window.conflicts_iff (x y : Window) : x.conflicts y = true ↔ x.Overlaps y := by
  simp [Window.conflicts, Window.Overlaps, and_assoc]

theorem firstConflict_cons_of_forall {x : Window} {ys : List Window} (h : ∀ y ∈ ys, ¬x.Overlaps y) :
    firstConflict (x :: ys) = firstConflict ys := by
  have hfind : ys.find? x.conflicts = none :=
    List.find?_eq_none.2 fun y hy hc => h y hy ((x.conflicts_iff y).1 hc)
  rw [firstConflict, hfind]

theorem firstConflict_cons_of_overlaps {x y : Window} {b c : List Window} (hb : ∀ q ∈ b, ¬x.Overlaps q)
    (hxy : x.Overlaps y) : firstConflict (x :: (b ++ y :: c)) = some (x, y) := by
  have hfind : (b ++ y :: c).find? x.conflicts = some y :=
    List.find?_eq_some_iff_append.2 ⟨(x.conflicts_iff y).2 hxy, b, c, rfl, fun q hq => by
      simpa [← Window.conflicts_iff] using hb q hq⟩
  rw [firstConflict, hfind]

/-- The overlap check finds the first pair in lexicographic order: no window before `x` overlaps a later one, and `x` overlaps
none before `y`. -/
theorem firstConflict_of_first {a b c : List Window} {x y : Window}
    (ha : ∀ a₁ p a₂, a = a₁ ++ p :: a₂ → ∀ q ∈ a₂ ++ x :: (b ++ y :: c), ¬p.Overlaps q)
    (hb : ∀ q ∈ b, ¬x.Overlaps q) (hxy : x.Overlaps y) :
    firstConflict (a ++ x :: (b ++ y :: c)) = some (x, y) := by
  induction a with
  | nil => exact firstConflict_cons_of_overlaps hb hxy
  | cons p a ih =>
    rw [List.cons_append, firstConflict_cons_of_forall (ha [] p a rfl)]
    exact ih fun a₁ q a₂ h => ha (p :: a₁) q a₂ (congrArg (p :: ·) h)

theorem firstConflict_eq_none_of_pairwise {ws : List Window} (h : ws.Pairwise fun x y => ¬x.Overlaps y) :
    firstConflict ws = none := by
  induction h with
  | nil => rfl
  | cons hx _ ih => rw [firstConflict_cons_of_forall hx, ih]

/-- Once every window fits, a conflict is what preflight reports. -/
theorem preflightError_of_conflict {memSize : Nat} {op : Lop} {c : CfgRegs} {x y : Window}
    (hfit : ∀ w ∈ activeWindows op c, w.base + w.length ≤ memSize)
    (hfirst : firstConflict (activeWindows op c) = some (x, y)) :
    preflightError memSize op c = some (.ewindow, BitVec.ofNat 32 (x.id.num ||| (y.id.num <<< 4))) := by
  rw [preflightError, (checkBounds_eq_none _ _).2 hfit, checkOverlap, hfirst]
  rfl

/-- Settles O13: the first overlapping pair, two windows that are only read, and two that are adjacent. -/
theorem firstOverlapIsReported : Obligations.FirstOverlapIsReported := by
  refine ⟨fun s a b c x y hp ha hws hfit hbefore hbetween hxy => ?_, ?_, ?_⟩
  · have hfirst := firstConflict_of_first hbefore hbetween hxy
    exact engineTurn_preflight_fails hp ha (preflightError_of_conflict hfit (hws ▸ hfirst))
  · rintro x y hx hy ⟨hwritten, -⟩
    simp [hx, hy, WindowId.written] at hwritten
  · rintro x y hadj ⟨-, -, -, -, hlt⟩
    omega

/-! ## The command's own check (R123, R124) -/

/-- With the windows in order only the command's own check is left. -/
theorem preflightError_of_windowsOk {s : State} (h : s.WindowsOk) :
    preflightError s.memSize s.lop s.latched = checkOwn s.lop s.latched := by
  obtain ⟨hfit, hdisjoint⟩ := h
  rw [preflightError, (checkBounds_eq_none _ _).2 hfit, checkOverlap, firstConflict_eq_none_of_pairwise hdisjoint]
  rfl

/-- Depths are powers of two, so the smaller divides the larger. -/
theorem CfgRegs.bin_dvd_bout {c : CfgRegs} (h : c.bin ≤ c.bout) : c.bin ∣ c.bout := by
  rw [c.bin_eq_two_pow, c.bout_eq_two_pow] at *
  exact Nat.pow_dvd_pow 2 ((Nat.pow_le_pow_iff_right (by decide)).1 h)

theorem CfgRegs.bout_dvd_bin {c : CfgRegs} (h : c.bout ≤ c.bin) : c.bout ∣ c.bin := by
  rw [c.bin_eq_two_pow, c.bout_eq_two_pow] at *
  exact Nat.pow_dvd_pow 2 ((Nat.pow_le_pow_iff_right (by decide)).1 h)

/-- An input byte holds whole output bytes' worth of pixels when the depth does not fall. -/
theorem CfgRegs.pOut_dvd_pIn {c : CfgRegs} (h : c.bin ≤ c.bout) : c.pOut ∣ c.pIn := by
  obtain ⟨k, hk⟩ := CfgRegs.bin_dvd_bout h
  refine ⟨k, Nat.eq_of_mul_eq_mul_right c.bin_pos ?_⟩
  calc c.pIn * c.bin = c.pOut * c.bout := c.pIn_mul_bin.trans c.pOut_mul_bout.symm
    _ = c.pOut * k * c.bin := by rw [hk, Nat.mul_comm c.bin, Nat.mul_assoc]

/-- When the depth falls, an output byte takes the pixels of Bin/Bout input bytes. -/
theorem CfgRegs.pOut_eq_mul_pIn {c : CfgRegs} (h : c.bout ≤ c.bin) : c.pOut = c.bin / c.bout * c.pIn := by
  refine Nat.eq_of_mul_eq_mul_right c.bout_pos ?_
  calc c.pOut * c.bout = c.pIn * c.bin := c.pOut_mul_bout.trans c.pIn_mul_bin.symm
    _ = c.pIn * (c.bin / c.bout * c.bout) := by rw [Nat.div_mul_cancel (CfgRegs.bout_dvd_bin h)]
    _ = c.bin / c.bout * c.pIn * c.bout := by rw [Nat.mul_left_comm, Nat.mul_assoc]

/-- When the pixel count can fail to fill the output bytes (R123). -/
theorem lenRemainder_ne_zero {c : CfgRegs} (h : lenRemainder c ≠ 0) :
    c.bout < c.bin ∧ ¬c.bin / c.bout ∣ c.srcLen.toNat := by
  have hndvd : ¬c.pOut ∣ c.srcLen.toNat * c.pIn := fun hd => h (Nat.mod_eq_zero_of_dvd hd)
  have hlt : c.bout < c.bin := by
    by_contra hle
    exact hndvd ((CfgRegs.pOut_dvd_pIn (not_lt.1 hle)).mul_left _)
  refine ⟨hlt, fun hd => hndvd ?_⟩
  rw [CfgRegs.pOut_eq_mul_pIn hlt.le]
  exact Nat.mul_dvd_mul_right hd _

/-- Settles O14: with the windows in order the length check alone decides. -/
theorem lengthCheckOfRepackLin : Obligations.LengthCheckOfRepackLin := by
  intro s hp ha hop hws
  have hown : preflightError s.memSize s.lop s.latched = checkLen s.latched := by
    rw [preflightError_of_windowsOk hws, hop, checkOwn]
  refine ⟨fun hr hpad => ?_, fun hok => ?_, lenRemainder_ne_zero⟩
  · exact engineTurn_preflight_fails hp ha (hown.trans (checkLen_of_fail hr hpad))
  · rw [engineTurn_preflight_passes hp ha (hown.trans ((checkLen_eq_none _).2 hok)), hop, firstPhase]

/-- Settles O15: with the windows in order the geometry check alone decides. -/
theorem geometryCheckOfRepackTile : Obligations.GeometryCheckOfRepackTile := by
  intro s hp ha hop hws
  have hown : preflightError s.memSize s.lop s.latched = checkGeom s.latched := by
    rw [preflightError_of_windowsOk hws, hop, checkOwn]
  refine ⟨fun hr => ?_, fun hr => ?_⟩
  · exact engineTurn_preflight_fails hp ha (hown.trans (checkGeom_of_fail hr))
  · rw [engineTurn_preflight_passes hp ha (hown.trans ((checkGeom_eq_none _).2 hr)), hop, firstPhase]

/-! ## The checked writes (R131, R132) -/

theorem State.read_store_same (a : Nat) (v : Byte) (s : State) : (s.store a v).mem.read a = some v :=
  Memory.read_write_same s.mem a v

theorem State.read_store_ne {a b : Nat} (h : b ≠ a) (v : Byte) (s : State) : (s.store a v).mem.read b = s.mem.read b :=
  Memory.read_write_ne s.mem v h

/-- Two bytes into one byte of room: the first stays written and the second raises (R131). -/
theorem dstWrites_pair_overflow {s : State} (hroom : s.outCount ≠ s.latched.dstCap)
    (hlast : s.outCount + 1 = s.latched.dstCap) (haddr : s.dstAddr < s.memSize) (v w : Byte) :
    dstWrites [v, w] s = .ended ((s.store s.dstAddr v).countOut.completeErr .edstovf (s.outCount + 1)) := by
  have hfull : (s.store s.dstAddr v).countOut.outCount = (s.store s.dstAddr v).countOut.latched.dstCap := hlast
  rw [dstWrites, dstWrite_eq hroom haddr, Progress.go_andThen, dstWrites, dstWrite_full hfull, Progress.ended_andThen]
  rfl

/-- Settles O18: the write with and without room, and the half-written item. -/
theorem destinationWriteIsChecked : Obligations.DestinationWriteIsChecked := by
  refine ⟨fun v s => ⟨fun hfull => dstWrite_full hfull v, fun hroom haddr => ?_⟩, fun v w s hroom hlast haddr => ?_⟩
  · exact ⟨_, dstWrite_eq hroom haddr v, s.read_store_same _ v, fun _ ha => s.read_store_ne ha v, rfl⟩
  · exact ⟨_, dstWrites_pair_overflow hroom hlast haddr v w, rfl, hlast, hlast, s.read_store_same _ v,
      fun _ ha => s.read_store_ne ha v⟩

theorem idxWrite_full {s : State} (h : s.idxCount = s.latched.idxCap) (v : Byte) :
    idxWrite v s = .ended (s.completeErr .eidxovf s.idxCount) := if_pos h

/-- Settles O19: the write with and without room. -/
theorem indexWriteIsChecked : Obligations.IndexWriteIsChecked := by
  refine fun v s => ⟨fun hfull => idxWrite_full hfull v, fun hroom haddr => ?_⟩
  exact ⟨_, idxWrite_eq hroom haddr v, s.read_store_same _ v, fun _ ha => s.read_store_ne ha v, rfl⟩

end Sys2Proof.Machine
end

section
/-! The repacker (spec/41_repack.md): unpacking by rotations, the tile-address decoder and the final step. -/

namespace Sys2Proof.Machine

/-! ## Rotations (spec/00_scope.md R10) -/

/-- A bit of the rotated byte: the low bits come from the top of the byte, the others from `j` places below. -/
theorem getLsbD_rol8 (x : Byte) {j : Nat} (hj : j ≤ 8) (i : Nat) :
    (rol8 x j).getLsbD i = if i < j then x.getLsbD (8 - j + i) else decide (i < 8) && x.getLsbD (i - j) := by
  unfold rol8
  split_ifs with h
  · simp [h]
  · have hout : x.getLsbD (8 - j + i) = false := BitVec.getLsbD_of_ge _ _ (by omega)
    simp [h, hout]

@[simp] theorem rol8_zero (x : Byte) : rol8 x 0 = x := by
  refine BitVec.eq_of_getLsbD_eq fun i hi => ?_
  rw [getLsbD_rol8 x (Nat.zero_le 8)]
  simp [hi]

@[simp] theorem rol8_eight (x : Byte) : rol8 x 8 = x := by simp [rol8]

/-- Two rotations by at most a byte together are one: a bit is brought round by the second, by the first, or by neither. -/
theorem rol8_rol8 (x : Byte) {j k : Nat} (h : j + k ≤ 8) : rol8 (rol8 x j) k = rol8 x (j + k) := by
  refine BitVec.eq_of_getLsbD_eq fun i hi => ?_
  rw [getLsbD_rol8 _ (by omega), getLsbD_rol8 _ (by omega), getLsbD_rol8 _ (by omega), getLsbD_rol8 _ h]
  by_cases hik : i < k
  · have hpos : 8 - k + i - j = 8 - (j + k) + i := by omega
    simp [hik, show ¬8 - k + i < j by omega, show 8 - k + i < 8 by omega, show i < j + k by omega, hpos]
  · by_cases hijk : i < j + k
    · have hpos : 8 - j + (i - k) = 8 - (j + k) + i := by omega
      simp [hik, hi, hijk, show i - k < j by omega, hpos]
    · have hpos : i - k - j = i - (j + k) := by omega
      simp [hik, hi, hijk, show ¬i - k < j by omega, show i - k < 8 by omega, hpos]

theorem rol8_iterate (bin : Nat) (x : Byte) {n : Nat} (h : n * bin ≤ 8) :
    (fun y => rol8 y bin)^[n] x = rol8 x (n * bin) := by
  induction n with
  | zero => simp
  | succ n ih =>
    rw [Nat.succ_mul] at h ⊢
    rw [Function.iterate_succ_apply', ih (by omega), rol8_rol8 x h]

theorem getLsbD_mask (bin i : Nat) : (mask bin).getLsbD i = (decide (i < 8) && decide (i < bin)) := by
  rw [mask, BitVec.getLsbD_ofNat, Nat.testBit_two_pow_sub_one]

/-- The field of `bin` bits that a rotation by `j` brings to the bottom of the byte is the one `8 - j` bits up. -/
theorem rol8_and_mask (x : Byte) {bin j : Nat} (hbin : bin ≤ j) (hj : j ≤ 8) :
    rol8 x j &&& mask bin = x >>> (8 - j) &&& mask bin := by
  refine BitVec.eq_of_getLsbD_eq fun i hi => ?_
  rw [BitVec.getLsbD_and, BitVec.getLsbD_and, getLsbD_rol8 x hj, getLsbD_mask, BitVec.getLsbD_ushiftRight]
  by_cases h : i < bin
  · simp [h, Nat.lt_of_lt_of_le h hbin]
  · simp [h]

/-! ## Unpacking (R150) -/

/-- The `k`-th pixel is masked out of the byte after `k + 1` rotations. -/
theorem unpackFrom_eq_map_rol8 (bin : Nat) {n : Nat} (x : Byte) (h : n * bin ≤ 8) :
    unpackFrom bin n x = (List.range n).map fun k => rol8 x ((k + 1) * bin) &&& mask bin := by
  induction n generalizing x with
  | zero => rfl
  | succ n ih =>
    rw [Nat.succ_mul] at h
    rw [unpackFrom, ih _ (by omega), List.range_succ_eq_map, List.map_cons, List.map_map, Nat.zero_add, Nat.one_mul]
    refine congrArg _ (List.map_congr_left fun k hk => ?_)
    have hle : (k + 1) * bin ≤ n * bin := Nat.mul_le_mul_right _ (List.mem_range.1 hk)
    have hsum : bin + (k + 1) * bin = (k + 1 + 1) * bin := by ring
    rw [rol8_rol8 x (by omega), hsum, Function.comp_apply]

theorem unpack_eq_fieldPixels (b : Byte) (bin : Nat) : unpack b bin = fieldPixels b bin := by
  have hfits : 8 / bin * bin ≤ 8 := Nat.div_mul_le_self 8 bin
  rw [unpack, unpackFrom_eq_map_rol8 bin b hfits, fieldPixels]
  refine List.map_congr_left fun k hk => ?_
  have hle : (k + 1) * bin ≤ 8 / bin * bin := Nat.mul_le_mul_right _ (List.mem_range.1 hk)
  exact rol8_and_mask b (Nat.le_mul_of_pos_left bin k.succ_pos) (by omega)

/-- The pixels of every depth fill a byte. -/
theorem pixels_mul_depth (sel : BitVec 2) : 8 / (1 <<< sel.toNat) * (1 <<< sel.toNat) = 8 := by
  revert sel
  decide

/-- Settles O20: the rotations so far place each field, and those of a whole byte add up to 8. -/
theorem unpackReadsTheFields : Obligations.UnpackReadsTheFields := by
  refine ⟨fun b sel => ⟨unpack_eq_fieldPixels b _, ?_⟩, by decide⟩
  rw [rol8_iterate _ b (pixels_mul_depth sel).le, pixels_mul_depth, rol8_eight]

/-! ## The tile-address decoder (R158 to R160) -/

/-- The number of digits `R`, `C` below `a`, `r` below `b` and `x` below `w` (most significant first) with its two middle digits
exchanged: what the tile-address decoder does to tile row, tile column, row inside the tile and byte inside the row. -/
def swapDigits (a b w k : Nat) : Nat :=
  ((k / (b * w) / a * b + k / w % b) * a + k / (b * w) % a) * w + k % w

theorem tileOffset_eq_swapDigits (c : CfgRegs) (k : Nat) :
    tileOffset c (k / c.tileb) (k % c.tileb) = swapDigits c.mapw c.th c.twb k := by
  rw [tileOffset, swapDigits, c.tileb_eq, CfgRegs.rowb, Nat.mod_mul_left_mod, Nat.mod_mul_left_div_self]
  ring

/-- Every number has its four digits. -/
theorem exists_digits {a b w : Nat} (ha : 0 < a) (hb : 0 < b) (hw : 0 < w) (k : Nat) :
    ∃ R C r x, C < a ∧ r < b ∧ x < w ∧ k = ((R * a + C) * b + r) * w + x := by
  refine ⟨k / w / b / a, k / w / b % a, k / w % b, k % w, Nat.mod_lt _ ha, Nat.mod_lt _ hb, Nat.mod_lt _ hw, ?_⟩
  rw [Nat.div_add_mod', Nat.div_add_mod', Nat.div_add_mod']

theorem mul_add_div_of_lt {w x : Nat} (hx : x < w) (y : Nat) : (y * w + x) / w = y := by
  rw [Nat.mul_comm, Nat.mul_add_div (Nat.zero_lt_of_lt hx), Nat.div_eq_of_lt hx, Nat.add_zero]

theorem swapDigits_of_digits {a b w R C r x : Nat} (hC : C < a) (hr : r < b) (hx : x < w) :
    swapDigits a b w (((R * a + C) * b + r) * w + x) = ((R * b + r) * a + C) * w + x := by
  rw [swapDigits, Nat.mul_comm b w, ← Nat.div_div_eq_div_mul, mul_add_div_of_lt hx, mul_add_div_of_lt hr,
    mul_add_div_of_lt hC, Nat.mul_add_mod_of_lt hr, Nat.mul_add_mod_of_lt hC, Nat.mul_add_mod_of_lt hx]

theorem mul_add_lt_mul_iff {w x : Nat} (hx : x < w) (y z : Nat) : y * w + x < z * w ↔ y < z := by
  rw [← Nat.div_lt_iff_lt_mul (Nat.zero_lt_of_lt hx), mul_add_div_of_lt hx]

/-- Exchanging the digits back gives the number. -/
theorem swapDigits_swapDigits {a b w : Nat} (ha : 0 < a) (hb : 0 < b) (hw : 0 < w) (k : Nat) :
    swapDigits b a w (swapDigits a b w k) = k := by
  obtain ⟨R, C, r, x, hC, hr, hx, rfl⟩ := exists_digits ha hb hw k
  rw [swapDigits_of_digits hC hr hx, swapDigits_of_digits hr hC hx]

/-- The leading digit stays, so its bound does. -/
theorem swapDigits_lt {a b w rows k : Nat} (ha : 0 < a) (hb : 0 < b) (hw : 0 < w) (hk : k < rows * a * b * w) :
    swapDigits a b w k < rows * b * a * w := by
  obtain ⟨R, C, r, x, hC, hr, hx, rfl⟩ := exists_digits ha hb hw k
  rw [mul_add_lt_mul_iff hx, mul_add_lt_mul_iff hr, mul_add_lt_mul_iff hC] at hk
  rwa [swapDigits_of_digits hC hr hx, mul_add_lt_mul_iff hx, mul_add_lt_mul_iff hC, mul_add_lt_mul_iff hr]

/-- Settles O23: the decoder exchanges two digits of the stream index, and the exchange undoes itself. -/
theorem tileOffsetsAreABijection : Obligations.TileOffsetsAreABijection := by
  intro c rows hlen
  have hstream : c.srcLen.toNat = rows * c.mapw * c.th * c.twb := by rw [hlen, c.tileb_eq, Nat.mul_assoc _ c.th]
  have hsource : c.srcLen.toNat = rows * c.th * c.mapw * c.twb := by rw [hstream, Nat.mul_right_comm rows]
  simp only [tileOffset_eq_swapDigits]
  refine ⟨fun k hk => ?_, fun k l _ _ heq => ?_, fun o ho => ?_⟩
  · rw [hstream] at hk
    exact hsource ▸ swapDigits_lt c.mapw_pos c.th_pos c.twb_pos hk
  · exact Function.LeftInverse.injective (swapDigits_swapDigits c.mapw_pos c.th_pos c.twb_pos) heq
  · rw [hsource] at ho
    exact ⟨swapDigits c.th c.mapw c.twb o, hstream ▸ swapDigits_lt c.th_pos c.mapw_pos c.twb_pos ho,
      swapDigits_swapDigits c.th_pos c.mapw_pos c.twb_pos o⟩

/-! ## The final step (R164) -/

/-- With no pixel in IN_SR and all source read, the turn is the final step. -/
theorem engineTurn_repackFinal {s : State} (hp : s.phase = .repack) (ha : s.abortReq = false) (hleft : s.inLeft = 0)
    (hread : s.inCount = s.latched.srcLen) : engineTurn s = (repackFinal s).outcome := by
  rw [engineTurn_phase (by simp [hp]) ha, phaseStep, hp]
  simp only [stepRepack, if_pos hleft, if_pos hread]

theorem repackFinal_nothing_pending {s : State} (h : s.accN = 0) : repackFinal s = .go s.completeOk :=
  if_neg (not_not.2 h)

theorem repackFinal_full {s : State} (h : s.accN ≠ 0) (hfull : s.outCount = s.latched.dstCap) :
    repackFinal s = .ended (s.padAcc.completeErr .edstovf s.outCount) := by
  rw [repackFinal, if_pos h, dstWrite_full (s := s.padAcc) hfull, Progress.ended_andThen]
  rfl

theorem repackFinal_pads {s : State} (h : s.accN ≠ 0) (hroom : s.outCount ≠ s.latched.dstCap)
    (haddr : s.dstAddr < s.memSize) :
    repackFinal s = .go (s.padAcc.store s.dstAddr s.padAcc.acc).countOut.setPadded.clearAcc.completeOk := by
  rw [repackFinal, if_pos h, dstWrite_eq (s := s.padAcc) hroom haddr, Progress.go_andThen]
  rfl

/-- Whole tiles fill whole output bytes. -/
theorem lenRemainder_of_geomRemainder {c : CfgRegs} (h : geomRemainder c = 0) : lenRemainder c = 0 := by
  obtain ⟨tiles, htiles⟩ := (Nat.dvd_mul_left c.tileb c.mapw).trans (Nat.dvd_of_mod_eq_zero h)
  refine Nat.mod_eq_zero_of_dvd ⟨tiles * c.tileob, ?_⟩
  calc c.srcLen.toNat * c.pIn = tiles * (c.tileb * c.pIn) := by rw [htiles]; ring
    _ = tiles * (c.tileob * c.pOut) := by rw [c.tileb_pixels, c.tileob_pixels]
    _ = c.pOut * (tiles * c.tileob) := by ring

/-- Once all source is read, the pixels pending in ACC are those that fill no output byte. -/
theorem State.RepackOk.accN_eq_lenRemainder {s : State} (hok : s.RepackOk) (hleft : s.inLeft = 0)
    (hread : s.inCount = s.latched.srcLen) : s.accN = lenRemainder s.latched := by
  obtain ⟨-, -, -, -, -, haccN, -, hpixels, -⟩ := hok
  rw [lenRemainder, ← hread, hpixels, hleft, Nat.add_zero, Nat.mul_add_mod_of_lt haccN]

/-- A command with a partial last byte is REPACK_LIN with PAD_MODE = 1: its preflight refuses the others. -/
theorem repackLin_padMode_of_lenRemainder {memSize : Nat} {op : Lop} {c : CfgRegs} (hop : op ≠ .rleEnc)
    (hpre : preflightError memSize op c = none) (hrem : lenRemainder c ≠ 0) : op = .repackLin ∧ c.padMode = true := by
  have hown := own_of_preflight hpre
  cases op with
  | repackLin => exact ⟨rfl, ((checkLen_eq_none c).1 hown).resolve_left hrem⟩
  | repackTile => exact absurd (lenRemainder_of_geomRemainder ((checkGeom_eq_none c).1 hown)) hrem
  | rleEnc => exact absurd rfl hop

/-- Settles O27: the final step without a partial byte, without room and with room, and when a byte is partial. -/
theorem finalRepackStepPads : Obligations.FinalRepackStepPads := by
  intro s hp ha hleft hread
  rw [engineTurn_repackFinal hp ha hleft hread]
  refine ⟨fun h => ?_, fun h hfull => ?_, fun h hroom haddr => ?_, fun hok h => ?_⟩
  · rw [repackFinal_nothing_pending h]
    rfl
  · rw [repackFinal_full h hfull]
    rfl
  · rw [repackFinal_pads h hroom haddr]
    refine ⟨_, rfl, s.padAcc.read_store_same _ _, fun _ hne => s.padAcc.read_store_ne hne _, ?_⟩
    simp only [State.completeOk, State.clearAcc, State.setPadded, State.countOut, State.store, State.padAcc]
  · have hrem : lenRemainder s.latched ≠ 0 := hok.accN_eq_lenRemainder hleft hread ▸ h
    obtain ⟨hop, hpre, -⟩ := hok
    obtain ⟨hlin, hpad⟩ := repackLin_padMode_of_lenRemainder hop hpre hrem
    exact ⟨hlin, hpad, hrem⟩

end Sys2Proof.Machine
end

section
/-! The run-length encoder (spec/42_rle.md): the two nibbles of a token's first byte and how the decoder reads them, the channel
quantiser and the palette word. -/

namespace Sys2Proof.Machine

/-! ## Token bytes (R203, R204) -/

/-- A value shifted above the colour leaves its low nibble there. -/
theorem setWidth_or_shiftLeft_eq_append (c : Nibble) (v : Byte) : c.setWidth 8 ||| v <<< 4 = v.setWidth 4 ++ c := by
  refine BitVec.eq_of_getLsbD_eq fun i hi => ?_
  rw [BitVec.getLsbD_append, BitVec.getLsbD_or, BitVec.getLsbD_shiftLeft, BitVec.getLsbD_setWidth, BitVec.getLsbD_setWidth]
  by_cases hlow : i < 4
  · simp [hlow, hi]
  · have hout : c.getLsbD i = false := BitVec.getLsbD_of_ge c i (by omega)
    simp [hlow, hi, hout, show i - 4 < 4 by omega]

theorem tokenBytes_short {rep : Byte} (h : rep.toNat < 15) (c : Nibble) : tokenBytes c rep = [rep.setWidth 4 ++ c] := by
  rw [tokenBytes, if_pos h, setWidth_or_shiftLeft_eq_append]

theorem tokenBytes_long {rep : Byte} (h : 15 ≤ rep.toNat) (c : Nibble) : tokenBytes c rep = [0xF#4 ++ c, rep - 15] := by
  have hescape : c.setWidth 8 ||| 0xF0#8 = 0xF#4 ++ c := setWidth_or_shiftLeft_eq_append c 0x0F#8
  rw [tokenBytes, if_neg (Nat.not_lt.2 h), hescape]

/-- The high nibble of a short token is its repeats. -/
theorem toNat_setWidth_of_short {rep : Byte} (h : rep.toNat < 15) : (rep.setWidth 4).toNat = rep.toNat := by
  rw [BitVec.toNat_setWidth]
  omega

/-- The second byte of a long token is its repeats less 15. -/
theorem toNat_sub_of_long {rep : Byte} (h : 15 ≤ rep.toNat) : (rep - 15).toNat = rep.toNat - 15 := by
  bv_omega

theorem setWidth_ne_escape_of_short {rep : Byte} (h : rep.toNat < 15) : rep.setWidth 4 ≠ 0xF#4 := fun heq =>
  absurd (toNat_setWidth_of_short h) (by rw [heq]; exact h.ne')

/-! ## The decoder at the front of a stream (R204; spec/95_test_vectors.md section 4.4) -/

theorem colorOf_append (n c : Nibble) : colorOf (n ++ c) = c := BitVec.extractLsb'_append_eq_right

theorem decodeTokens_short {n : Nibble} (h : n ≠ 0xF#4) (c : Nibble) (rest : List Byte) :
    decodeTokens ((n ++ c) :: rest) = List.replicate (n.toNat + 1) c ++ decodeTokens rest := by
  have hhigh : (n ++ c).extractLsb' 4 4 = n := BitVec.extractLsb'_append_eq_left
  cases rest with
  | nil => rw [decodeTokens, List.append_nil, decodeTokens, hhigh, if_neg h, colorOf_append]
  | cons y rest => rw [decodeTokens, hhigh, if_neg h, colorOf_append]

theorem decodeTokens_long (c : Nibble) (y : Byte) (rest : List Byte) :
    decodeTokens ((0xF#4 ++ c) :: y :: rest) = List.replicate (15 + y.toNat + 1) c ++ decodeTokens rest := by
  rw [decodeTokens, if_pos BitVec.extractLsb'_append_eq_left, colorOf_append]

/-- The decoder reads one token back to its run and goes on behind it. -/
theorem decodeTokens_tokenBytes_append (c : Nibble) (rep : Byte) (rest : List Byte) :
    decodeTokens (tokenBytes c rep ++ rest) = List.replicate (rep.toNat + 1) c ++ decodeTokens rest := by
  rcases Nat.lt_or_ge rep.toNat 15 with hshort | hlong
  · rw [tokenBytes_short hshort, List.singleton_append, decodeTokens_short (setWidth_ne_escape_of_short hshort),
      toNat_setWidth_of_short hshort]
  · rw [tokenBytes_long hlong, List.cons_append, List.singleton_append, decodeTokens_long, toNat_sub_of_long hlong,
      Nat.add_sub_cancel' hlong]

/-- Two token bytes are those of a long token: the escape nibble, and at most 240 because repeats are a byte. -/
theorem tokenBytes_eq_pair {c : Nibble} {rep x y : Byte} (h : tokenBytes c rep = [x, y]) :
    x.extractLsb' 4 4 = 0xF#4 ∧ y.toNat ≤ 240 := by
  rcases Nat.lt_or_ge rep.toNat 15 with hshort | hlong
  · simp [tokenBytes_short hshort] at h
  · rw [tokenBytes_long hlong] at h
    obtain ⟨rfl, rfl⟩ : 0xF#4 ++ c = x ∧ rep - 15 = y := by simpa using h
    refine ⟨BitVec.extractLsb'_append_eq_left, ?_⟩
    rw [toNat_sub_of_long hlong]
    omega

/-- One token byte is that of a short token, whose high nibble is below the escape. -/
theorem tokenBytes_eq_singleton {c : Nibble} {rep x : Byte} (h : tokenBytes c rep = [x]) :
    (x.extractLsb' 4 4).toNat ≤ 14 := by
  rcases Nat.lt_or_ge rep.toNat 15 with hshort | hlong
  · rw [tokenBytes_short hshort] at h
    obtain rfl : rep.setWidth 4 ++ c = x := by simpa using h
    rw [BitVec.extractLsb'_append_eq_left, toNat_setWidth_of_short hshort]
    omega
  · simp [tokenBytes_long hlong] at h

/-- Settles O30: the two token forms, and the decoder on each. -/
theorem tokensAreOneOrTwoBytes : Obligations.TokensAreOneOrTwoBytes := fun c rep rest =>
  ⟨tokenBytes_length c rep, fun _ _ => tokenBytes_eq_pair, fun _ => tokenBytes_eq_singleton,
    decodeTokens_tokenBytes_append c rep rest⟩

/-! ## The palette quantiser (R206, R207) -/

/-- The sum is at most 3960, so its quotient by 256 fits the nibble. -/
theorem toNat_q4 (n : Byte) : (q4 n).toNat = (n.toNat * 15 + 135) / 256 := by
  rw [q4, BitVec.toNat_ofNat, Nat.shiftRight_eq_div_pow]
  omega

/-- The quantiser rounds `n / 17` to the nearest integer. -/
theorem toNat_q4_eq_iff (n : Byte) (k : Nat) :
    (q4 n).toNat = k ↔ k ≤ 15 ∧ 17 * k ≤ n.toNat + 8 ∧ n.toNat ≤ 17 * k + 8 := by
  have hbyte := n.isLt
  rw [toNat_q4]
  omega

theorem toNat_palWord (r g b : Byte) :
    (palWord r g b).toNat = (q4 r).toNat <<< 8 ||| (q4 g).toNat <<< 4 ||| (q4 b).toNat := by
  have hzero : (0#4 ++ q4 r).toNat = (q4 r).toNat := by
    rw [BitVec.toNat_append, BitVec.toNat_ofNat, Nat.zero_mod, Nat.zero_shiftLeft, Nat.zero_or]
  rw [palWord, BitVec.toNat_append, BitVec.toNat_append, hzero, Nat.shiftLeft_or_distrib, ← Nat.shiftLeft_add]

theorem palWord_topNibble (r g b : Byte) : (palWord r g b).extractLsb' 12 4 = 0#4 := by
  have happ : palWord r g b = 0#4 ++ (q4 r ++ q4 g ++ q4 b) := by
    rw [palWord, BitVec.append_assoc, BitVec.append_assoc, BitVec.append_assoc]
    rfl
  rw [happ]
  exact BitVec.extractLsb'_append_eq_left

/-- Settles O31: the quotient by 256 against the rounding ranges, and the three nibbles of the word below a zero one. -/
theorem quantiserAndPaletteWord : Obligations.QuantiserAndPaletteWord := by
  refine ⟨fun n => ⟨toNat_q4 n, toNat_q4_eq_iff n⟩, ?_, ?_, ?_, ?_,
    fun r g b => ⟨toNat_palWord r g b, palWord_topNibble r g b⟩, ?_⟩
  all_goals decide

end Sys2Proof.Machine
end

section
/-! Engine steps as triples: what holds where a part of a step goes on, where it has ended the command, and where it stops; and
what no part of a step changes, whatever the state (spec/20_memory.md R63, spec/40_command.md R126 to R130). -/

namespace Sys2Proof.Machine

/-! ## Triples -/

/-- `G` holds of the state where a part of an engine step goes on, `E` where it has ended the command, `F` of the fault at which
it stops the model. -/
def Progress.Post (G E : State → Prop) (F : Fault → Prop) : Progress → Prop
  | .go s => G s
  | .ended s => E s
  | .stop r => F r

section Post

variable {G G' E E' : State → Prop} {F F' : Fault → Prop} {p : Progress} {k : State → Progress}

@[simp] theorem Progress.post_go (s : State) : (Progress.go s).Post G E F ↔ G s := Iff.rfl
@[simp] theorem Progress.post_ended (s : State) : (Progress.ended s).Post G E F ↔ E s := Iff.rfl
@[simp] theorem Progress.post_stop (r : Fault) : (Progress.stop r).Post G E F ↔ F r := Iff.rfl

theorem Progress.Post.imp (h : p.Post G E F) (hG : ∀ s, G s → G' s) (hE : ∀ s, E s → E' s) (hF : ∀ r, F r → F' r) :
    p.Post G' E' F' := by
  cases p with
  | go s => exact hG s h
  | ended s => exact hE s h
  | stop r => exact hF r h

/-- What follows a part runs only where that part went on (spec/00_scope.md R12). -/
theorem Progress.Post.andThen (h : p.Post G' E F) (hk : ∀ s, G' s → (k s).Post G E F) : (p.andThen k).Post G E F := by
  cases p with
  | go s => exact hk s h
  | ended s => exact h
  | stop r => exact h

theorem Progress.Post.and (h : p.Post G E F) (h' : p.Post G' E' F') :
    p.Post (fun s => G s ∧ G' s) (fun s => E s ∧ E' s) fun r => F r ∧ F' r := by
  cases p with
  | go s => exact ⟨h, h'⟩
  | ended s => exact ⟨h, h'⟩
  | stop r => exact ⟨h, h'⟩

theorem Progress.Post.of_next {t : State} (h : p.Post G E F) (ht : p.outcome = .next t) : G t ∨ E t := by
  rcases Progress.outcome_eq_next ht with rfl | rfl
  · exact .inl h
  · exact .inr h

theorem Progress.Post.of_fault {r : Fault} (h : p.Post G E F) (hr : p.outcome = .fault r) : F r := by
  obtain rfl := Progress.outcome_eq_fault hr
  exact h

end Post

/-- An engine read goes on with the byte, or stops the model. -/
theorem engineRead_post {G E : State → Prop} {a : Nat} {s : State} {k : Byte → Progress}
    (hk : ∀ b, a < s.memSize → s.mem.read a = some b → (k b).Post G E fun _ => True) :
    (engineRead a s k).Post G E fun _ => True := by
  rcases engineRead_cases a s k with ⟨-, h⟩ | ⟨-, -, h⟩ | ⟨b, ha, hb, h⟩ <;> rw [h]
  · trivial
  · trivial
  · exact hk b ha hb

/-! ## Bytes changed by writes at some addresses -/

/-- Memory `n` comes from `m` by writes at addresses in `A`. -/
inductive Memory.Writes (A : Nat → Prop) (m : Memory) : Memory → Prop
  | refl : Memory.Writes A m m
  | write {n : Memory} (a : Nat) (v : Byte) (ha : A a) (h : Memory.Writes A m n) : Memory.Writes A m (n.write a v)

section Writes

variable {A B : Nat → Prop} {m n o : Memory}

theorem Memory.Writes.mono (h : Memory.Writes A m n) (hAB : ∀ a, A a → B a) : Memory.Writes B m n := by
  induction h with
  | refl => exact .refl
  | write a v ha _ ih => exact .write a v (hAB a ha) ih

theorem Memory.Writes.trans (h : Memory.Writes A m n) (h' : Memory.Writes A n o) : Memory.Writes A m o := by
  induction h' with
  | refl => exact h
  | write a v ha _ ih => exact .write a v ha ih

theorem Memory.Writes.wf (h : Memory.Writes A m n) (hm : m.wf) : n.wf := by
  induction h with
  | refl => exact hm
  | write a v _ _ ih => exact Memory.wf_write ih a v

theorem Memory.Writes.forall_mem (h : Memory.Writes A m n) (hm : ∀ c ∈ m, A c.1) : ∀ c ∈ n, A c.1 := by
  induction h with
  | refl => exact hm
  | write a v ha _ ih =>
    intro c hc
    rcases Memory.mem_write hc with rfl | hc
    · exact ha
    · exact ih c hc

theorem Memory.Writes.read_eq (h : Memory.Writes A m n) {a : Nat} (ha : ¬A a) : n.read a = m.read a := by
  induction h with
  | refl => rfl
  | @write n b v hb _ ih => rw [Memory.read_write_ne n v (fun hab : a = b => ha (hab ▸ hb)), ih]

/-- A byte never becomes unwritten again (notes/assumptions/8.md). -/
theorem Memory.Writes.read_ne_none (h : Memory.Writes A m n) {a : Nat} (ha : m.read a ≠ none) : n.read a ≠ none := by
  induction h with
  | refl => exact ha
  | write b v _ _ ih =>
    rw [Memory.read_write]
    split_ifs
    · exact Option.some_ne_none v
    · exact ih

end Writes

/-! ## What no part of a step changes -/

/-- The state with the fields an engine step works on cleared: what is left is what no part of a step changes before it ends the
command. -/
def State.fixed (s : State) : State :=
  { s with
    phase := .idle, inCount := 0, outCount := 0, idxCount := 0, tileCount := 0, inSr := 0, inLeft := 0, acc := 0, accN := 0
    hdrI := 0, palI := 0, runActive := false, runColor := 0, runRep := 0, mem := [] }

section Fixed

variable {s t : State}

theorem State.regs_of_fixed (h : t.fixed = s.fixed) : t.regs = s.regs := (congrArg State.regs h :)
theorem State.done_of_fixed (h : t.fixed = s.fixed) : t.done = s.done := (congrArg State.done h :)
theorem State.err_of_fixed (h : t.fixed = s.fixed) : t.err = s.err := (congrArg State.err h :)
theorem State.rej_of_fixed (h : t.fixed = s.fixed) : t.rej = s.rej := (congrArg State.rej h :)
theorem State.errCode_of_fixed (h : t.fixed = s.fixed) : t.errCode = s.errCode := (congrArg State.errCode h :)
theorem State.errInfo_of_fixed (h : t.fixed = s.fixed) : t.errInfo = s.errInfo := (congrArg State.errInfo h :)
theorem State.padded_of_fixed (h : t.fixed = s.fixed) : t.padded = s.padded := (congrArg State.padded h :)
theorem State.latched_of_fixed (h : t.fixed = s.fixed) : t.latched = s.latched := (congrArg State.latched h :)
theorem State.lop_of_fixed (h : t.fixed = s.fixed) : t.lop = s.lop := (congrArg State.lop h :)
theorem State.abortReq_of_fixed (h : t.fixed = s.fixed) : t.abortReq = s.abortReq := (congrArg State.abortReq h :)
theorem State.memSize_of_fixed (h : t.fixed = s.fixed) : t.memSize = s.memSize := (congrArg State.memSize h :)

end Fixed

/-- The counters of the output windows are within their capacities. -/
def State.InCaps (s : State) : Prop :=
  s.outCount.toNat ≤ s.latched.dstCap.toNat ∧ s.idxCount.toNat ≤ s.latched.idxCap.toNat

/-- Where an engine step may write: inside buffer memory, and inside the output windows as long as the counters are within the
capacities. -/
def State.Writable (s : State) (a : Nat) : Prop :=
  a < s.memSize ∧ (s.InCaps → ∃ w ∈ outputWindows s.lop s.latched, w.contains a = true)

/-- A part of an engine step may lead from `s` to `t`: only the engine's own fields and writable bytes change, and the counters
stay within the capacities. -/
structure State.Leads (s t : State) : Prop where
  fixed : t.fixed = s.fixed
  inCaps : s.InCaps → t.InCaps
  mem : Memory.Writes s.Writable s.mem t.mem

theorem State.Leads.refl (s : State) : s.Leads s := ⟨rfl, id, .refl⟩

theorem State.Leads.writable {s t : State} (h : s.Leads t) {a : Nat} (ha : t.Writable a) : s.Writable a := by
  obtain ⟨hlt, hwin⟩ := ha
  rw [State.memSize_of_fixed h.fixed] at hlt
  rw [State.lop_of_fixed h.fixed, State.latched_of_fixed h.fixed] at hwin
  exact ⟨hlt, fun hcaps => hwin (h.inCaps hcaps)⟩

theorem State.Leads.trans {s t u : State} (h : s.Leads t) (h' : t.Leads u) : s.Leads u :=
  ⟨h'.fixed.trans h.fixed, h'.inCaps ∘ h.inCaps, h.mem.trans (h'.mem.mono fun _ => h.writable)⟩

/-- A part that leaves memory and the two output counters alone. -/
theorem State.Leads.of_fixed {s t : State} (hfixed : t.fixed = s.fixed) (hout : t.outCount = s.outCount)
    (hidx : t.idxCount = s.idxCount) (hmem : t.mem = s.mem) : s.Leads t := by
  refine ⟨hfixed, fun h => ?_, hmem ▸ .refl⟩
  rw [State.InCaps, hout, hidx, State.latched_of_fixed hfixed]
  exact h

/-- A step has ended the command with an error. -/
def State.Raises (s t : State) : Prop := ∃ u e info, s.Leads u ∧ e ≠ .none ∧ t = u.completeErr e info

/-- A part of a step leads on in its phase. -/
def State.Continues (s t : State) : Prop := s.Leads t ∧ t.phase = s.phase

/-- A step has gone through: the command runs on, or it has completed without error. -/
def State.Proceeds (s t : State) : Prop :=
  (s.Leads t ∧ t.phase ≠ .idle) ∨ ∃ u, s.Leads u ∧ (t = u.completeOk ∨ t = u.setPadded.completeOk)

theorem State.Leads.raises {s t u : State} (h : s.Leads t) (h' : t.Raises u) : s.Raises u := by
  obtain ⟨v, e, info, hv, he, rfl⟩ := h'
  exact ⟨v, e, info, h.trans hv, he, rfl⟩

theorem State.Continues.trans {s t u : State} (h : s.Continues t) (h' : t.Continues u) : s.Continues u :=
  ⟨h.1.trans h'.1, h'.2.trans h.2⟩

theorem State.Continues.proceeds {s t : State} (h : s.Continues t) (hs : s.phase ≠ .idle) : s.Proceeds t :=
  .inl ⟨h.1, h.2 ▸ hs⟩

/-- The unconditional triple of a part of a step: it continues in its phase, or raises. -/
abbrev State.Contained (s : State) (p : Progress) : Prop := p.Post s.Continues s.Raises fun _ => True

theorem State.Contained.andThen {s : State} {p : Progress} {k : State → Progress} (h : s.Contained p)
    (hk : ∀ t, s.Continues t → t.Contained (k t)) : s.Contained (p.andThen k) :=
  Progress.Post.andThen h fun t ht =>
    (hk t ht).imp (fun _ hu => ht.trans hu) (fun _ hu => ht.1.raises hu) fun _ => id

/-! ## The parts of the steps -/

theorem dstWindow_mem_outputWindows (op : Lop) (c : CfgRegs) : c.dstWindow ∈ outputWindows op c := by
  cases op with
  | repackLin => exact List.mem_singleton_self _
  | repackTile => rw [outputWindows_repackTile]; split_ifs <;> exact List.mem_cons_self
  | rleEnc => rw [outputWindows_rleEnc]; exact List.mem_singleton_self _

theorem Window.contains_iff (w : Window) (a : Nat) : w.contains a = true ↔ w.base ≤ a ∧ a < w.base + w.length := by
  simp [Window.contains]

theorem State.dstAddr_writable {s : State} (h : s.outCount ≠ s.latched.dstCap) (ha : s.dstAddr < s.memSize) :
    s.Writable s.dstAddr := by
  refine ⟨ha, fun hcaps => ⟨_, dstWindow_mem_outputWindows _ _, (Window.contains_iff _ _).2 ⟨Nat.le_add_right _ _, ?_⟩⟩⟩
  exact Nat.add_lt_add_left (toNat_add_one_of_ne h hcaps.1).2 _

theorem State.leads_dstWritten {s : State} (h : s.outCount ≠ s.latched.dstCap) (ha : s.dstAddr < s.memSize) (v : Byte) :
    s.Leads (s.store s.dstAddr v).countOut := by
  refine ⟨rfl, fun hcaps => ⟨?_, hcaps.2⟩, .write _ v (State.dstAddr_writable h ha) .refl⟩
  obtain ⟨hcount, hlt⟩ := toNat_add_one_of_ne h hcaps.1
  exact hcount.trans_le hlt

theorem dstWrite_contained (v : Byte) (s : State) : s.Contained (dstWrite v s) := by
  rcases dstWrite_cases v s with ⟨-, h⟩ | ⟨-, -, h⟩ | ⟨hroom, ha, h⟩ <;> rw [h]
  · exact ⟨s, _, _, .refl s, ErrCode.noConfusion, rfl⟩
  · trivial
  · exact ⟨State.leads_dstWritten hroom ha v, rfl⟩

theorem dstWrites_contained (vs : List Byte) (s : State) : s.Contained (dstWrites vs s) := by
  induction vs generalizing s with
  | nil => exact ⟨.refl s, rfl⟩
  | cons v vs ih => exact (dstWrite_contained v s).andThen fun t _ => ih t

theorem idxWindow_mem_outputWindows {op : Lop} {c : CfgRegs} (hop : op = .repackTile) (hen : c.idxEn = true) :
    c.idxWindow ∈ outputWindows op c := by
  rw [hop, outputWindows_repackTile, if_pos hen]
  exact List.mem_cons_of_mem _ (List.mem_singleton_self _)

theorem State.startsTile_iff (s : State) : s.startsTile = true ↔
    s.lop = .repackTile ∧ s.inCount.toNat % s.latched.tileb = 0 ∧ s.latched.idxEn = true := by
  simp [State.startsTile, and_assoc]

theorem State.idxAddr_writable {s : State} (hop : s.lop = .repackTile) (hen : s.latched.idxEn = true)
    (h : s.idxCount ≠ s.latched.idxCap) (ha : s.idxAddr < s.memSize) : s.Writable s.idxAddr := by
  refine ⟨ha, fun hcaps => ⟨_, idxWindow_mem_outputWindows hop hen,
    (Window.contains_iff _ _).2 ⟨Nat.le_add_right _ _, ?_⟩⟩⟩
  exact Nat.add_lt_add_left (toNat_add_one_of_ne h hcaps.2).2 _

theorem State.leads_idxWritten {s : State} (hop : s.lop = .repackTile) (hen : s.latched.idxEn = true)
    (h : s.idxCount ≠ s.latched.idxCap) (ha : s.idxAddr < s.memSize) (v : Byte) :
    s.Leads (s.store s.idxAddr v).countIdx := by
  refine ⟨rfl, fun hcaps => ⟨hcaps.1, ?_⟩, .write _ v (State.idxAddr_writable hop hen h ha) .refl⟩
  obtain ⟨hcount, hlt⟩ := toNat_add_one_of_ne h hcaps.2
  exact hcount.trans_le hlt

theorem State.leads_countIn (s : State) : s.Leads s.countIn := .of_fixed rfl rfl rfl rfl
theorem State.leads_loadByte (b : Byte) (s : State) : s.Leads (s.loadByte b) := .of_fixed rfl rfl rfl rfl
theorem State.leads_movePixel (s : State) : s.Leads s.movePixel := .of_fixed rfl rfl rfl rfl

theorem State.leads_countTile (s : State) : s.Leads s.countTile := by
  unfold State.countTile
  split_ifs
  · exact .of_fixed rfl rfl rfl rfl
  · exact .refl s

theorem State.countTile_phase (s : State) : s.countTile.phase = s.phase := by
  unfold State.countTile; split_ifs <;> rfl

theorem pixelStep_contained (s : State) : s.Contained (pixelStep s) := by
  rcases pixelStep_cases s with ⟨-, h⟩ | ⟨-, -, h⟩ | ⟨-, -, -, h⟩ | ⟨-, hroom, ha, h⟩ <;> rw [h]
  · exact ⟨s.leads_movePixel, rfl⟩
  · exact ⟨_, _, _, s.leads_movePixel, ErrCode.noConfusion, rfl⟩
  · trivial
  · have hwritten := State.leads_dstWritten (s := s.movePixel) hroom ha s.movePixel.acc
    have hcleared : s.Leads (s.movePixel.store s.dstAddr s.movePixel.acc).countOut.clearAcc :=
      (s.leads_movePixel.trans hwritten).trans (.of_fixed rfl rfl rfl rfl)
    exact ⟨hcleared.trans (State.leads_countTile _), State.countTile_phase _⟩

theorem fetchByte_contained (s : State) : s.Contained (fetchByte s) := by
  rcases fetchByte_cases s with
    ⟨-, -, h⟩ | ⟨-, ⟨-, h⟩ | ⟨-, -, h⟩ | ⟨b, -, -, ⟨-, h⟩ | ⟨-, -, h⟩ | ⟨-, -, -, h⟩ | ⟨hst, hroom, ha, h⟩⟩⟩ <;> rw [h]
  · exact ⟨s, _, _, .refl s, ErrCode.noConfusion, rfl⟩
  · trivial
  · trivial
  · exact ⟨s.leads_countIn.trans (State.leads_loadByte b _), rfl⟩
  · exact ⟨_, _, _, s.leads_countIn, ErrCode.noConfusion, rfl⟩
  · trivial
  · obtain ⟨hop, -, hen⟩ := s.startsTile_iff.1 hst
    exact ⟨s.leads_countIn.trans ((State.leads_idxWritten (s := s.countIn) hop hen hroom ha _).trans
      (State.leads_loadByte b _)), rfl⟩

/-! ## The steps of the phases -/

/-- The unconditional triple of a whole step: it proceeds, or raises. -/
abbrev State.Steps (s : State) (p : Progress) : Prop := p.Post s.Proceeds s.Raises fun _ => True

theorem State.Contained.steps {s : State} {p : Progress} (h : s.Contained p) (hs : s.phase ≠ .idle) : s.Steps p :=
  h.imp (fun _ ht => ht.proceeds hs) (fun _ => id) fun _ => id

/-- A part that continues, and then a change of the engine's own fields that keeps it in a running phase. -/
theorem State.Contained.andThen_go {s : State} {p : Progress} {f : State → State} (h : s.Contained p)
    (hf : ∀ t, s.Continues t → t.Leads (f t) ∧ (f t).phase ≠ .idle) : s.Steps (p.andThen fun t => .go (f t)) :=
  Progress.Post.andThen h fun t ht => .inl ⟨ht.1.trans (hf t ht).1, (hf t ht).2⟩

theorem firstPhase_ne_idle (op : Lop) (c : CfgRegs) : firstPhase op c ≠ .idle := by
  cases op with
  | repackLin => exact Phase.noConfusion
  | repackTile => exact Phase.noConfusion
  | rleEnc =>
    simp only [firstPhase, firstRlePhase, afterHdr]
    split_ifs <;> exact Phase.noConfusion

theorem afterHdr_ne_idle (c : CfgRegs) : afterHdr c ≠ .idle := by
  unfold afterHdr; split_ifs <;> exact Phase.noConfusion

theorem stepPre_steps (s : State) : s.Steps (stepPre s) := by
  rcases stepPre_cases s with ⟨e, info, herr, h⟩ | ⟨-, h⟩ <;> rw [h]
  · refine ⟨s, e, info, .refl s, ?_, rfl⟩
    rcases preflightError_code herr with rfl | ⟨rfl, -⟩ | ⟨rfl, -⟩ <;> exact ErrCode.noConfusion
  · exact .inl ⟨.of_fixed rfl rfl rfl rfl, firstPhase_ne_idle _ _⟩

theorem repackFinal_steps (s : State) : s.Steps (repackFinal s) := by
  have hpad : s.Leads s.padAcc := .of_fixed rfl rfl rfl rfl
  rcases repackFinal_cases s with ⟨-, h⟩ | ⟨-, -, h⟩ | ⟨-, -, -, h⟩ | ⟨-, hroom, ha, h⟩ <;> rw [h]
  · exact .inr ⟨s, .refl s, .inl rfl⟩
  · exact ⟨_, _, _, hpad, ErrCode.noConfusion, rfl⟩
  · trivial
  · refine .inr ⟨(s.padAcc.store s.dstAddr s.padAcc.acc).countOut.clearAcc, ?_, .inr rfl⟩
    exact hpad.trans ((State.leads_dstWritten (s := s.padAcc) hroom ha _).trans (.of_fixed rfl rfl rfl rfl))

theorem stepRepack_steps {s : State} (hs : s.phase ≠ .idle) : s.Steps (stepRepack s) := by
  rcases stepRepack_cases s with ⟨-, -, h⟩ | ⟨-, -, h⟩ | ⟨-, h⟩ <;> rw [h]
  · exact repackFinal_steps s
  · exact ((fetchByte_contained s).andThen fun t _ => pixelStep_contained t).steps hs
  · exact (pixelStep_contained s).steps hs

theorem stepRleHdr_steps {s : State} (hs : s.phase ≠ .idle) : s.Steps (stepRleHdr s) := by
  refine (dstWrite_contained _ s).andThen_go fun t ht => ⟨.of_fixed rfl rfl rfl rfl, ?_⟩
  rw [State.nextHeader_phase]
  split_ifs
  · exact afterHdr_ne_idle _
  · exact ht.2 ▸ hs

theorem stepRlePal_steps {s : State} (hs : s.phase ≠ .idle) : s.Steps (stepRlePal s) := by
  refine engineRead_post fun r _ _ => engineRead_post fun g _ _ => engineRead_post fun b _ _ => ?_
  refine State.Contained.andThen_go (dstWrites_contained _ s) fun t ht => ⟨.of_fixed rfl rfl rfl rfl, ?_⟩
  rw [State.nextEntry_phase]
  split_ifs
  · exact Phase.noConfusion
  · exact ht.2 ▸ hs

theorem takeColor_contained (c : Nibble) (s : State) : s.Contained (takeColor c s) := by
  rcases takeColor_cases c s with ⟨-, h⟩ | ⟨-, -, -, h⟩ | ⟨-, -, h⟩ <;> rw [h]
  · exact ⟨.of_fixed rfl rfl rfl rfl, rfl⟩
  · exact ⟨.of_fixed rfl rfl rfl rfl, rfl⟩
  · exact State.Contained.andThen (dstWrites_contained _ s) fun t _ => ⟨.of_fixed rfl rfl rfl rfl, rfl⟩

theorem rleFlush_steps (s : State) : s.Steps (rleFlush s) := by
  have hend (t : State) (ht : s.Continues t) : s.Proceeds t.closeRun.completeOk :=
    .inr ⟨t.closeRun, ht.1.trans (.of_fixed rfl rfl rfl rfl), .inl rfl⟩
  rcases rleFlush_cases s with ⟨-, h⟩ | ⟨-, h⟩ <;> rw [h]
  · exact hend s ⟨.refl s, rfl⟩
  · exact Progress.Post.andThen (dstWrites_contained _ s) hend

theorem stepRleRun_steps {s : State} (hs : s.phase ≠ .idle) : s.Steps (stepRleRun s) := by
  rcases stepRleRun_cases s with ⟨-, h⟩ | ⟨-, ⟨-, h⟩ | ⟨-, h⟩ | ⟨b, -, h⟩⟩ <;> rw [h]
  · exact rleFlush_steps s
  · trivial
  · trivial
  · have hin : s.Contained (.go s.countIn) := ⟨s.leads_countIn, rfl⟩
    exact (hin.andThen fun t _ => takeColor_contained (colorOf b) t).steps hs

theorem phaseStep_steps {s : State} (hs : s.phase ≠ .idle) : s.Steps (phaseStep s) := by
  unfold phaseStep
  split
  · exact absurd ‹_› hs
  · exact stepPre_steps s
  · exact stepRepack_steps hs
  · exact stepRleHdr_steps hs
  · exact stepRlePal_steps hs
  · exact stepRleRun_steps hs

/-- What a busy engine's turn can do: it proceeds, or raises. -/
theorem engineTurn_proceeds_or_raises {s t : State} (hs : s.phase ≠ .idle) (h : engineTurn s = .next t) :
    s.Proceeds t ∨ s.Raises t := by
  rcases engineTurn_cases s with ⟨hidle, -⟩ | ⟨-, -, h'⟩ | ⟨-, -, h'⟩
  · exact absurd hidle hs
  · rw [h, Host.Outcome.next.injEq] at h'
    exact .inr ⟨s, _, _, .refl s, ErrCode.noConfusion, h'⟩
  · exact (phaseStep_steps hs).of_next (h' ▸ h)

end Sys2Proof.Machine
end

section
/-! What one step can do, whoever moves (spec/20_memory.md R77), and the rules that hold of every step. -/

namespace Sys2Proof.Machine

/-! ## The moves of the host -/

/-- What the host or the platform can do to the block in one move: register writes and reads, the CMD write, byte stores and
loads, and a warm reset (spec/20_memory.md R61, R64, R65; spec/40_command.md R111 to R117). -/
inductive HostMove (s : State) : State → Prop
  | same : HostMove s s
  | writeReg (r : Reg) (v : Word) : HostMove s (s.writeReg r v)
  | reject (hbusy : s.phase ≠ .idle) : HostMove s s.reject
  | requestAbort (hbusy : s.phase ≠ .idle) : HostMove s s.requestAbort
  | start (op : Lop) (hidle : s.phase = .idle) : HostMove s (s.start op)
  | reservedWord (w : Word) (hidle : s.phase = .idle) : HostMove s (s.clearForStart.completeErr .ecmd w)
  | settle (r : Reply) : HostMove s (s.settle.reply r)
  | draw (r : Reply) : HostMove s (s.drawn.reply r)
  | reply (r : Reply) : HostMove s (s.reply r)
  | store (a : Nat) (v : Byte) (ha : a < s.memSize) : HostMove s (s.store a v)
  | warmReset : HostMove s s.warmReset

section Moves

variable {s t : State}

theorem HostMove.of_issue {w : Word} (h : issue w s = .next t) : HostMove s t := by
  rcases issue_cases w s with h' | ⟨hb, h'⟩ | ⟨hb, h'⟩ | ⟨hb, op, h'⟩ | ⟨hb, h'⟩ <;>
    rw [h, Host.Outcome.next.injEq] at h' <;> subst h'
  · exact .same
  · exact .reject (s.busy_iff.1 hb)
  · exact .requestAbort (s.busy_iff.1 hb)
  · exact .start op (s.not_busy_iff.1 hb)
  · exact .reservedWord w (s.not_busy_iff.1 hb)

theorem HostMove.of_hostWrite {off : BitVec 8} {v : Word} (h : hostWrite off v s = .next t) : HostMove s t := by
  rcases hostWrite_cases off v s with ⟨-, h'⟩ | ⟨-, h'⟩ | ⟨r, -, -, h'⟩ | ⟨-, h'⟩ <;> rw [h] at h'
  · cases h'
  · exact .of_issue h'.symm
  · cases h'; exact .writeReg r v
  · cases h'; exact .same

theorem HostMove.of_hostRead {off : BitVec 8} (h : hostRead off s = .next t) : HostMove s t := by
  rcases hostRead_cases off s with h' | ⟨v, h'⟩ | ⟨v, h'⟩ | ⟨v, h'⟩ <;> rw [h] at h' <;> cases h'
  · exact .settle _
  · exact .draw _
  · exact .reply _

theorem HostMove.of_hostStore {a : Word} {v : Byte} (h : hostStore a v s = .next t) : HostMove s t := by
  rcases hostStore_cases a v s with ⟨-, h'⟩ | ⟨-, -, h'⟩ | ⟨ha, -, h'⟩ <;> rw [h] at h' <;> cases h'
  · exact .same
  · exact .store _ v ha

theorem HostMove.of_hostLoad {a : Word} (h : hostLoad a s = .next t) : HostMove s t := by
  rcases hostLoad_cases a s with ⟨-, h'⟩ | ⟨v, h'⟩ | ⟨v, h'⟩ <;> rw [h] at h' <;> cases h'
  · exact .same
  · exact .draw _
  · exact .reply _

theorem HostMove.of_hostAccess {op : HostOp} (h : hostAccess op s = .next t) : HostMove s t := by
  cases op with
  | wr off v => exact .of_hostWrite h
  | rd off => exact .of_hostRead h
  | sb a v => exact .of_hostStore h
  | lb a => exact .of_hostLoad h
  | subword off => cases h

/-- The state with other moves still to come (notes/assumptions/2.md). -/
def State.withAgenda (l : List Event) (s : State) : State := { s with agenda := l }

theorem step_eq_takeEvent {e : Event} {rest : List Event} (h : s.agenda = e :: rest) : step s = takeEvent e (s.withAgenda rest) :=
  step_cons h

theorem waitTurn_busy (h : s.phase ≠ .idle) : waitTurn s = engineTurn (s.withAgenda (.waitIdle :: s.agenda)) :=
  if_pos (s.busy_iff.2 h)

theorem waitTurn_idle (h : s.phase = .idle) : waitTurn s = hostRead (Reg.offset .status) s :=
  if_neg (by simp [State.busy, h])

/-- A step is an engine turn or a move of the host, on the state with its agenda moved on. -/
theorem step_eq_next (h : step s = .next t) : ∃ l : List Event,
    engineTurn (s.withAgenda l) = .next t ∨ HostMove (s.withAgenda l) t := by
  cases hl : s.agenda with
  | nil => exact ⟨s.agenda, .inl (step_nil hl ▸ h)⟩
  | cons e rest =>
    rw [step_eq_takeEvent hl] at h
    cases e with
    | access op => exact ⟨rest, .inr (.of_hostAccess h)⟩
    | engine => exact ⟨rest, .inl h⟩
    | waitIdle =>
      by_cases hidle : s.phase = .idle
      · exact ⟨rest, .inr (.of_hostRead ((waitTurn_idle (s := s.withAgenda rest) hidle).symm.trans h))⟩
      · exact ⟨.waitIdle :: rest, .inl ((waitTurn_busy (s := s.withAgenda rest) hidle).symm.trans h)⟩
    | warmReset =>
      cases h
      exact ⟨rest, .inr .warmReset⟩

/-- What does not depend on the agenda and is kept by the engine and by the host is kept by every step. -/
theorem step_keeps {P : State → Prop} (hagenda : ∀ s l, P s → P (s.withAgenda l))
    (hengine : ∀ s t, P s → engineTurn s = .next t → P t) (hhost : ∀ s t, P s → HostMove s t → P t) (hs : P s)
    (h : step s = .next t) : P t := by
  obtain ⟨l, h | h⟩ := step_eq_next h
  · exact hengine _ t (hagenda s l hs) h
  · exact hhost _ t (hagenda s l hs) h

end Moves

/-! ## A register write that is no STATUS write changes the configuration registers only (R111) -/

theorem State.writeReg_eq {r : Reg} (hr : r ≠ .status) (v : Word) (s : State) :
    s.writeReg r v = { s with regs := s.regs.write r v } := by
  cases r with
  | status => exact absurd rfl hr
  | _ => rfl

/-! ## Memory (spec/10_state.md R50, spec/20_memory.md R60) -/

theorem State.Leads.memoryOk {s t : State} (h : s.Leads t) (hs : s.MemoryOk) : t.MemoryOk ∧ t.memSize = s.memSize := by
  have hsize := State.memSize_of_fixed h.fixed
  refine ⟨⟨h.mem.wf hs.1, ?_⟩, hsize⟩
  rw [hsize]
  exact (h.mem.mono fun _ ha => ha.1).forall_mem hs.2

theorem engineTurn_keeps_memoryOk {s t : State} (hs : s.MemoryOk) (h : engineTurn s = .next t) :
    t.MemoryOk ∧ t.memSize = s.memSize := by
  by_cases hidle : s.phase = .idle
  · rw [engineTurn_idle (s.not_busy_iff.2 hidle)] at h
    cases h
    exact ⟨hs, rfl⟩
  · rcases engineTurn_proceeds_or_raises hidle h with (⟨hu, -⟩ | ⟨u, hu, rfl | rfl⟩) | ⟨u, e, info, hu, -, rfl⟩ <;>
      exact hu.memoryOk hs

theorem HostMove.memSize_eq {s t : State} (h : HostMove s t) : t.memSize = s.memSize := by
  cases h with
  | writeReg r v => cases r <;> rfl
  | settle r => unfold State.settle; split_ifs <;> rfl
  | _ => rfl

theorem HostMove.memoryOk {s t : State} (hs : s.MemoryOk) (h : HostMove s t) : t.MemoryOk := by
  rw [State.MemoryOk, h.memSize_eq]
  cases h with
  | writeReg r v => cases r <;> exact hs
  | settle r => unfold State.settle; split_ifs <;> exact hs
  | store a v ha =>
    refine ⟨Memory.wf_write hs.1 a v, fun c hc => ?_⟩
    rcases Memory.mem_write hc with rfl | hc
    · exact ha
    · exact hs.2 c hc
  | warmReset =>
    refine ⟨State.warmReset_wf hs.1, fun c hc => ?_⟩
    cases hb : s.busy with
    | false => exact hs.2 c (by rwa [State.warmReset_mem_idle hb] at hc)
    | true =>
      obtain ⟨d, hd, heq⟩ := Memory.mem_leaveResidue (m := s.mem) (by simpa [State.warmReset, hb] using hc)
      exact heq ▸ hs.2 d hd
  | _ => exact hs

/-- Settles O49: engine writes stay inside MEM_SIZE and keep the list rising, and so do the host's stores. -/
theorem stepKeepsMemoryOk : Obligations.StepKeepsMemoryOk := fun s _ hs h =>
  step_keeps (P := fun u => u.MemoryOk ∧ u.memSize = s.memSize) (fun _ _ hu => hu)
    (fun _ _ hu hv => (engineTurn_keeps_memoryOk hu.1 hv).imp_right fun heq => heq.trans hu.2)
    (fun _ _ hu hv => ⟨hv.memoryOk hu.1, hv.memSize_eq.trans hu.2⟩) ⟨hs, rfl⟩ h

/-! ## The status flags (spec/10_state.md R25, R27, R44, R47; spec/60_exceptions.md R252) -/

/-- The flags of a running command: the invariant with its clauses resolved for BUSY = 1. -/
theorem State.statusOk_busy_iff {s : State} (hs : s.phase ≠ .idle) : s.StatusOk ↔
    (s.regs.ReservedZero ∧ s.latched.ReservedZero)
      ∧ s.done = false ∧ s.err = false ∧ s.errCode = .none ∧ s.errInfo = 0 ∧ s.padded = false := by
  have hb := s.busy_iff.2 hs
  constructor
  · rintro ⟨hregs, hlatched, -, hclear, -⟩
    exact ⟨⟨hregs, hlatched⟩, hclear hb⟩
  · rintro ⟨⟨hregs, hlatched⟩, hdone, herr, hcode, hinfo, hpad⟩
    exact ⟨hregs, hlatched, by simp [hb, hdone, herr, hcode, hinfo, hpad]⟩

section Flags

variable {s u : State} (hs : s.StatusOk) (hbusy : s.phase ≠ .idle) (hu : u.fixed = s.fixed)

include hs hbusy hu

theorem State.statusOk_of_fixed (hrun : u.phase ≠ .idle) : u.StatusOk := by
  rw [State.statusOk_busy_iff hbusy] at hs
  rw [State.statusOk_busy_iff hrun, State.regs_of_fixed hu, State.latched_of_fixed hu, State.done_of_fixed hu,
    State.err_of_fixed hu, State.errCode_of_fixed hu, State.errInfo_of_fixed hu, State.padded_of_fixed hu]
  exact hs

theorem State.statusOk_completeOk (p : Bool) : { u.completeOk with padded := p }.StatusOk := by
  obtain ⟨⟨hregs, hlatched⟩, -, herr, -, hinfo, -⟩ := (State.statusOk_busy_iff hbusy).1 hs
  rw [← State.regs_of_fixed hu] at hregs
  rw [← State.latched_of_fixed hu] at hlatched
  rw [← State.err_of_fixed hu] at herr
  rw [← State.errInfo_of_fixed hu] at hinfo
  exact ⟨hregs, hlatched, by simp [State.busy, herr, hinfo]⟩

theorem State.statusOk_completeErr {e : ErrCode} (he : e ≠ .none) (info : Word) : (u.completeErr e info).StatusOk := by
  obtain ⟨⟨hregs, hlatched⟩, hdone, -, -, -, hpad⟩ := (State.statusOk_busy_iff hbusy).1 hs
  rw [← State.regs_of_fixed hu] at hregs
  rw [← State.latched_of_fixed hu] at hlatched
  rw [← State.done_of_fixed hu] at hdone
  rw [← State.padded_of_fixed hu] at hpad
  exact ⟨hregs, hlatched, by simp [State.busy, hdone, hpad, he]⟩

end Flags

theorem engineTurn_keeps_statusOk {s t : State} (hs : s.StatusOk) (h : engineTurn s = .next t) : t.StatusOk := by
  by_cases hidle : s.phase = .idle
  · rw [engineTurn_idle (s.not_busy_iff.2 hidle)] at h
    cases h
    exact hs
  · rcases engineTurn_proceeds_or_raises hidle h with (⟨hu, hrun⟩ | ⟨u, hu, rfl | rfl⟩) | ⟨u, e, info, hu, he, rfl⟩
    · exact State.statusOk_of_fixed hs hidle hu.fixed hrun
    · exact State.statusOk_completeOk hs hidle hu.fixed u.padded
    · exact State.statusOk_completeOk hs hidle hu.fixed true
    · exact State.statusOk_completeErr hs hidle hu.fixed he info

/-- The reserved bits of CTRL are not stored (R111). -/
theorem CfgRegs.reservedZero_write {c : CfgRegs} (h : c.ReservedZero) (r : Reg) (v : Word) : (c.write r v).ReservedZero := by
  cases r with
  | ctrl =>
    show v &&& ctrlMask &&& ~~~ctrlMask = 0
    rw [BitVec.and_assoc, BitVec.and_not_self]
    exact BitVec.and_zero
  | _ => exact h

theorem State.statusOk_writeStatus {s : State} (hs : s.StatusOk) (v : Word) : (s.writeStatus v).StatusOk := by
  obtain ⟨hregs, hlatched, hexcl, hbusy, habort, hdone, herr, hinfo, hpad⟩ := hs
  refine ⟨hregs, hlatched, fun h => hexcl ?_, fun h => ?_, habort, fun h => hdone ?_, fun h => herr ?_, hinfo, hpad⟩
  · simp only [State.writeStatus_done, State.writeStatus_err, Bool.and_eq_true] at h
    exact ⟨h.1.1, h.2.1⟩
  · obtain ⟨hdone, herr, hrest⟩ := hbusy h
    simp [hdone, herr, hrest]
  · simp only [State.writeStatus_done, Bool.and_eq_true] at h
    exact h.1
  · simp only [State.writeStatus_err, Bool.and_eq_true] at h
    exact h.1

theorem HostMove.statusOk {s t : State} (hs : s.StatusOk) (h : HostMove s t) : t.StatusOk := by
  cases h with
  | writeReg r v =>
    by_cases hr : r = .status
    · subst hr
      exact State.statusOk_writeStatus hs v
    · rw [State.writeReg_eq hr]
      exact ⟨CfgRegs.reservedZero_write hs.1 r v, hs.2⟩
  | requestAbort hbusy => exact (State.statusOk_busy_iff (s := s.requestAbort) hbusy).2 ((State.statusOk_busy_iff hbusy).1 hs)
  | start op hidle =>
    refine (State.statusOk_busy_iff ?_).2 ⟨⟨hs.1, hs.1⟩, rfl, rfl, rfl, rfl, rfl⟩
    exact Phase.noConfusion
  | reservedWord w hidle =>
    obtain ⟨hregs, hlatched, -⟩ := hs
    exact ⟨hregs, hlatched, by simp [State.busy, State.clearForStart]⟩
  | settle r => unfold State.settle; split_ifs <;> exact hs
  | warmReset => simp [State.StatusOk, State.warmReset, State.powerUp, State.busy, CfgRegs.ReservedZero, CfgRegs.zero]
  | _ => exact hs

/-- Settles O50: a running step keeps the flags clear, a completion sets one of them, and the host only clears them. -/
theorem stepKeepsStatusOk : Obligations.StepKeepsStatusOk := fun _ _ hs h =>
  step_keeps (fun _ _ hu => hu) (fun _ _ => engineTurn_keeps_statusOk) (fun _ _ => HostMove.statusOk) hs h

/-! ## The latched configuration (spec/10_state.md R45) -/

theorem engineTurn_keeps_latched {s t : State} (hs : s.phase ≠ .idle) (h : engineTurn s = .next t) :
    t.latched = s.latched ∧ t.lop = s.lop := by
  have hfixed : ∃ u : State, u.fixed = s.fixed ∧ t.latched = u.latched ∧ t.lop = u.lop := by
    rcases engineTurn_proceeds_or_raises hs h with (⟨hu, -⟩ | ⟨u, hu, rfl | rfl⟩) | ⟨u, e, info, hu, -, rfl⟩ <;>
      exact ⟨_, hu.fixed, rfl, rfl⟩
  obtain ⟨u, hu, hlatched, hlop⟩ := hfixed
  exact ⟨hlatched.trans (State.latched_of_fixed hu), hlop.trans (State.lop_of_fixed hu)⟩

theorem HostMove.keeps_latched {s t : State} (hs : s.phase ≠ .idle) (ht : t.phase ≠ .idle) (h : HostMove s t) :
    t.latched = s.latched ∧ t.lop = s.lop := by
  cases h with
  | writeReg r v => cases r <;> exact ⟨rfl, rfl⟩
  | start op hidle => exact absurd hidle hs
  | reservedWord w hidle => exact absurd hidle hs
  | settle r => unfold State.settle; split_ifs <;> exact ⟨rfl, rfl⟩
  | warmReset => exact absurd rfl ht
  | _ => exact ⟨rfl, rfl⟩

/-- Settles O57: only a start writes L and lop, and a busy block does not start. -/
theorem latchedConfigurationIsFixed : Obligations.LatchedConfigurationIsFixed := by
  intro s t h hs ht
  rw [State.busy_iff] at hs ht
  obtain ⟨l, h | h⟩ := step_eq_next h
  · exact engineTurn_keeps_latched (s := s.withAgenda l) hs h
  · exact HostMove.keeps_latched (s := s.withAgenda l) hs ht h

/-! ## Who makes the block busy (spec/60_exceptions.md R265) -/

theorem issue_starts {w : Word} {s t : State} (hs : s.phase = .idle) (h : issue w s = .next t) (ht : t.phase ≠ .idle) :
    ∃ op : Lop, w = encode op.command := by
  rw [issue_idle hs] at h
  split_ifs at h with h0 h1 h2 h3
  · cases h; exact absurd hs ht
  · exact ⟨.repackLin, h1⟩
  · exact ⟨.repackTile, h2⟩
  · exact ⟨.rleEnc, h3⟩
  · cases h; exact absurd rfl ht

theorem hostRead_keeps_phase {off : BitVec 8} {s t : State} (h : hostRead off s = .next t) : t.phase = s.phase := by
  have hsettle : s.settle.phase = s.phase := by unfold State.settle; split_ifs <;> rfl
  rcases hostRead_cases off s with h' | ⟨v, h'⟩ | ⟨v, h'⟩ | ⟨v, h'⟩ <;> rw [h] at h' <;> cases h'
  · exact hsettle
  · rfl
  · rfl

theorem hostAccess_starts {op : HostOp} {s t : State} (hs : s.phase = .idle) (h : hostAccess op s = .next t)
    (ht : t.phase ≠ .idle) : ∃ c : Lop, op = .wr (Reg.offset .cmd) (encode c.command) := by
  cases op with
  | wr off v =>
    rcases hostWrite_cases off v s with ⟨-, h'⟩ | ⟨hoff, h'⟩ | ⟨r, -, -, h'⟩ | ⟨-, h'⟩ <;>
      rw [show hostWrite off v s = .next t from h] at h'
    · cases h'
    · obtain ⟨c, rfl⟩ := issue_starts hs h'.symm ht
      exact ⟨c, Reg.offset_of_atOffset hoff ▸ rfl⟩
    · cases h'
      exact absurd (by cases r <;> exact hs) ht
    · cases h'; exact absurd hs ht
  | rd off => exact absurd ((hostRead_keeps_phase h).trans hs) ht
  | sb a v =>
    rcases hostStore_cases a v s with ⟨-, h'⟩ | ⟨-, -, h'⟩ | ⟨-, -, h'⟩ <;>
      rw [show hostStore a v s = .next t from h] at h' <;> cases h' <;> exact absurd hs ht
  | lb a =>
    rcases hostLoad_cases a s with ⟨-, h'⟩ | ⟨v, h'⟩ | ⟨v, h'⟩ <;>
      rw [show hostLoad a s = .next t from h] at h' <;> cases h' <;> exact absurd hs ht
  | subword off => cases h

theorem Lop.command_mem (op : Lop) : op.command ∈ [Instr.repackLin, Instr.repackTile, Instr.rleEnc] := by
  cases op <;> decide

/-- Settles O60: of all events only the CMD write of a starting command makes an idle block busy. -/
theorem onlyAStartMakesTheBlockBusy : Obligations.OnlyAStartMakesTheBlockBusy := by
  intro s t hs h ht
  rw [State.not_busy_iff] at hs
  rw [State.busy_iff] at ht
  have hturn (u : State) (hu : u.phase = .idle) (hut : engineTurn u = .next t) : False := by
    rw [engineTurn_idle (u.not_busy_iff.2 hu)] at hut
    cases hut
    exact ht hu
  cases hl : s.agenda with
  | nil => exact (hturn s hs (step_nil hl ▸ h)).elim
  | cons e rest =>
    rw [step_eq_takeEvent hl] at h
    have hrest : (s.withAgenda rest).phase = .idle := hs
    cases e with
    | access op =>
      obtain ⟨c, rfl⟩ := hostAccess_starts hrest h ht
      exact ⟨c.command, rest, rfl, c.command_mem⟩
    | engine => exact (hturn _ hrest h).elim
    | waitIdle => exact absurd ((hostRead_keeps_phase ((waitTurn_idle hrest).symm.trans h)).trans hrest) ht
    | warmReset => cases h; exact absurd rfl ht

end Sys2Proof.Machine
end

section
/-! The command invariant and the count of steps: what a turn of the engine does from a state that meets `State.CommandOk`
(spec/40_command.md R118, R128; spec/41_repack.md sections 2 to 4; spec/42_rle.md sections 3 to 6). -/

namespace Sys2Proof.Machine

/-! ## What a step leaves -/

/-- The error codes a running command of an opcode can end with: the row of spec/60_exceptions.md R253 without ETRUNC. -/
def Lop.MayRaise (op : Lop) (c : CfgRegs) (e : ErrCode) : Prop :=
  match op with
  | .repackLin => e ∈ [ErrCode.ewindow, ErrCode.elen, ErrCode.edstovf, ErrCode.eabort]
  | .repackTile =>
    e ∈ [ErrCode.ewindow, ErrCode.egeom, ErrCode.edstovf, ErrCode.eabort] ∨ (e = .eidxovf ∧ c.idxEn = true)
  | .rleEnc => e ∈ [ErrCode.ewindow, ErrCode.edstovf, ErrCode.eabort]

/-- The output counters are within the longest output of the command and its number of tiles. -/
structure State.OutputBounded (s : State) : Prop where
  out : s.outCount.toNat ≤ maxOutput s.lop s.latched
  idx : s.idxCount.toNat ≤ s.latched.srcLen.toNat / s.latched.tileb

/-- A step went through: the invariant holds on, one step less is left, and the last one completes. -/
structure State.Advances (s t : State) : Prop where
  command : t.CommandOk
  bounded : t.OutputBounded
  count : t.phase ≠ .idle → t.stepsLeft + 1 = s.stepsLeft
  last : t.phase = .idle → s.stepsLeft = 1

/-- A step raised: an error of the command's row, and EDSTOVF only where the window is shorter than the longest output. -/
structure State.Fails (s t : State) : Prop where
  idle : t.phase = .idle
  code : s.lop.MayRaise s.latched t.errCode
  bounded : t.OutputBounded
  overflow : t.errCode = .edstovf → s.latched.dstCap.toNat < maxOutput s.lop s.latched

/-- The fault is that of an unwritten byte of a window the command reads (spec/20_memory.md R62). -/
def State.LacksSource (s : State) (r : Fault) : Prop :=
  ∃ a, r = .unwrittenRead a ∧ s.mem.read a = none ∧
    ∃ w ∈ activeWindows s.lop s.latched, w.id.written = false ∧ w.contains a = true

/-- The triple of an engine step under the command invariant. -/
abbrev State.Sound (s : State) (p : Progress) : Prop := p.Post s.Advances s.Fails s.LacksSource

theorem State.commandOk_of_idle {s : State} (h : s.phase = .idle) : s.CommandOk := by simp [State.CommandOk, h]

theorem State.commandOk_of_repack {s : State} (h : s.phase = .repack) (hok : s.RepackOk) : s.CommandOk := by
  simp only [State.CommandOk, h, reduceCtorEq, false_implies, true_and, and_true, true_implies]
  exact hok

theorem State.commandOk_of_rleHdr {s : State} (h : s.phase = .rleHdr) (hok : s.HdrOk) : s.CommandOk := by
  simp only [State.CommandOk, h, reduceCtorEq, false_implies, true_and, and_true, true_implies]
  exact hok

theorem State.commandOk_of_rlePal {s : State} (h : s.phase = .rlePal) (hok : s.PalOk) : s.CommandOk := by
  simp only [State.CommandOk, h, reduceCtorEq, false_implies, true_and, and_true, true_implies]
  exact hok

theorem State.commandOk_of_rleRun {s : State} (h : s.phase = .rleRun) (hok : s.RunOk) : s.CommandOk := by
  simp only [State.CommandOk, h, reduceCtorEq, false_implies, true_and, true_implies]
  exact hok

theorem Lop.mayRaise_edstovf (op : Lop) (c : CfgRegs) : op.MayRaise c .edstovf := by
  cases op <;> simp [Lop.MayRaise]

theorem Lop.mayRaise_eabort (op : Lop) (c : CfgRegs) : op.MayRaise c .eabort := by
  cases op <;> simp [Lop.MayRaise]

theorem Lop.mayRaise_of_preflight {memSize : Nat} {op : Lop} {c : CfgRegs} {e : ErrCode} {i : Word}
    (h : preflightError memSize op c = some (e, i)) : op.MayRaise c e := by
  rcases preflightError_code h with rfl | ⟨rfl, rfl⟩ | ⟨rfl, rfl⟩
  · cases op <;> simp [Lop.MayRaise]
  · simp [Lop.MayRaise]
  · simp [Lop.MayRaise]

/-! ## Addresses inside the windows that preflight has checked (spec/40_command.md R121) -/

section Windows

variable {memSize : Nat} {op : Lop} {c : CfgRegs} (hpre : preflightError memSize op c = none)

theorem srcWindow_mem (op : Lop) (c : CfgRegs) : c.srcWindow ∈ activeWindows op c := by
  cases op with
  | repackLin => exact List.mem_cons_self
  | repackTile => rw [activeWindows_repackTile]; split_ifs <;> exact List.mem_cons_self
  | rleEnc => rw [activeWindows_rleEnc]; split_ifs <;> exact List.mem_cons_self

theorem palWindow_mem (hop : op = .rleEnc) (hen : c.palEn = true) : c.palWindow ∈ activeWindows op c := by
  rw [hop, activeWindows_rleEnc, if_pos hen]
  simp

theorem mem_active_of_output {w : Window} (h : w ∈ outputWindows op c) : w ∈ activeWindows op c :=
  List.mem_of_mem_filter h

include hpre

theorem srcWindow_fits : c.srcBase.toNat + c.srcLen.toNat ≤ memSize := bounds_of_preflight hpre _ (srcWindow_mem op c)

theorem dstWindow_fits : c.dstBase.toNat + c.dstCap.toNat ≤ memSize :=
  bounds_of_preflight hpre _ (mem_active_of_output (dstWindow_mem_outputWindows op c))

theorem idxWindow_fits (hop : op = .repackTile) (hen : c.idxEn = true) : c.idxBase.toNat + c.idxCap.toNat ≤ memSize :=
  bounds_of_preflight hpre _ (mem_active_of_output (idxWindow_mem_outputWindows hop hen))

theorem palWindow_fits (hop : op = .rleEnc) (hen : c.palEn = true) : c.palBase.toNat + 3 * c.palCount.toNat ≤ memSize :=
  bounds_of_preflight hpre _ (palWindow_mem hop hen)

/-- SRC_LEN is a whole number of tile rows once the geometry check has passed (spec/40_command.md R124). -/
theorem srcLen_eq_of_preflight (hop : op = .repackTile) : ∃ rows, c.srcLen.toNat = rows * c.mapw * c.tileb := by
  subst hop
  obtain ⟨rows, hrows⟩ := Nat.dvd_of_mod_eq_zero ((checkGeom_eq_none c).1 (own_of_preflight hpre))
  exact ⟨rows, by rw [hrows]; ring⟩

/-- Every read of the source stays inside it, tile by tile too (spec/41_repack.md R160). -/
theorem readOffset_lt {k : Nat} (hk : k < c.srcLen.toNat) : readOffset op c k < c.srcLen.toNat := by
  cases hop : op with
  | repackTile =>
    obtain ⟨rows, hrows⟩ := srcLen_eq_of_preflight hpre hop
    exact (tileOffsetsAreABijection c rows hrows).1 k hk
  | repackLin => exact hk
  | rleEnc => exact hk

end Windows

/-! ## Counting output bytes, side-channel bytes and tiles -/

theorem maxOutput_eq_div {op : Lop} (hop : op ≠ .rleEnc) (c : CfgRegs) :
    maxOutput op c = (c.srcLen.toNat * c.pIn + c.pOut - 1) / c.pOut := by
  cases op with
  | rleEnc => exact absurd rfl hop
  | _ => rfl

/-- A number of output bytes is within a repack's output when the last of them holds a pixel. -/
theorem le_maxOutput_iff {op : Lop} (hop : op ≠ .rleEnc) (c : CfgRegs) (n : Nat) :
    n ≤ maxOutput op c ↔ n * c.pOut < c.srcLen.toNat * c.pIn + c.pOut := by
  have hpos := c.pOut_pos
  rw [maxOutput_eq_div hop, Nat.le_div_iff_mul_le hpos]
  omega

theorem sideBytes_succ (op : Lop) (c : CfgRegs) (k : Nat) : sideBytes op c (k + 1) =
    sideBytes op c k + if op = .repackTile ∧ k % c.tileb = 0 ∧ c.idxEn = true then 1 else 0 := by
  have hpos := c.tileb_pos
  have hsucc : k + 1 + c.tileb - 1 = (k + c.tileb - 1) + 1 := by omega
  have hdvd : (c.tileb ∣ k + c.tileb - 1 + 1) ↔ k % c.tileb = 0 := by
    rw [Nat.sub_add_cancel (by omega), Nat.dvd_add_self_right, Nat.dvd_iff_mod_eq_zero]
  unfold sideBytes
  by_cases h : op = .repackTile ∧ c.idxEn = true
  · rw [if_pos h, if_pos h, hsucc, Nat.succ_div]
    simp only [hdvd, h.1, h.2, true_and, and_true]
  · rw [if_neg h, if_neg h, if_neg fun h' => h ⟨h'.1, h'.2.2⟩]

/-- The side channel never exceeds the number of tiles (spec/41_repack.md R161). -/
theorem sideBytes_le {memSize : Nat} {op : Lop} {c : CfgRegs} (hpre : preflightError memSize op c = none) {k : Nat}
    (hk : k ≤ c.srcLen.toNat) : sideBytes op c k ≤ c.srcLen.toNat / c.tileb := by
  have hpos := c.tileb_pos
  unfold sideBytes
  split_ifs with h
  · obtain ⟨rows, hrows⟩ := srcLen_eq_of_preflight hpre h.1
    rw [hrows] at hk ⊢
    rw [Nat.mul_div_cancel _ hpos, ← Nat.lt_succ_iff, Nat.div_lt_iff_lt_mul hpos, Nat.succ_mul]
    omega
  · exact Nat.zero_le _

theorem tilesDone_succ (op : Lop) (c : CfgRegs) (n : Nat) : tilesDone op c (n + 1) =
    tilesDone op c n + if op = .repackTile ∧ (n + 1) % c.tileob = 0 then 1 else 0 := by
  unfold tilesDone
  by_cases h : op = .repackTile
  · simp only [h, if_true, true_and, Nat.succ_div, Nat.dvd_iff_mod_eq_zero]
  · simp [h]

theorem tilesDone_le (op : Lop) (c : CfgRegs) (n : Nat) : tilesDone op c n ≤ n := by
  unfold tilesDone
  split_ifs
  · exact Nat.div_le_self _ _
  · exact Nat.zero_le _

/-! ## ACC (spec/41_repack.md R153) -/

/-- A rotation that brings no bit round is a shift. -/
theorem rol8_eq_shiftLeft {x : Byte} {j : Nat} (h : x.toNat < 2 ^ (8 - j)) : rol8 x j = x <<< j := by
  have hzero : x >>> (8 - j) = 0 := by
    refine BitVec.eq_of_toNat_eq ?_
    rw [BitVec.toNat_ushiftRight, Nat.shiftRight_eq_div_pow, Nat.div_eq_of_lt h]
    rfl
  rw [rol8, hzero]
  exact BitVec.or_zero

theorem toNat_and_mask_lt (pix : Byte) {bout : Nat} (h : bout ≤ 8) : (pix &&& mask bout).toNat < 2 ^ bout := by
  have hle : 2 ^ bout ≤ 2 ^ 8 := Nat.pow_le_pow_right (by omega) h
  have hpos : 0 < 2 ^ bout := Nat.two_pow_pos bout
  rw [BitVec.toNat_and, mask, BitVec.toNat_ofNat, Nat.mod_eq_of_lt (by omega)]
  exact lt_of_le_of_lt Nat.and_le_right (by omega)

/-- A pack step adds one field to the low end of ACC. -/
theorem packStep_lt {bout n : Nat} {acc : Byte} (h : acc.toNat < 2 ^ (n * bout)) (hn : (n + 1) * bout ≤ 8) (pix : Byte) :
    (packStep bout acc pix).toNat < 2 ^ ((n + 1) * bout) := by
  rw [Nat.succ_mul] at hn ⊢
  have hshift : acc.toNat < 2 ^ (8 - bout) := h.trans_le (Nat.pow_le_pow_right (by omega) (by omega))
  rw [packStep, rol8_eq_shiftLeft hshift, BitVec.toNat_or]
  refine Nat.or_lt_two_pow ?_ ?_
  · calc (acc <<< bout).toNat ≤ acc.toNat * 2 ^ bout := by
          rw [BitVec.toNat_shiftLeft, Nat.shiftLeft_eq]; exact Nat.mod_le _ _
      _ < 2 ^ (n * bout) * 2 ^ bout := Nat.mul_lt_mul_of_pos_right h (Nat.two_pow_pos _)
      _ = 2 ^ (n * bout + bout) := (Nat.pow_add _ _ _).symm
  · exact (toNat_and_mask_lt pix (by omega)).trans_le (Nat.pow_le_pow_right (by omega) (Nat.le_add_left _ _))

/-! ## Repacker -/

/-- `State.RepackOk` without the bound on IN_LEFT: what holds between the fetch and the pixel of one step too. -/
structure State.RepackCore (s : State) : Prop where
  op : s.lop ≠ .rleEnc
  preflight : preflightError s.memSize s.lop s.latched = none
  inCount_le : s.inCount.toNat ≤ s.latched.srcLen.toNat
  outCount_le : s.outCount.toNat ≤ s.latched.dstCap.toNat
  accN_lt : s.accN < s.latched.pOut
  acc_lt : s.acc.toNat < 2 ^ (s.accN * s.latched.bout)
  pixels : s.inCount.toNat * s.latched.pIn = s.outCount.toNat * s.latched.pOut + s.accN + s.inLeft
  idxCount_eq : s.idxCount.toNat = sideBytes s.lop s.latched s.inCount.toNat
  idxCount_le : s.idxCount.toNat ≤ s.latched.idxCap.toNat
  tileCount_eq : s.tileCount.toNat = tilesDone s.lop s.latched s.outCount.toNat

theorem State.repackOk_iff (s : State) : s.RepackOk ↔ s.RepackCore ∧ s.inLeft < s.latched.pIn := by
  constructor
  · rintro ⟨hop, hpre, hin, hout, hleft, haccN, hacc, hpix, hidx, hcap, htile⟩
    exact ⟨⟨hop, hpre, hin, hout, haccN, hacc, hpix, hidx, hcap, htile⟩, hleft⟩
  · rintro ⟨⟨hop, hpre, hin, hout, haccN, hacc, hpix, hidx, hcap, htile⟩, hleft⟩
    exact ⟨hop, hpre, hin, hout, hleft, haccN, hacc, hpix, hidx, hcap, htile⟩

/-- TILE_COUNT is the only field that counting tiles can change. -/
theorem State.countTile_eq (s : State) : s.countTile = { s with
    tileCount := if s.lop = .repackTile ∧ s.outCount.toNat % s.latched.tileob = 0 then s.tileCount + 1
      else s.tileCount } := by
  unfold State.countTile
  by_cases h : s.lop = .repackTile ∧ s.outCount.toNat % s.latched.tileob = 0
  · rw [if_pos h, if_pos h]
  · rw [if_neg h, if_neg h]

/-- The state after a completed output byte, field by field (spec/41_repack.md R162, R163). -/
theorem State.byteDone_eq (s : State) : s.byteDone = { s with
    inSr := rol8 s.inSr s.latched.bin, inLeft := s.inLeft - 1, acc := 0, accN := 0
    mem := s.mem.write s.dstAddr s.movePixel.acc, outCount := s.outCount + 1
    tileCount := if s.lop = .repackTile ∧ (s.outCount + 1).toNat % s.latched.tileob = 0 then s.tileCount + 1
      else s.tileCount } := by
  rw [State.byteDone, State.countTile_eq]
  simp only [State.clearAcc, State.countOut, State.store, State.movePixel]
  congr

theorem State.stepsLeft_repack {s : State} (h : s.phase = .repack) :
    s.stepsLeft = (s.latched.srcLen.toNat - s.inCount.toNat) * s.latched.pIn + s.inLeft + 1 := by
  simp only [State.stepsLeft, h]

section Repack

variable {s : State} (hc : s.RepackCore)

include hc

theorem State.RepackCore.bounded : s.OutputBounded := by
  refine ⟨(le_maxOutput_iff hc.op _ _).2 ?_, hc.idxCount_eq ▸ sideBytes_le hc.preflight hc.inCount_le⟩
  have hread := Nat.mul_le_mul_right s.latched.pIn hc.inCount_le
  have hpos := s.latched.pOut_pos
  have hpix := hc.pixels
  omega

/-- Where another output byte holds a pixel, the window is shorter than the longest output if it is full. -/
theorem State.RepackCore.lt_maxOutput (hfull : s.outCount = s.latched.dstCap) (hpix : s.accN ≠ 0 ∨ s.inLeft ≠ 0) :
    s.latched.dstCap.toNat < maxOutput s.lop s.latched := by
  refine (le_maxOutput_iff hc.op _ _).2 ?_
  have hread := Nat.mul_le_mul_right s.latched.pIn hc.inCount_le
  have hpixels := hc.pixels
  rw [hfull] at hpixels
  rw [Nat.succ_mul]
  omega

theorem State.RepackCore.dstAddr_lt (hroom : s.outCount ≠ s.latched.dstCap) : s.dstAddr < s.memSize :=
  (Nat.add_lt_add_left (toNat_add_one_of_ne hroom hc.outCount_le).2 _).trans_le (dstWindow_fits hc.preflight)

theorem State.RepackCore.srcAddr_mem (hmore : s.inCount ≠ s.latched.srcLen) :
    s.latched.srcWindow.contains s.srcAddr = true :=
  (Window.contains_iff _ _).2 ⟨Nat.le_add_right _ _,
    Nat.add_lt_add_left (readOffset_lt hc.preflight (toNat_add_one_of_ne hmore hc.inCount_le).2) _⟩

theorem State.RepackCore.movePixel (hleft : s.inLeft ≠ 0) (hpart : s.accN + 1 ≠ s.latched.pOut) :
    s.movePixel.RepackCore := by
  have haccN : s.accN + 1 < s.latched.pOut := Nat.lt_of_le_of_ne hc.accN_lt hpart
  have hfits : (s.accN + 1) * s.latched.bout ≤ 8 :=
    s.latched.pOut_mul_bout ▸ Nat.mul_le_mul_right _ haccN.le
  refine ⟨hc.op, hc.preflight, hc.inCount_le, hc.outCount_le, haccN, packStep_lt hc.acc_lt hfits _, ?_, hc.idxCount_eq,
    hc.idxCount_le, hc.tileCount_eq⟩
  have hpixels := hc.pixels
  simp only [State.movePixel_inCount, State.movePixel_latched, State.movePixel_outCount, State.movePixel_accN,
    State.movePixel_inLeft]
  omega

theorem State.RepackCore.byteDone (hleft : s.inLeft ≠ 0) (hlast : s.accN + 1 = s.latched.pOut)
    (hroom : s.outCount ≠ s.latched.dstCap) : s.byteDone.RepackCore := by
  obtain ⟨hcount, hlt⟩ := toNat_add_one_of_ne hroom hc.outCount_le
  have htiles : s.tileCount.toNat ≤ s.outCount.toNat := hc.tileCount_eq ▸ tilesDone_le _ _ _
  rw [State.byteDone_eq]
  refine ⟨hc.op, hc.preflight, hc.inCount_le, hcount ▸ hlt, s.latched.pOut_pos, Nat.two_pow_pos _, ?_, hc.idxCount_eq,
    hc.idxCount_le, ?_⟩
  · have hpixels := hc.pixels
    simp only [hcount, Nat.succ_mul]
    omega
  · have hcap := s.latched.dstCap.isLt
    have hsucc : (s.tileCount + 1).toNat = s.tileCount.toNat + 1 := by bv_omega
    simp only [hcount, tilesDone_succ, ← hc.tileCount_eq]
    split_ifs
    · exact hsucc
    · rfl

/-- The pixel of a repack step under the invariant. -/
theorem State.RepackCore.pixelStep (hphase : s.phase = .repack) (hleft : s.inLeft ≠ 0) (hle : s.inLeft ≤ s.latched.pIn) :
    (pixelStep s).Post s.Advances s.Fails fun _ => False := by
  have hcount {t : State} (ht : t.phase = .repack) (hl : t.latched = s.latched) (hi : t.inCount = s.inCount)
      (hleft' : t.inLeft = s.inLeft - 1) : t.stepsLeft + 1 = s.stepsLeft := by
    rw [State.stepsLeft_repack ht, State.stepsLeft_repack hphase, hl, hi, hleft']
    omega
  rcases pixelStep_cases s with ⟨hpart, h⟩ | ⟨hlast, hfull, h⟩ | ⟨-, hroom, ha, -⟩ | ⟨hlast, hroom, -, h⟩
  · have hcore := hc.movePixel hleft hpart
    rw [h]
    exact {
      command := State.commandOk_of_repack hphase <|
        (State.repackOk_iff _).2 ⟨hcore, by rw [State.movePixel_inLeft, State.movePixel_latched]; omega⟩
      bounded := hcore.bounded
      count := fun _ => hcount hphase rfl rfl rfl
      last := fun hidle => absurd (hphase.symm.trans hidle) Phase.noConfusion }
  · rw [h]
    exact {
      idle := rfl
      code := s.lop.mayRaise_edstovf _
      bounded := ⟨hc.bounded.out, hc.bounded.idx⟩
      overflow := fun _ => hc.lt_maxOutput hfull (.inr hleft) }
  · exact absurd (hc.dstAddr_lt hroom) (Nat.not_lt.2 ha)
  · have hcore := hc.byteDone hleft hlast hroom
    have hphase' : s.byteDone.phase = .repack := by rw [State.byteDone_eq]; exact hphase
    rw [h]
    exact {
      command := State.commandOk_of_repack hphase' <|
        (State.repackOk_iff _).2 ⟨hcore, by rw [State.byteDone_eq]; show s.inLeft - 1 < s.latched.pIn; omega⟩
      bounded := hcore.bounded
      count := fun _ => hcount hphase' (by rw [State.byteDone_eq]) (by rw [State.byteDone_eq]) (by rw [State.byteDone_eq])
      last := fun hidle => absurd (hphase'.symm.trans hidle) Phase.noConfusion }

/-- The state that a fetch hands to the datapath: the invariant with a whole byte's pixels in IN_SR, and as many steps left. -/
structure State.Fetched (s t : State) : Prop where
  core : t.RepackCore
  phase : t.phase = .repack
  inLeft : t.inLeft = t.latched.pIn
  lop : t.lop = s.lop
  latched : t.latched = s.latched
  count : t.stepsLeft = s.stepsLeft

omit hc in
/-- One byte more is read, and the side channel has taken its nibble where one is due. -/
theorem State.RepackCore.fetched {t : State} (hc : s.RepackCore) (hphase : s.phase = .repack) (hleft : s.inLeft = 0)
    (hmore : s.inCount ≠ s.latched.srcLen) (b : Byte) {n : Word}
    (hn : n.toNat = s.idxCount.toNat + if s.startsTile = true then 1 else 0) (hcap : n.toNat ≤ s.latched.idxCap.toNat)
    (ht : t = { s with
      mem := t.mem, idxCount := n, inCount := s.inCount + 1, inSr := b, inLeft := s.latched.pIn }) : s.Fetched t := by
  obtain ⟨hcount, hlt⟩ := toNat_add_one_of_ne hmore hc.inCount_le
  rw [ht]
  refine ⟨⟨hc.op, hc.preflight, hcount ▸ hlt, hc.outCount_le, hc.accN_lt, hc.acc_lt, ?_, ?_, hcap, hc.tileCount_eq⟩,
    hphase, rfl, rfl, rfl, ?_⟩
  · have hpixels := hc.pixels
    simp only [hcount, Nat.succ_mul]
    omega
  · simp only [hcount, sideBytes_succ, ← hc.idxCount_eq, hn, State.startsTile_iff]
  · obtain ⟨left, hl⟩ : ∃ left, s.latched.srcLen.toNat - s.inCount.toNat = left + 1 :=
      ⟨s.latched.srcLen.toNat - (s.inCount.toNat + 1), by omega⟩
    rw [State.stepsLeft_repack (s := { s with
      mem := t.mem, idxCount := n, inCount := s.inCount + 1, inSr := b, inLeft := s.latched.pIn }) hphase,
      State.stepsLeft_repack hphase, hleft]
    simp only [hcount, Nat.sub_add_eq, hl, Nat.succ_mul, Nat.add_sub_cancel]

/-- A fetch under the invariant: ETRUNC and the guard never fire. -/
theorem State.RepackCore.fetchByte (hphase : s.phase = .repack) (hleft : s.inLeft = 0)
    (hmore : s.inCount ≠ s.latched.srcLen) : (fetchByte s).Post s.Fetched s.Fails s.LacksSource := by
  have hsrc := hc.srcAddr_mem hmore
  have hsrcLt : s.srcAddr < s.memSize := ((Window.contains_iff _ _).1 hsrc).2.trans_le (srcWindow_fits hc.preflight)
  rcases fetchByte_cases s with
    ⟨-, hout, -⟩ | ⟨-, ⟨ha, -⟩ | ⟨-, hnone, h⟩ | ⟨b, -, -, ⟨hst, h⟩ | ⟨hst, hfull, h⟩ | ⟨hst, hroom, ha, -⟩ |
      ⟨hst, hroom, -, h⟩⟩⟩
  · exact absurd (readOffset_lt hc.preflight (toNat_add_one_of_ne hmore hc.inCount_le).2) (Nat.not_lt.2 hout)
  · exact absurd hsrcLt (Nat.not_lt.2 ha)
  · rw [h]
    exact ⟨_, rfl, hnone, _, srcWindow_mem _ _, rfl, hsrc⟩
  · rw [h]
    exact hc.fetched hphase hleft hmore b (by simp [hst]) hc.idxCount_le rfl
  · obtain ⟨hop, -, hen⟩ := s.startsTile_iff.1 hst
    rw [h]
    exact {
      idle := rfl
      code := by simp [Lop.MayRaise, hop, hen]
      bounded := ⟨hc.bounded.out, hc.bounded.idx⟩
      overflow := fun hcode => by cases hcode }
  · obtain ⟨hop, -, hen⟩ := s.startsTile_iff.1 hst
    have hlt := (toNat_add_one_of_ne hroom hc.idxCount_le).2
    exact absurd ((Nat.add_lt_add_left hlt _).trans_le (idxWindow_fits hc.preflight hop hen)) (Nat.not_lt.2 ha)
  · obtain ⟨hcount, hlt⟩ := toNat_add_one_of_ne hroom hc.idxCount_le
    rw [h]
    exact hc.fetched hphase hleft hmore b (n := s.idxCount + 1) (by rw [hcount, if_pos hst]) (hcount ▸ hlt) rfl

/-- The final step under the invariant. -/
theorem State.RepackCore.repackFinal (hphase : s.phase = .repack) (hleft : s.inLeft = 0)
    (hread : s.inCount = s.latched.srcLen) : (repackFinal s).Post s.Advances s.Fails fun _ => False := by
  have hlast : s.stepsLeft = 1 := by rw [State.stepsLeft_repack hphase, hread, hleft, Nat.sub_self, Nat.zero_mul]
  have hdone {t : State} (ht : t.phase = .idle) (hb : t.OutputBounded) : s.Advances t :=
    ⟨State.commandOk_of_idle ht, hb, fun hrun => absurd ht hrun, fun _ => hlast⟩
  rcases repackFinal_cases s with ⟨-, h⟩ | ⟨hacc, hfull, h⟩ | ⟨-, hroom, ha, -⟩ | ⟨hacc, hroom, -, h⟩
  · rw [h]
    exact hdone rfl ⟨hc.bounded.out, hc.bounded.idx⟩
  · rw [h]
    exact {
      idle := rfl
      code := s.lop.mayRaise_edstovf _
      bounded := ⟨hc.bounded.out, hc.bounded.idx⟩
      overflow := fun _ => hc.lt_maxOutput hfull (.inl hacc) }
  · exact absurd (hc.dstAddr_lt hroom) (Nat.not_lt.2 ha)
  · rw [h]
    have hout : (s.outCount + 1).toNat ≤ maxOutput s.lop s.latched := by
      have hpixels := hc.pixels
      rw [(toNat_add_one_of_ne hroom hc.outCount_le).1, le_maxOutput_iff hc.op, Nat.succ_mul, ← hread]
      omega
    exact hdone rfl ⟨by simpa using hout, by simpa using hc.bounded.idx⟩

end Repack

theorem State.Advances.of_count_eq {s t u : State} (h : t.Advances u) (hcount : t.stepsLeft = s.stepsLeft) : s.Advances u :=
  ⟨h.command, h.bounded, hcount ▸ h.count, hcount ▸ h.last⟩

theorem State.Fails.of_latched_eq {s t u : State} (h : t.Fails u) (hlop : t.lop = s.lop) (hl : t.latched = s.latched) :
    s.Fails u :=
  ⟨h.idle, hlop ▸ hl ▸ h.code, h.bounded, hlop ▸ hl ▸ h.overflow⟩

theorem State.RepackOk.sound {s : State} (h : s.RepackOk) (hphase : s.phase = .repack) : s.Sound (stepRepack s) := by
  obtain ⟨hc, hlt⟩ := s.repackOk_iff.1 h
  rcases stepRepack_cases s with ⟨hleft, hread, h⟩ | ⟨hleft, hmore, h⟩ | ⟨hleft, h⟩ <;> rw [h]
  · exact (hc.repackFinal hphase hleft hread).imp (fun _ => id) (fun _ => id) fun _ => False.elim
  · refine (hc.fetchByte hphase hleft hmore).andThen fun t ht => ?_
    refine (ht.core.pixelStep ht.phase ?_ ht.inLeft.le).imp (fun u hu => hu.of_count_eq ht.count)
      (fun u hu => hu.of_latched_eq ht.lop ht.latched) fun _ => False.elim
    rw [ht.inLeft]
    exact t.latched.pIn_pos.ne'
  · exact (hc.pixelStep hphase hleft hlt.le).imp (fun _ => id) (fun _ => id) fun _ => False.elim

end Sys2Proof.Machine
end

section
/-! The command invariant in the phases of RLE_ENC, and what follows from it for every step: the count of steps, the errors, the
faults and the bytes written (spec/40_command.md R118, R128; spec/42_rle.md; spec/60_exceptions.md R253). -/

namespace Sys2Proof.Machine

/-! ## Checked writes of several bytes -/

theorem Progress.andThen_go (p : Progress) : p.andThen .go = p := by cases p <;> rfl

theorem dstWrites_singleton (v : Byte) (s : State) : dstWrites [v] s = dstWrite v s :=
  Progress.andThen_go (dstWrite v s)

/-- The state with its output memory and OUT_COUNT changed. -/
def State.withOutput (m : Memory) (k : Word) (s : State) : State := { s with mem := m, outCount := k }

section WithOutput

variable (m : Memory) (k : Word) (s : State)

@[simp] theorem State.withOutput_mem : (s.withOutput m k).mem = m := rfl
@[simp] theorem State.withOutput_outCount : (s.withOutput m k).outCount = k := rfl
@[simp] theorem State.withOutput_phase : (s.withOutput m k).phase = s.phase := rfl
@[simp] theorem State.withOutput_lop : (s.withOutput m k).lop = s.lop := rfl
@[simp] theorem State.withOutput_latched : (s.withOutput m k).latched = s.latched := rfl
@[simp] theorem State.withOutput_memSize : (s.withOutput m k).memSize = s.memSize := rfl
@[simp] theorem State.withOutput_inCount : (s.withOutput m k).inCount = s.inCount := rfl
@[simp] theorem State.withOutput_idxCount : (s.withOutput m k).idxCount = s.idxCount := rfl
@[simp] theorem State.withOutput_hdrI : (s.withOutput m k).hdrI = s.hdrI := rfl
@[simp] theorem State.withOutput_palI : (s.withOutput m k).palI = s.palI := rfl
@[simp] theorem State.withOutput_runActive : (s.withOutput m k).runActive = s.runActive := rfl
@[simp] theorem State.withOutput_runColor : (s.withOutput m k).runColor = s.runColor := rfl
@[simp] theorem State.withOutput_runRep : (s.withOutput m k).runRep = s.runRep := rfl

end WithOutput

/-- The state after `n` output bytes: only memory and OUT_COUNT change, and OUT_COUNT stays within the capacity. -/
def State.Emitted (s : State) (n : Nat) (t : State) : Prop :=
  ∃ (m : Memory) (k : Word), t = s.withOutput m k ∧ k.toNat = s.outCount.toNat + n
    ∧ k.toNat ≤ s.latched.dstCap.toNat

theorem toNat_add_ofNat {a b : Word} {n : Nat} (h : a.toNat + n ≤ b.toNat) : (a + BitVec.ofNat 32 n).toNat = a.toNat + n := by
  have hb := b.isLt
  rw [BitVec.toNat_add, BitVec.toNat_ofNat, Nat.mod_eq_of_lt (a := n) (by omega), Nat.mod_eq_of_lt (by omega)]

/-- Bytes within the longest output: they are written, or the window is shorter than that output. -/
theorem dstWrites_post {s : State} (vs : List Byte) (hpre : preflightError s.memSize s.lop s.latched = none)
    (hout : s.outCount.toNat ≤ s.latched.dstCap.toNat)
    (hmax : s.outCount.toNat + vs.length ≤ maxOutput s.lop s.latched)
    (hidx : s.idxCount.toNat ≤ s.latched.srcLen.toNat / s.latched.tileb) :
    (dstWrites vs s).Post (s.Emitted vs.length) s.Fails fun _ => False := by
  rcases dstWrites_cases vs s hout with ⟨m, h, hroom, -⟩ | ⟨m, h, hfull, -⟩ | ⟨a, -, -, ha, hguard, -⟩
  · rw [h]
    have hcount := toNat_add_ofNat hroom
    exact ⟨m, _, rfl, hcount, hcount ▸ hroom⟩
  · rw [h]
    have hcap : s.latched.dstCap.toNat < maxOutput s.lop s.latched := hfull.trans_le hmax
    exact {
      idle := rfl
      code := s.lop.mayRaise_edstovf _
      bounded := ⟨hcap.le, hidx⟩
      overflow := fun _ => hcap }
  · exact absurd (ha.trans_le (dstWindow_fits hpre)) (Nat.not_lt.2 hguard)

/-! ## The phases of RLE_ENC -/

theorem State.stepsLeft_rleHdr {s : State} (h : s.phase = .rleHdr) :
    s.stepsLeft = (4 - s.hdrI) + s.latched.palLen + s.latched.srcLen.toNat + 1 := by simp only [State.stepsLeft, h]

theorem State.stepsLeft_rlePal {s : State} (h : s.phase = .rlePal) :
    s.stepsLeft = (s.latched.palCount.toNat - s.palI.toNat) + s.latched.srcLen.toNat + 1 := by
  simp only [State.stepsLeft, h]

theorem State.RleOk.bounded {s : State} (h : s.RleOk)
    (hout : s.outCount.toNat ≤ s.latched.hdrLen + 2 * s.latched.palLen + s.latched.srcLen.toNat) : s.OutputBounded := by
  obtain ⟨hop, -, -, hidx, -⟩ := h
  refine ⟨?_, by simp [hidx]⟩
  rw [hop]
  exact hout

/-- The emitted bytes of a running encoder: `dstWrites_post` with the bound in the terms of RLE_ENC. -/
theorem State.RleOk.dstWrites {s : State} (h : s.RleOk) (vs : List Byte)
    (hmax : s.outCount.toNat + vs.length ≤ s.latched.hdrLen + 2 * s.latched.palLen + s.latched.srcLen.toNat) :
    (dstWrites vs s).Post (s.Emitted vs.length) s.Fails fun _ => False := by
  obtain ⟨hop, hpre, hout, hidx, -⟩ := h
  exact dstWrites_post vs hpre hout (hop ▸ hmax) (by simp [hidx])

/-- The invariant of a run with a run open. -/
theorem State.runOk_of_active {s : State} (h : s.RleOk) (hact : s.runActive = true) (hin : 0 < s.inCount.toNat)
    (hmin : s.latched.hdrLen + 2 * s.latched.palLen ≤ s.outCount.toNat)
    (hmax : s.outCount.toNat + (s.runRep.toNat + 1) ≤ s.latched.hdrLen + 2 * s.latched.palLen + s.inCount.toNat) :
    s.RunOk := ⟨h, by simp [hact, hin], hmin, by simpa [hact] using hmax⟩

/-- The tokens begin, with no byte read (spec/42_rle.md R211). -/
theorem State.commandOk_tokens {s : State} (h : s.RleOk) (hphase : s.phase = .rleRun) (hin : s.inCount = 0)
    (hact : s.runActive = false) (hout : s.outCount.toNat = s.latched.hdrLen + 2 * s.latched.palLen) :
    s.CommandOk ∧ s.stepsLeft = s.latched.srcLen.toNat + 1 := by
  refine ⟨State.commandOk_of_rleRun hphase ⟨h, by simp [hact, hin], hout.ge, by simp [hact, hin, hout]⟩, ?_⟩
  simp [State.stepsLeft, hphase, hin]

/-- The palette, if any, and the tokens begin after the header (spec/42_rle.md R211). -/
theorem State.commandOk_afterHdr {s : State} (h : s.RleOk) (hphase : s.phase = afterHdr s.latched) (hin : s.inCount = 0)
    (hact : s.runActive = false) (hpal : s.palI = 0) (hout : s.outCount.toNat = s.latched.hdrLen) :
    s.CommandOk ∧ s.stepsLeft = s.latched.palLen + s.latched.srcLen.toNat + 1 := by
  by_cases hp : s.latched.palEn = true ∧ 0 < s.latched.palCount.toNat
  · have hlen : s.latched.palLen = s.latched.palCount.toNat := if_pos hp.1
    have hphase : s.phase = .rlePal := by simpa [afterHdr, hp] using hphase
    refine ⟨State.commandOk_of_rlePal hphase ⟨h, hp.1, hin, hact, ?_, ?_⟩, ?_⟩
    · rw [hpal]; exact hp.2
    · rw [hpal, hout]; rfl
    · simp [State.stepsLeft, hphase, hpal, hlen]
  · have hlen : s.latched.palLen = 0 := by
      unfold CfgRegs.palLen
      split_ifs with hen
      · exact Nat.eq_zero_of_not_pos fun hpos => hp ⟨hen, hpos⟩
      · rfl
    have hphase : s.phase = .rleRun := by
      rw [hphase, afterHdr, if_neg (by simpa using hp)]
    obtain ⟨hok, hleft⟩ := State.commandOk_tokens h hphase hin hact (by rw [hlen]; exact hout)
    exact ⟨hok, by rw [hleft, hlen, Nat.zero_add]⟩

/-- A step that stays in the command advances when the invariant holds on and one step less is left. -/
theorem State.advances_of_running {s t : State} (hrun : t.phase ≠ .idle) (h : t.CommandOk ∧ t.stepsLeft + 1 = s.stepsLeft)
    (hb : t.OutputBounded) : s.Advances t :=
  ⟨h.1, hb, fun _ => h.2, fun hidle => absurd hidle hrun⟩

theorem State.HdrOk.sound {s : State} (h : s.HdrOk) (hphase : s.phase = .rleHdr) : s.Sound (stepRleHdr s) := by
  obtain ⟨hrle, hen, hin, hact, hpal, hlt, hout⟩ := h
  have hlen : s.latched.hdrLen = 4 := if_pos hen
  rw [stepRleHdr, ← dstWrites_singleton]
  refine ((hrle.dstWrites _ (by simp only [List.length_singleton]; omega)).imp (fun _ => id) (fun _ => id)
    fun _ => False.elim).andThen ?_
  rintro _ ⟨m, k, rfl, hk, hcap⟩
  obtain ⟨hop, hpre, -, hidx, htile, hle⟩ := hrle
  rw [List.length_singleton, hout] at hk
  have hrle' : (s.withOutput m k).nextHeader.RleOk := ⟨hop, hpre, hcap, hidx, htile, hle⟩
  have hmax : k.toNat ≤ s.latched.hdrLen + 2 * s.latched.palLen + s.latched.srcLen.toNat := by omega
  refine State.advances_of_running ?_ ?_ (hrle'.bounded hmax)
  · rw [State.nextHeader_phase]
    split_ifs
    · exact afterHdr_ne_idle _
    · simp [hphase]
  · by_cases hfour : s.hdrI + 1 = 4
    · obtain ⟨hok, hleft⟩ := State.commandOk_afterHdr hrle' (by simp [hfour]) hin hact hpal (by simp [hk, hlen, hfour])
      refine ⟨hok, ?_⟩
      simp only [hleft, State.stepsLeft_rleHdr hphase, State.nextHeader_latched, State.withOutput_latched]
      omega
    · have hphase' : (s.withOutput m k).nextHeader.phase = .rleHdr := by simp [hfour, hphase]
      refine ⟨State.commandOk_of_rleHdr hphase' ⟨hrle', hen, hin, hact, hpal, ?_, hk⟩, ?_⟩
      · rw [State.nextHeader_hdrI, State.withOutput_hdrI]; omega
      · simp only [State.stepsLeft_rleHdr hphase', State.stepsLeft_rleHdr hphase, State.nextHeader_hdrI,
          State.nextHeader_latched, State.withOutput_hdrI, State.withOutput_latched]
        omega

theorem State.palAddr_mem {s : State} (h : s.palI.toNat < s.latched.palCount.toNat) {j : Nat} (hj : j < 3) :
    s.latched.palWindow.contains (s.palAddr + j) = true := by
  rw [Window.contains_iff]
  simp only [CfgRegs.palWindow, State.palAddr]
  omega

theorem State.PalOk.sound {s : State} (h : s.PalOk) (hphase : s.phase = .rlePal) : s.Sound (stepRlePal s) := by
  obtain ⟨hrle, hen, hin, hact, hlt, hout⟩ := h
  obtain ⟨hop, hpre, -, hidx, htile, hle⟩ := id hrle
  have hlen : s.latched.palLen = s.latched.palCount.toNat := if_pos hen
  rcases stepRlePal_cases s with ⟨j, hj, ⟨-, ha⟩ | ⟨h, hnone⟩⟩ | ⟨r, g, b, -, -, -, h⟩
  · have hlt := ((Window.contains_iff _ _).1 (State.palAddr_mem hlt hj)).2
    exact absurd (hlt.trans_le (palWindow_fits hpre hop hen)) (Nat.not_lt.2 ha)
  · rw [h]
    exact ⟨_, rfl, hnone, _, palWindow_mem hop hen, rfl, State.palAddr_mem hlt hj⟩
  · rw [h]
    refine ((hrle.dstWrites (palBytes r g b) (by simp only [palBytes, List.length_cons, List.length_nil]; omega)).imp
      (fun _ => id) (fun _ => id) fun _ => False.elim).andThen ?_
    rintro _ ⟨m, k, rfl, hk, hcap⟩
    rw [show (palBytes r g b).length = 2 from rfl] at hk
    have hrle' : (s.withOutput m k).nextEntry.RleOk := ⟨hop, hpre, hcap, hidx, htile, hle⟩
    have hnext : (s.palI + 1).toNat = s.palI.toNat + 1 := by
      have := s.latched.palCount.isLt
      bv_omega
    have hmax : k.toNat ≤ s.latched.hdrLen + 2 * s.latched.palLen + s.latched.srcLen.toNat := by omega
    refine State.advances_of_running ?_ ?_ (hrle'.bounded hmax)
    · rw [State.nextEntry_phase]
      split_ifs
      · exact Phase.noConfusion
      · simp [hphase]
    · by_cases hlast : s.palI + 1 = s.latched.palCount
      · have hcount : s.latched.palCount.toNat = s.palI.toNat + 1 := hlast ▸ hnext
        obtain ⟨hok, hleft⟩ := State.commandOk_tokens hrle' (if_pos hlast) hin hact
          (show k.toNat = s.latched.hdrLen + 2 * s.latched.palLen by omega)
        refine ⟨hok, ?_⟩
        simp only [hleft, State.stepsLeft_rlePal hphase, State.nextEntry_latched, State.withOutput_latched]
        omega
      · have hne : s.palI.toNat + 1 ≠ s.latched.palCount.toNat := fun heq =>
          hlast (BitVec.eq_of_toNat_eq (hnext.trans heq))
        have hphase' : (s.withOutput m k).nextEntry.phase = .rlePal := (if_neg hlast).trans hphase
        refine ⟨State.commandOk_of_rlePal hphase' ⟨hrle', hen, hin, hact, ?_, ?_⟩, ?_⟩
        · simp only [State.nextEntry_palI, State.nextEntry_latched, State.withOutput_palI, State.withOutput_latched]
          omega
        · simp only [State.nextEntry_palI, State.nextEntry_latched, State.nextEntry_outCount, State.withOutput_palI,
            State.withOutput_latched, State.withOutput_outCount]
          omega
        · simp only [State.stepsLeft_rlePal hphase', State.stepsLeft_rlePal hphase, State.nextEntry_palI,
            State.nextEntry_latched, State.withOutput_palI, State.withOutput_latched]
          omega

/-- A token is no longer than its run (spec/42_rle.md R214). -/
theorem tokenBytes_length_le (c : Nibble) (rep : Byte) : (tokenBytes c rep).length ≤ rep.toNat + 1 := by
  rw [tokenBytes_length]
  split_ifs <;> omega

/-- The token of the open run fits in the longest output. -/
theorem State.RunOk.emitRun {s : State} (h : s.RunOk) (hact : s.runActive = true) :
    (emitRun s).Post (s.Emitted (tokenBytes s.runColor s.runRep).length) s.Fails fun _ => False := by
  obtain ⟨hrle, -, -, hmax⟩ := h
  rw [if_pos hact] at hmax
  have hlen := tokenBytes_length_le s.runColor s.runRep
  have hread := hrle.2.2.2.2.2
  exact hrle.dstWrites _ (by omega)

theorem State.RunOk.flush {s : State} (h : s.RunOk) (hphase : s.phase = .rleRun) (hread : s.inCount = s.latched.srcLen) :
    s.Sound (rleFlush s) := by
  have hlast : s.stepsLeft = 1 := by simp [State.stepsLeft, hphase, hread]
  have hdone {t : State} (ht : t.phase = .idle) (hb : t.OutputBounded) : s.Advances t :=
    ⟨State.commandOk_of_idle ht, hb, fun hrun => absurd ht hrun, fun _ => hlast⟩
  have hemit := h.emitRun
  obtain ⟨hrle, -, -, hmax⟩ := h
  rcases rleFlush_cases s with ⟨hact, h⟩ | ⟨hact, h⟩ <;> rw [h]
  · rw [if_neg (by simp [hact])] at hmax
    have hb := hrle.bounded (by rw [hread] at hmax; omega)
    exact hdone rfl ⟨hb.out, hb.idx⟩
  · refine ((hemit hact).imp (fun _ => id) (fun _ => id) fun _ => False.elim).andThen ?_
    rintro _ ⟨m, k, rfl, hk, hcap⟩
    rw [if_pos hact] at hmax
    have hlen := tokenBytes_length_le s.runColor s.runRep
    obtain ⟨hop, hpre, -, hidx, htile, hle⟩ := hrle
    have hrle' : (s.withOutput m k).RleOk := ⟨hop, hpre, hcap, hidx, htile, hle⟩
    have hb := hrle'.bounded (by rw [hread] at hmax; simp only [State.withOutput_outCount, State.withOutput_latched]; omega)
    exact hdone rfl ⟨hb.out, hb.idx⟩

theorem State.RunOk.takeColor {s : State} (h : s.RunOk) (hphase : s.phase = .rleRun)
    (hmore : s.inCount ≠ s.latched.srcLen) (c : Nibble) : (takeColor c s.countIn).Post s.Advances s.Fails fun _ => False := by
  have hemit := h.emitRun
  obtain ⟨hrle, hactive, hmin, hmax⟩ := h
  obtain ⟨hop, hpre, hout, hidx, htile, hle⟩ := hrle
  obtain ⟨hcount, hlt⟩ := toNat_add_one_of_ne hmore hle
  have hadv {t : State} (hrun : t.phase = .rleRun) (hl : t.latched = s.latched) (hi : t.inCount = s.inCount + 1)
      (hrle' : t.RleOk) (hact : t.runActive = true) (hmin' : s.outCount.toNat ≤ t.outCount.toNat)
      (hmax' : t.outCount.toNat + (t.runRep.toNat + 1)
        ≤ s.latched.hdrLen + 2 * s.latched.palLen + (s.inCount.toNat + 1)) : s.Advances t := by
    rw [← hl] at hmin hmax'
    rw [← hcount, ← hi] at hmax'
    refine State.advances_of_running (hrun ▸ Phase.noConfusion)
      ⟨State.commandOk_of_rleRun hrun (State.runOk_of_active hrle' hact ?_ (by omega) hmax'), ?_⟩ (hrle'.bounded ?_)
    · rw [hi, hcount]; omega
    · simp only [State.stepsLeft, hrun, hphase, hl, hi, hcount]
      omega
    · have := hrle'.2.2.2.2.2
      omega
  rcases takeColor_cases c s.countIn with ⟨hact, h⟩ | ⟨hact, -, hrep, h⟩ | ⟨hact, -, h⟩ <;> rw [h]
  · rw [if_neg (by simpa using hact)] at hmax
    exact hadv hphase rfl rfl ⟨hop, hpre, hout, hidx, htile, hcount ▸ hlt⟩ rfl le_rfl (by simpa using by omega)
  · rw [if_pos (by simpa using hact)] at hmax
    refine hadv hphase rfl rfl ⟨hop, hpre, hout, hidx, htile, hcount ▸ hlt⟩ hact le_rfl ?_
    have hrep' : (s.runRep + 1).toNat = s.runRep.toNat + 1 := by
      simp only [State.countIn_runRep] at hrep
      bv_omega
    simp only [State.extendRun_outCount, State.countIn_outCount, State.extendRun_runRep, State.countIn_runRep, hrep']
    omega
  · rw [if_pos (by simpa using hact)] at hmax
    have hlen := tokenBytes_length_le s.runColor s.runRep
    have hrle' : s.countIn.RleOk := ⟨hop, hpre, hout, hidx, htile, hcount ▸ hlt⟩
    have hread := s.latched.srcLen.isLt
    refine Progress.Post.andThen ((hrle'.dstWrites (tokenBytes s.runColor s.runRep) ?_).imp (fun _ => id)
      (fun t ht => ht.of_latched_eq rfl rfl) fun _ => id) ?_
    · simp only [State.countIn_outCount, State.countIn_latched]
      omega
    · rintro _ ⟨m, k, rfl, hk, hcap⟩
      simp only [State.countIn_outCount] at hk
      refine hadv hphase rfl rfl ⟨hop, hpre, hcap, hidx, htile, hcount ▸ hlt⟩ hact (by simpa using by omega) ?_
      simpa using by omega

theorem State.RunOk.sound {s : State} (h : s.RunOk) (hphase : s.phase = .rleRun) : s.Sound (stepRleRun s) := by
  obtain ⟨-, hpre, -, -, -, hle⟩ := h.1
  rcases stepRleRun_cases s with ⟨hread, h'⟩ | ⟨hmore, ⟨ha, -⟩ | ⟨hnone, h'⟩ | ⟨b, -, h'⟩⟩
  · rw [h']
    exact h.flush hphase hread
  · have hlt := (toNat_add_one_of_ne hmore hle).2
    exact absurd ((Nat.add_lt_add_left hlt _).trans_le (srcWindow_fits hpre)) (Nat.not_lt.2 ha)
  · rw [h']
    exact ⟨_, rfl, hnone, _, srcWindow_mem _ _, rfl, (Window.contains_iff _ _).2
      ⟨Nat.le_add_right _ _, Nat.add_lt_add_left (toNat_add_one_of_ne hmore hle).2 _⟩⟩
  · rw [h']
    exact (h.takeColor hphase hmore (colorOf b)).imp (fun _ => id) (fun _ => id) fun _ => False.elim

/-! ## Preflight -/

/-- The state in another phase. -/
def State.inPhase (p : Phase) (s : State) : State := { s with phase := p }

theorem State.stepsLeft_pre_repack {s : State} (h : s.phase = .pre) (hop : s.lop ≠ .rleEnc) :
    s.stepsLeft = 2 + s.latched.srcLen.toNat * s.latched.pIn := by
  cases hlop : s.lop with
  | rleEnc => exact absurd hlop hop
  | _ => simp only [State.stepsLeft, h, hlop]

theorem State.stepsLeft_pre_rleEnc {s : State} (h : s.phase = .pre) (hop : s.lop = .rleEnc) :
    s.stepsLeft = 2 + s.latched.hdrLen + s.latched.palLen + s.latched.srcLen.toNat := by
  simp only [State.stepsLeft, h, hop]

theorem sideBytes_zero (op : Lop) (c : CfgRegs) : sideBytes op c 0 = 0 := by
  have hpos := c.tileb_pos
  unfold sideBytes
  split_ifs
  · exact Nat.div_eq_of_lt (by omega)
  · rfl

/-- A repack starts with nothing read (spec/41_repack.md R165, R166). -/
theorem State.AtStart.enterRepack {s : State} (h : s.AtStart) (hphase : s.phase = .pre) (hop : s.lop ≠ .rleEnc)
    (hpre : preflightError s.memSize s.lop s.latched = none) :
    (s.inPhase .repack).CommandOk ∧ (s.inPhase .repack).stepsLeft + 1 = s.stepsLeft := by
  obtain ⟨hin, hout, hidx, htile, -, hleft, hacc, haccN, -⟩ := h
  constructor
  · refine State.commandOk_of_repack rfl ⟨hop, hpre, ?_⟩
    simp [State.inPhase, hin, hout, hidx, htile, hleft, hacc, haccN, s.latched.pIn_pos, s.latched.pOut_pos, sideBytes_zero,
      tilesDone]
  · rw [State.stepsLeft_repack (s := s.inPhase .repack) rfl, State.stepsLeft_pre_repack hphase hop]
    simp only [State.inPhase, hin, hleft, BitVec.toNat_zero, Nat.sub_zero, BitVec.ofNat_eq_ofNat]
    omega

/-- The encoder starts in its first phase with nothing read (spec/42_rle.md R211, R212). -/
theorem State.AtStart.enterRle {s : State} (h : s.AtStart) (hphase : s.phase = .pre) (hop : s.lop = .rleEnc)
    (hpre : preflightError s.memSize s.lop s.latched = none) :
    (s.inPhase (firstRlePhase s.latched)).CommandOk
      ∧ (s.inPhase (firstRlePhase s.latched)).stepsLeft + 1 = s.stepsLeft := by
  obtain ⟨hin, hout, hidx, htile, -, -, -, -, hhdr, hpal, hact, -⟩ := h
  have hrle (p : Phase) : (s.inPhase p).RleOk := ⟨hop, hpre, by simp [State.inPhase, hout], hidx, htile,
    by simp [State.inPhase, hin]⟩
  rw [State.stepsLeft_pre_rleEnc hphase hop]
  by_cases hen : s.latched.hdrEn = true
  · have hlen : s.latched.hdrLen = 4 := if_pos hen
    have hp : firstRlePhase s.latched = .rleHdr := if_pos hen
    rw [hp]
    refine ⟨State.commandOk_of_rleHdr rfl ⟨hrle _, hen, hin, hact, hpal, hhdr ▸ by decide,
      by simp [State.inPhase, hout, hhdr]⟩, ?_⟩
    rw [State.stepsLeft_rleHdr (s := s.inPhase .rleHdr) rfl]
    simp only [State.inPhase, hhdr, hlen]
    omega
  · have hlen : s.latched.hdrLen = 0 := if_neg hen
    have hp : firstRlePhase s.latched = afterHdr s.latched := if_neg hen
    rw [hp]
    obtain ⟨hok, hleft⟩ := State.commandOk_afterHdr (hrle (afterHdr s.latched)) rfl hin hact hpal
      (by simp [State.inPhase, hout, hlen])
    refine ⟨hok, ?_⟩
    rw [hleft, hlen]
    simp only [State.inPhase]
    omega

theorem State.AtStart.sound {s : State} (h : s.AtStart) (hphase : s.phase = .pre) : s.Sound (stepPre s) := by
  have hb (t : State) (hout : t.outCount = s.outCount) (hidx : t.idxCount = s.idxCount) : t.OutputBounded := by
    obtain ⟨-, hout', hidx', -⟩ := h
    exact ⟨by simp [hout, hout'], by simp [hidx, hidx']⟩
  rcases stepPre_cases s with ⟨e, i, herr, h'⟩ | ⟨hpre, h'⟩ <;> rw [h']
  · exact {
      idle := rfl
      code := Lop.mayRaise_of_preflight herr
      bounded := hb _ rfl rfl
      overflow := fun hcode => by rcases preflightError_code herr with rfl | ⟨rfl, -⟩ | ⟨rfl, -⟩ <;> cases hcode }
  · refine State.advances_of_running (firstPhase_ne_idle _ _) ?_ (hb _ rfl rfl)
    by_cases hop : s.lop = .rleEnc
    · have hp : firstPhase s.lop s.latched = firstRlePhase s.latched := by rw [hop]; rfl
      rw [hp]
      exact h.enterRle hphase hop hpre
    · have hp : firstPhase s.lop s.latched = .repack := by
        cases hlop : s.lop with
        | rleEnc => exact absurd hlop hop
        | _ => rfl
      rw [hp]
      exact h.enterRepack hphase hop hpre

/-! ## Every engine turn under the invariant -/

theorem State.CommandOk.phaseStep {s : State} (h : s.CommandOk) (hbusy : s.phase ≠ .idle) : s.Sound (phaseStep s) := by
  obtain ⟨hpre, hrepack, hhdr, hpal, hrun⟩ := h
  unfold Machine.phaseStep
  cases hphase : s.phase with
  | idle => exact absurd hphase hbusy
  | pre => exact (hpre hphase).sound hphase
  | repack => exact (hrepack hphase).sound hphase
  | rleHdr => exact (hhdr hphase).sound hphase
  | rlePal => exact (hpal hphase).sound hphase
  | rleRun => exact (hrun hphase).sound hphase

/-- The output counters of a running command are within its longest output. -/
theorem State.CommandOk.bounded {s : State} (h : s.CommandOk) (hbusy : s.phase ≠ .idle) : s.OutputBounded := by
  obtain ⟨hpre, hrepack, hhdr, hpal, hrun⟩ := h
  cases hphase : s.phase with
  | idle => exact absurd hphase hbusy
  | pre =>
    obtain ⟨-, hout, hidx, -⟩ := hpre hphase
    exact ⟨by simp [hout], by simp [hidx]⟩
  | repack => exact (s.repackOk_iff.1 (hrepack hphase)).1.bounded
  | rleHdr =>
    obtain ⟨hrle, hen, -, -, -, hlt, hout⟩ := hhdr hphase
    have hlen : s.latched.hdrLen = 4 := if_pos hen
    exact hrle.bounded (by omega)
  | rlePal =>
    obtain ⟨hrle, hen, -, -, hlt, hout⟩ := hpal hphase
    have hlen : s.latched.palLen = s.latched.palCount.toNat := if_pos hen
    exact hrle.bounded (by omega)
  | rleRun =>
    obtain ⟨hrle, -, -, hmax⟩ := hrun hphase
    have hread := hrle.2.2.2.2.2
    exact hrle.bounded (by omega)

/-- What a turn of a running command leaves: it advances, or ends with an error of its row. -/
theorem engineTurn_advances_or_fails {s t : State} (h : s.CommandOk) (hbusy : s.phase ≠ .idle)
    (ht : engineTurn s = .next t) : s.Advances t ∧ s.Proceeds t ∨ s.Fails t ∧ s.Raises t := by
  rcases engineTurn_cases s with ⟨hidle, -⟩ | ⟨-, -, h'⟩ | ⟨-, -, h'⟩
  · exact absurd hidle hbusy
  · rw [h', Host.Outcome.next.injEq] at ht
    subst ht
    have hb := h.bounded hbusy
    exact .inr ⟨⟨rfl, s.lop.mayRaise_eabort _, ⟨hb.out, hb.idx⟩, fun hcode => by cases hcode⟩,
      s, _, _, .refl s, ErrCode.noConfusion, rfl⟩
  · exact ((h.phaseStep hbusy).and (phaseStep_steps hbusy)).of_next (h' ▸ ht)

theorem engineTurn_keeps_commandOk {s t : State} (h : s.CommandOk) (ht : engineTurn s = .next t) : t.CommandOk := by
  by_cases hidle : s.phase = .idle
  · rw [engineTurn_idle (s.not_busy_iff.2 hidle)] at ht
    cases ht
    exact h
  · exact (engineTurn_advances_or_fails h hidle ht).elim (·.1.command) fun hf => State.commandOk_of_idle hf.1.idle

theorem HostMove.commandOk {s t : State} (hs : s.CommandOk) (h : HostMove s t) : t.CommandOk := by
  cases h with
  | writeReg r v => cases r <;> exact hs
  | start op hidle => simp [State.CommandOk, State.AtStart, State.start, State.clearForStart, State.latchAndEnter]
  | reservedWord w hidle => exact State.commandOk_of_idle rfl
  | settle r => unfold State.settle; split_ifs <;> exact hs
  | warmReset => exact State.commandOk_of_idle rfl
  | _ => exact hs

/-- Settles O51: the engine's steps keep the invariant phase by phase, a start begins at zero, and no other move reaches what it
is about. -/
theorem stepKeepsCommandOk : Obligations.StepKeepsCommandOk := fun _ _ hs h =>
  step_keeps (P := State.CommandOk) (fun _ _ hu => hu) (fun _ _ => engineTurn_keeps_commandOk)
    (fun _ _ => HostMove.commandOk) hs h

end Sys2Proof.Machine
end

section
/-! What follows from the invariants for a turn and for a run of the engine: the count of steps, the errors, the faults, the bytes
written, and what a warm reset may change (spec/20_memory.md section 2; spec/40_command.md R118, R128; spec/60_exceptions.md R253;
spec/70_reset_and_hazards.md R281, R282). -/

namespace Sys2Proof.Machine

/-! ## The count of steps (spec/40_command.md R118, R128) -/

/-- An error keeps DONE as it was. -/
theorem State.Raises.done_eq {s t : State} (h : s.Raises t) : t.done = s.done := by
  obtain ⟨u, e, info, hu, -, rfl⟩ := h
  exact (State.done_of_fixed hu.fixed :)

/-- A command that runs on has neither flag changed. -/
theorem State.Proceeds.flags_eq {s t : State} (h : s.Proceeds t) (ht : t.phase ≠ .idle) : t.done = s.done ∧ t.err = s.err := by
  rcases h with ⟨hu, -⟩ | ⟨u, -, rfl | rfl⟩
  · exact ⟨State.done_of_fixed hu.fixed, State.err_of_fixed hu.fixed⟩
  · exact absurd rfl ht
  · exact absurd rfl ht

/-- A step without an error keeps ERR as it was. -/
theorem State.Proceeds.err_eq {s t : State} (h : s.Proceeds t) : t.err = s.err := by
  rcases h with ⟨hu, -⟩ | ⟨u, hu, rfl | rfl⟩ <;> exact (State.err_of_fixed hu.fixed :)

/-- Settles O52: an advancing step has one step less left, and DONE comes only with the last. -/
theorem engineStepsCountDown : Obligations.EngineStepsCountDown := by
  intro s t hs hok hdone h
  rw [State.busy_iff] at hs
  rw [State.busy_iff]
  rcases engineTurn_advances_or_fails hok hs h with ⟨hadv, hpro⟩ | ⟨hf, hraise⟩
  · refine ⟨hadv.count, fun ht => hadv.last ?_⟩
    by_contra hrun
    rw [(hpro.flags_eq hrun).1, hdone] at ht
    cases ht
  · refine ⟨fun ht => absurd hf.idle ht, fun ht => ?_⟩
    rw [hraise.done_eq, hdone] at ht
    cases ht

theorem State.stepsLeft_pos {s : State} (h : s.phase ≠ .idle) : 0 < s.stepsLeft := by
  unfold State.stepsLeft
  cases hphase : s.phase with
  | idle => exact absurd hphase h
  | pre => cases s.lop <;> simp only <;> omega
  | _ => exact Nat.succ_pos _

theorem State.stepsLeft_idle {s : State} (h : s.phase = .idle) : s.stepsLeft = 0 := by simp only [State.stepsLeft, h]

/-- Any number of turns from the count on leaves the engine idle. -/
theorem engineRun_ends {n : Nat} {s t : State} (hok : s.CommandOk) (hn : s.stepsLeft ≤ n) (h : engineRun n s = .next t) :
    t.phase = .idle := by
  induction n generalizing s with
  | zero =>
    cases h
    by_contra hbusy
    exact absurd (State.stepsLeft_pos hbusy) (by omega)
  | succ n ih =>
    by_cases hidle : s.phase = .idle
    · rw [engineRun_idle (s.not_busy_iff.2 hidle)] at h
      cases h
      exact hidle
    · cases hturn : engineTurn s with
      | next u =>
        rw [engineRun_succ hturn] at h
        refine ih (engineTurn_keeps_commandOk hok hturn) ?_ h
        rcases engineTurn_advances_or_fails hok hidle hturn with ⟨hadv, -⟩ | ⟨hf, -⟩
        · by_cases hu : u.phase = .idle
          · rw [State.stepsLeft_idle hu]; exact Nat.zero_le _
          · have := hadv.count hu
            omega
        · rw [State.stepsLeft_idle hf.idle]; exact Nat.zero_le _
      | fault r => simp [engineRun, hturn] at h
      | refused r => simp [engineRun, hturn] at h

/-- Settles O53: each of the turns takes one from the count or ends the command. -/
theorem everyCommandEnds : Obligations.EveryCommandEnds := fun _ _ hok h => engineRun_ends hok le_rfl h

/-! ## Errors (spec/60_exceptions.md R253) -/

/-- Settles O56: only a raise sets ERR, and the codes of the phases' raises are those of the table. -/
theorem engineErrorsFollowTheTable : Obligations.EngineErrorsFollowTheTable := by
  intro s t hs hok herr h ht
  rw [State.busy_iff] at hs
  rcases engineTurn_advances_or_fails hok hs h with ⟨-, hpro⟩ | ⟨hf, -⟩
  · rw [hpro.err_eq, herr] at ht
    cases ht
  · have hcode := hf.code
    unfold Lop.MayRaise at hcode
    exact hcode

/-- Settles O38: EDSTOVF is raised only where DST_CAP is below the longest output, which a large enough window is not. -/
theorem ampleRleWindowNeverOverflows : Obligations.AmpleRleWindowNeverOverflows := by
  intro s t hs hok hop hcode hcap h
  rw [State.busy_iff] at hs
  rcases engineTurn_advances_or_fails hok hs h with ⟨-, hpro⟩ | ⟨hf, -⟩
  · have hkept : t.errCode = .none := by
      rcases hpro with ⟨hu, -⟩ | ⟨u, -, rfl | rfl⟩
      · rw [State.errCode_of_fixed hu.fixed, hcode]
      · rfl
      · rfl
    rw [hkept]
    exact ErrCode.noConfusion
  · intro hovf
    have hlt := hf.overflow hovf
    rw [hop] at hlt
    exact absurd hcap (Nat.not_le.2 hlt)

/-! ## Faults (spec/20_memory.md R62, spec/70_reset_and_hazards.md R284) -/

/-- The memory after a turn comes from writes at writable addresses. -/
theorem engineTurn_writes {s t : State} (h : engineTurn s = .next t) : Memory.Writes s.Writable s.mem t.mem := by
  by_cases hidle : s.phase = .idle
  · rw [engineTurn_idle (s.not_busy_iff.2 hidle)] at h
    cases h
    exact .refl
  · rcases engineTurn_proceeds_or_raises hidle h with (⟨hu, -⟩ | ⟨u, hu, rfl | rfl⟩) | ⟨u, e, info, hu, -, rfl⟩ <;>
      exact hu.mem

/-- A turn of a running command keeps its sources written. -/
theorem engineTurn_keeps_sourcesWritten {s t : State} (hs : s.phase ≠ .idle) (hsrc : s.SourcesWritten)
    (h : engineTurn s = .next t) : t.SourcesWritten := by
  obtain ⟨hlatched, hlop⟩ := engineTurn_keeps_latched hs h
  intro w hw hread a ha
  rw [hlatched, hlop] at hw
  exact (engineTurn_writes h).read_ne_none (hsrc w hw hread a ha)

theorem engineTurn_fault {s : State} {r : Fault} (hok : s.CommandOk) (h : engineTurn s = .fault r) : s.LacksSource r := by
  rcases engineTurn_cases s with ⟨-, h'⟩ | ⟨-, -, h'⟩ | ⟨hbusy, -, h'⟩
  · rw [h'] at h; cases h
  · rw [h'] at h; cases h
  · exact (hok.phaseStep hbusy).of_fault (h' ▸ h)

theorem engineTurn_ne_refused (s : State) (r : Refusal) : engineTurn s ≠ .refused r := by
  unfold engineTurn
  split_ifs
  · exact Progress.outcome_ne_refused _ r
  · exact nofun

/-- Where its sources are written a running command's turn has a next state. -/
theorem engineTurn_exists_next {s : State} (hok : s.CommandOk) (hsrc : s.SourcesWritten) : ∃ t, engineTurn s = .next t := by
  cases h : engineTurn s with
  | next t => exact ⟨t, rfl⟩
  | fault r =>
    obtain ⟨a, -, hnone, w, hw, hread, ha⟩ := engineTurn_fault hok h
    exact absurd hnone (hsrc w hw hread a ha)
  | refused r => exact absurd h (engineTurn_ne_refused s r)

/-- Settles O54: the guard never fires and a read stops only at an unwritten source byte, which writes never make. -/
theorem engineFaultsOnlyOnUnwrittenSources : Obligations.EngineFaultsOnlyOnUnwrittenSources := by
  refine ⟨fun s r hok h => engineTurn_fault hok h, fun s hs hok hsrc => ?_⟩
  obtain ⟨t, ht⟩ := engineTurn_exists_next hok hsrc
  exact ⟨t, ht, fun _ => engineTurn_keeps_sourcesWritten (s.busy_iff.1 hs) hsrc ht⟩

/-! ## The bytes written (spec/20_memory.md R63) -/

theorem State.CommandOk.inCaps {s : State} (h : s.CommandOk) (hbusy : s.phase ≠ .idle) : s.InCaps := by
  obtain ⟨hpre, hrepack, hhdr, hpal, hrun⟩ := h
  have hrle (hok : s.RleOk) : s.InCaps := by
    obtain ⟨-, -, hout, hidx, -⟩ := hok
    exact ⟨hout, by simp [hidx]⟩
  cases hphase : s.phase with
  | idle => exact absurd hphase hbusy
  | pre =>
    obtain ⟨-, hout, hidx, -⟩ := hpre hphase
    exact ⟨by simp [hout], by simp [hidx]⟩
  | repack =>
    have hc := (s.repackOk_iff.1 (hrepack hphase)).1
    exact ⟨hc.outCount_le, hc.idxCount_le⟩
  | rleHdr => exact hrle (hhdr hphase).1
  | rlePal => exact hrle (hpal hphase).1
  | rleRun => exact hrle (hrun hphase).1

/-- Settles O55: a writable byte lies in an output window while the counters are within the capacities. -/
theorem engineWritesOnlyItsOutputWindows : Obligations.EngineWritesOnlyItsOutputWindows := by
  intro s t a hok h hout
  by_cases hidle : s.phase = .idle
  · rw [engineTurn_idle (s.not_busy_iff.2 hidle)] at h
    cases h
    rfl
  · refine (engineTurn_writes h).read_eq fun ⟨_, hwin⟩ => ?_
    obtain ⟨w, hw, ha⟩ := hwin (hok.inCaps hidle)
    rw [hout w hw] at ha
    cases ha

/-! ## A warm reset (spec/70_reset_and_hazards.md R281, R282; spec/93_implementation_defined.md I13) -/

/-- What holds from the reset of a running command to where it would have come to rest: the same command, and its output counters
within the longest output. -/
structure State.Outrun (s t : State) : Prop where
  lop : t.lop = s.lop
  latched : t.latched = s.latched
  command : t.CommandOk
  bounded : t.OutputBounded

theorem State.Outrun.engineTurn {s t u : State} (h : s.Outrun t) (hbusy : t.phase ≠ .idle)
    (hturn : engineTurn t = .next u) : s.Outrun u := by
  obtain ⟨hlatched, hlop⟩ := engineTurn_keeps_latched hbusy hturn
  refine ⟨hlop.trans h.lop, hlatched.trans h.latched, engineTurn_keeps_commandOk h.command hturn, ?_⟩
  exact (engineTurn_advances_or_fails h.command hbusy hturn).elim (·.1.bounded) (·.1.bounded)

/-- A running command left to itself never outgrows its longest output. -/
theorem State.CommandOk.runOut {s : State} (h : s.CommandOk) (hbusy : s.phase ≠ .idle) (n : Nat) :
    s.Outrun (State.runOut n { s with abortReq := false }) := by
  have hb := h.bounded hbusy
  exact State.runOut_induction (P := s.Outrun) (fun t u ht hu => hu.engineTurn (t.busy_iff.1 ht)) n
    ⟨rfl, rfl, h, ⟨hb.out, hb.idx⟩⟩

/-- A byte a running command could have written lies among the first bytes of DST, within the longest output, or of IDX, within
the tiles. -/
theorem State.CommandOk.couldWrite {s : State} (h : s.CommandOk) {a : Nat}
    (ha : s.couldWrite.any (·.contains a) = true) :
    (s.latched.dstBase.toNat ≤ a ∧ a < s.latched.dstBase.toNat + maxOutput s.lop s.latched)
      ∨ (s.lop = .repackTile ∧ s.latched.idxEn = true ∧ s.latched.idxBase.toNat ≤ a
          ∧ a < s.latched.idxBase.toNat + s.latched.srcLen.toNat / s.latched.tileb) := by
  obtain ⟨w, hw, hin, hlt⟩ := State.mem_couldWrite ha
  have hbusy : s.phase ≠ .idle := by
    rintro hidle
    simp [State.runningOutputs, s.not_busy_iff.2 hidle] at hw
  obtain ⟨hlop, hlatched, -, hout, hidx⟩ := h.runOut hbusy s.stepsLeft
  rw [hlop, hlatched] at hout
  rw [hlatched] at hidx
  rw [State.runningOutputs, if_pos (s.busy_iff.2 hbusy)] at hw
  have hge := ((Window.contains_iff w a).1 hin).1
  have hdst (hw : w = s.latched.dstWindow) : s.latched.dstBase.toNat ≤ a
      ∧ a < s.latched.dstBase.toNat + maxOutput s.lop s.latched := by
    subst hw
    exact ⟨hge, hlt.trans_le (Nat.add_le_add_left hout _)⟩
  cases hop : s.lop with
  | repackLin =>
    rw [hop] at hw hdst
    exact .inl (hdst (List.mem_singleton.1 hw))
  | rleEnc =>
    rw [hop, outputWindows_rleEnc] at hw
    rw [hop] at hdst
    exact .inl (hdst (List.mem_singleton.1 hw))
  | repackTile =>
    rw [hop, outputWindows_repackTile] at hw
    rw [hop] at hdst
    by_cases hen : s.latched.idxEn = true
    · rw [if_pos hen, List.mem_cons, List.mem_singleton] at hw
      rcases hw with hw | hw
      · exact .inl (hdst hw)
      · subst hw
        exact .inr ⟨rfl, hen, hge, hlt.trans_le (Nat.add_le_add_left hidx _)⟩
    · rw [if_neg hen, List.mem_singleton] at hw
      exact .inl (hdst hw)

/-- With no byte the command could have written, a reset keeps memory as the list it is. -/
theorem State.warmReset_mem_of_forall {s : State} (h : ∀ a, s.couldWrite.any (·.contains a) = false) :
    s.warmReset.mem = s.mem := by
  cases hb : s.busy with
  | false => exact State.warmReset_mem_idle hb
  | true =>
    have hmem : s.warmReset.mem = s.mem.leaveResidue s.couldWrite s.draws := by simp [State.warmReset, hb]
    rw [hmem, Memory.leaveResidue]
    simp only [h, Bool.false_eq_true, if_false, List.map_id']

/-- A command whose preflight fails, left to itself, ends with nothing written. -/
theorem State.runOut_preflight_fails {s : State} (hat : s.AtStart) (hphase : s.phase = .pre)
    (hpre : preflightError s.memSize s.lop s.latched ≠ none) (n : Nat) (id : WindowId) :
    (State.runOut n { s with abortReq := false }).writtenTo id = 0 := by
  obtain ⟨-, hout, hidx, -⟩ := hat
  obtain ⟨⟨e, info⟩, herr⟩ := Option.ne_none_iff_exists'.1 hpre
  have hzero (t : State) (ho : t.outCount = 0) (hi : t.idxCount = 0) : t.writtenTo id = 0 := by
    cases id <;> simp [State.writtenTo, ho, hi]
  cases n with
  | zero => exact hzero _ hout hidx
  | succ n =>
    have hturn := engineTurn_preflight_fails (s := { s with abortReq := false }) hphase rfl herr
    rw [State.runOut_next (by simp [State.busy, hphase]) hturn, State.runOut_idle (by simp [State.busy])]
    exact hzero _ hout hidx

theorem State.couldWrite_preflight_fails {s : State} (hat : s.AtStart) (hphase : s.phase = .pre)
    (hpre : preflightError s.memSize s.lop s.latched ≠ none) (a : Nat) : s.couldWrite.any (·.contains a) = false := by
  by_contra hcould
  obtain ⟨w, -, hin, hlt⟩ := State.mem_couldWrite (Bool.not_eq_false _ ▸ hcould)
  rw [State.runOut_preflight_fails hat hphase hpre] at hlt
  have hge := ((Window.contains_iff w a).1 hin).1
  omega

/-- A command with no output at all has read no tile either. -/
theorem tiles_eq_zero_of_maxOutput {op : Lop} {c : CfgRegs} (h : maxOutput op c = 0) : c.srcLen.toNat / c.tileb = 0 := by
  have hzero : c.srcLen.toNat = 0 := by
    by_cases hop : op = .rleEnc
    · subst hop
      simp only [maxOutput] at h
      omega
    · by_contra hpos
      have hle : 1 ≤ maxOutput op c := (le_maxOutput_iff hop c 1).2 (by
        have := Nat.mul_pos (Nat.pos_of_ne_zero hpos) c.pIn_pos
        omega)
      omega
  rw [hzero, Nat.zero_div]

/-- With every flag clear and the engine idle STATUS reads 0 (spec/10_state.md R27). -/
theorem State.statusWord_eq_zero {s : State} (hphase : s.phase = .idle) (hdone : s.done = false) (herr : s.err = false)
    (hrej : s.rej = false) (hcode : s.errCode = .none) (hpad : s.padded = false) : s.statusWord = 0 := by
  rw [State.statusWord, State.busy, hphase, hdone, herr, hrej, hcode, hpad]
  decide

/-- Every register reads its reset value after a warm reset (R281). -/
theorem regValue_warmReset (r : Reg) (s : State) : regValue r s.warmReset = if r = .ident then 0x00000001#32 else 0 := by
  cases r with
  | status => exact State.statusWord_eq_zero rfl rfl rfl rfl rfl rfl
  | _ => rfl

/-- Settles O47: memory changes only at bytes the ended command could have written, which the invariant bounds. -/
theorem warmResetKeepsMemory : Obligations.WarmResetKeepsMemory := by
  intro s
  refine ⟨fun r => regValue_warmReset r s, rfl, rfl, rfl, ⟨rfl, rfl, rfl, rfl, rfl, rfl, rfl, rfl, rfl, rfl, rfl, rfl, rfl⟩,
    rfl, State.warmReset_mem_idle, fun hok hphase hpre => ?_, fun hok hmax => ?_, fun a => ?_, fun a hout => ?_,
    fun a hok hdst hidx => ?_⟩
  · exact State.warmReset_mem_of_forall (State.couldWrite_preflight_fails (hok.1 hphase) hphase hpre)
  · refine State.warmReset_mem_of_forall fun a => ?_
    by_contra hcould
    rcases hok.couldWrite (Bool.not_eq_false _ ▸ hcould) with ⟨hge, hlt⟩ | ⟨-, -, hge, hlt⟩
    · omega
    · rw [tiles_eq_zero_of_maxOutput hmax] at hlt
      omega
  · rw [State.warmReset_read, Option.map_eq_none_iff]
  · refine State.warmReset_read_of_not ?_
    by_contra hcould
    obtain ⟨w, hw, hin, -⟩ := State.mem_couldWrite (Bool.not_eq_false _ ▸ hcould)
    unfold State.runningOutputs at hw
    split_ifs at hw
    · rw [hout w hw] at hin
      cases hin
    · cases hw
  · refine State.warmReset_read_of_not ?_
    by_contra hcould
    exact (hok.couldWrite (Bool.not_eq_false _ ▸ hcould)).elim hdst hidx

end Sys2Proof.Machine
end

section
/-! The host port and power-up: who moves in a step, register reads, the STATUS word, IRQ, byte stores and loads, and the state after
power-up (spec/10_state.md section 2; spec/20_memory.md section 3; spec/40_command.md section 1; spec/60_exceptions.md section 3). -/

namespace Sys2Proof.Machine

/-! ## The step (spec/20_memory.md R77, spec/40_command.md R113, R118) -/

/-- Settles O1: the five words are those `encode` gives, which `decode` accepts. -/
theorem commandWordsDecode : Obligations.CommandWordsDecode :=
  have hword (i : Instr) : decode (encode i) = .ok i := (decode_eq_ok_iff _ i).2 rfl
  ⟨hword .nop, hword .repackLin, hword .repackTile, hword .rleEnc, hword .abort⟩

theorem step_cmdWrite {s : State} {w : Word} {i : Instr} {rest : List Event} (hl : s.agenda = cmdWrite w :: rest)
    (hw : decode w = .ok i) : step s = exec i (s.withAgenda rest) :=
  (step_eq_takeEvent hl).trans (issue_of_decode hw _)

theorem tableWord_toNat (w : Word) : tableWord 32 w.toNat = w := by
  rw [tableWord, Nat.mod_eq_of_lt w.isLt, BitVec.ofNat_toNat, BitVec.setWidth_eq]

/-- Settles O4: the pending CMD write is issued, and so is the one that `withFetchWord` places. -/
theorem stepRunsTheDecodedCommand : Obligations.StepRunsTheDecodedCommand := by
  refine ⟨fun s w i rest hl hw => step_cmdWrite hl hw, fun s w i hw => ?_⟩
  have hl : (s.withFetchWord 32 w.toNat).agenda = cmdWrite w :: s.agenda := by
    rw [State.withFetchWord, tableWord_toNat]
  exact step_cmdWrite hl hw

theorem hostWrite_misaligned {off : BitVec 8} (h : off.toNat % 4 ≠ 0) (v : Word) (s : State) :
    hostWrite off v s = .refused (.platformSubword off) := if_pos h

theorem hostRead_misaligned {off : BitVec 8} (h : off.toNat % 4 ≠ 0) (s : State) :
    hostRead off s = .refused (.platformSubword off) := if_pos h

/-- A poll while BUSY reads 1 leaves the wait event in front: the engine moves on the state as it was. -/
theorem step_waitIdle_busy {s : State} {rest : List Event} (hl : s.agenda = .waitIdle :: rest) (hb : s.phase ≠ .idle) :
    step s = engineTurn s := by
  have hagenda : (s.withAgenda rest).withAgenda (.waitIdle :: rest) = s := by
    rw [← hl]
    rfl
  rw [step_eq_takeEvent hl]
  exact (waitTurn_busy (s := s.withAgenda rest) hb).trans (congrArg engineTurn hagenda)

/-- Settles O5: one clause per kind of event. -/
theorem stepTakesTheNextEvent : Obligations.StepTakesTheNextEvent := by
  refine ⟨fun s hl => step_nil hl, fun s rest off a v b => ⟨fun hl => step_cons hl, fun hl _ => step_cons hl,
    fun hl _ => step_cons hl, fun hl => step_cons hl, fun hl => step_cons hl, fun hl h => ?_, fun hl h => ?_,
    fun hl => step_cons hl, fun hl hb => ?_, fun hl hb => ?_, fun hl => step_cons hl⟩⟩
  · exact (step_cons hl).trans (hostWrite_misaligned h v _)
  · exact (step_cons hl).trans (hostRead_misaligned h _)
  · exact step_waitIdle_busy hl (s.busy_iff.1 hb)
  · exact (step_cons hl).trans (waitTurn_idle (s := s.withAgenda rest) (s.not_busy_iff.1 hb))

/-- Settles O11: the turn is the engine step exactly while busy. -/
theorem engineMovesOnlyWhileBusy : Obligations.EngineMovesOnlyWhileBusy := fun s =>
  ⟨fun h => engineTurn_idle (s.not_busy_iff.2 h), fun h => engineTurn_busy (s.busy_iff.2 h), engineTurn_ne_refused s⟩

/-! ## STATUS and IRQ -/

theorem and_not_eq_ite (x y : Bool) : (x && !y) = if y = true then false else x := by cases x <;> cases y <;> rfl

theorem State.writeStatus_eq (v : Word) (s : State) : s.writeStatus v = { s with
    done := if v.getLsbD 1 = true then false else s.done
    err := if v.getLsbD 2 = true then false else s.err
    rej := if v.getLsbD 3 = true then false else s.rej } := by
  simp only [State.writeStatus, and_not_eq_ite]

/-- Settles O40: the write reaches STATUS, which keeps each flag but where the word has a 1. -/
theorem statusWriteClearsByOnes : Obligations.StatusWriteClearsByOnes := fun v s =>
  (hostWrite_offset (r := .status) nofun v s).trans (congrArg _ (s.writeStatus_eq v))

/-- The bits of STATUS from the lowest up: four flags, the four bits of the code, PADDED, and zeros (spec/10_state.md R27). -/
theorem State.getLsbD_statusWord (s : State) (i : Nat) : s.statusWord.getLsbD i =
    if i = 0 then s.busy else if i = 1 then s.done else if i = 2 then s.err else if i = 3 then s.rej
    else if i < 8 then s.errCode.bits.getLsbD (i - 4) else if i = 8 then s.padded else false := by
  unfold State.statusWord
  simp only [BitVec.getLsbD_append, BitVec.getLsbD_ofBool, BitVec.getLsbD_zero]
  rcases Nat.lt_or_ge i 8 with h | h
  · interval_cases i <;> simp
  · rcases Nat.eq_or_lt_of_le h with rfl | h
    · simp
    · simp [show ¬i < 1 by omega, show ¬i - 1 < 1 by omega, show ¬i - 1 - 1 < 1 by omega,
        show ¬i - 1 - 1 - 1 < 1 by omega, show ¬i - 1 - 1 - 1 - 1 < 4 by omega, show ¬i - 1 - 1 - 1 - 1 - 4 < 1 by omega,
        show i ≠ 0 by omega, show i ≠ 1 by omega, show i ≠ 2 by omega, show i ≠ 3 by omega, show ¬i < 8 by omega,
        show i ≠ 8 by omega]

theorem State.statusWord_errCode (s : State) : s.statusWord.extractLsb' 4 4 = s.errCode.bits := by
  refine BitVec.eq_of_getLsbD_eq fun i hi => ?_
  rw [BitVec.getLsbD_extractLsb', State.getLsbD_statusWord]
  simp [hi, show 4 + i ≠ 1 by omega, show 4 + i ≠ 2 by omega, show 4 + i ≠ 3 by omega, show 4 + i < 8 by omega]

theorem State.statusWord_reserved (s : State) : s.statusWord.extractLsb' 9 23 = 0#23 := by
  refine BitVec.eq_of_getLsbD_eq fun i hi => ?_
  rw [BitVec.getLsbD_extractLsb', State.getLsbD_statusWord]
  simp [show 9 + i ≠ 1 by omega, show 9 + i ≠ 2 by omega, show 9 + i ≠ 3 by omega, show ¬9 + i < 8 by omega,
    show 9 + i ≠ 8 by omega]

/-- Settles O41: the word bit by bit, and the nine codes. -/
theorem statusWordFields : Obligations.StatusWordFields := by
  intro s
  refine ⟨s.getLsbD_statusWord 0, s.getLsbD_statusWord 1, s.getLsbD_statusWord 2, s.getLsbD_statusWord 3, ?_,
    s.getLsbD_statusWord 8, s.statusWord_reserved⟩
  rw [s.statusWord_errCode]
  cases s.errCode <;> rfl

theorem State.irq_of_flags {s : State} (h : s.done = true ∨ s.err = true) : s.irq = s.regs.ctrl.getLsbD 10 := by
  have hflags : (s.done || s.err) = true := by simpa using h
  rw [State.irq, hflags, Bool.and_true]
  rfl

theorem State.irq_eq_false {s : State} (hdone : s.done = false) (herr : s.err = false) : s.irq = false := by
  rw [State.irq, hdone, herr, Bool.or_false, Bool.and_false]

theorem State.irq_settle (s : State) : s.settle.irq = s.irq := by unfold State.settle; split_ifs <;> rfl

/-- Settles O45: IRQ follows DONE, ERR and the register CTRL, which a read and a rejection leave alone. -/
theorem irqFollowsCompletion : Obligations.IrqFollowsCompletion := by
  intro s
  refine ⟨State.irq_of_flags (s := s.completeOk) (.inl rfl), fun e info => State.irq_of_flags (s := s.completeErr e info) (.inr rfl),
    State.irq_eq_false ?_ ?_, fun op => State.irq_eq_false rfl rfl, State.irq_eq_false rfl rfl, fun v => ?_, rfl,
    fun t off h => ?_⟩
  · rw [State.writeStatus_done, show (0x0000000E#32).getLsbD 1 = true by decide, Bool.not_true, Bool.and_false]
  · rw [State.writeStatus_err, show (0x0000000E#32).getLsbD 2 = true by decide, Bool.not_true, Bool.and_false]
  · have hbit : (v &&& ctrlMask).getLsbD 10 = v.getLsbD 10 := by
      rw [BitVec.getLsbD_and, show ctrlMask.getLsbD 10 = true by decide, Bool.and_true]
    show ((v &&& ctrlMask).getLsbD 10 && (s.done || s.err)) = _
    rw [hbit]
  · rcases hostRead_cases off s with h' | ⟨v, h'⟩ | ⟨v, h'⟩ | ⟨v, h'⟩ <;> rw [h] at h' <;> cases h'
    · exact s.irq_settle
    · rfl
    · rfl

/-! ## Register reads (spec/40_command.md R110) -/

theorem Reg.atOffset_offset (r : Reg) : Reg.atOffset (Reg.offset r) = some r := by cases r <;> rfl

theorem Reg.offset_aligned (r : Reg) : (Reg.offset r).toNat % 4 = 0 := by cases r <;> rfl

/-- No register stands at the reserved offsets 0x48 to 0xFC (spec/10_state.md R42). -/
theorem Reg.offset_lt (r : Reg) : (Reg.offset r).toNat < 0x48 := by cases r <;> decide

/-- The word a register read gives the host: the register's value, or a free value for a counter while BUSY = 1. -/
def State.readValue (r : Reg) (s : State) : Word :=
  if Reg.isCounter r && s.busy then Config.drawWord s.draws else regValue r s

/-- The state a register read leaves, but for its reply. -/
def State.readState (r : Reg) (s : State) : State :=
  if r = .status then s.settle else if Reg.isCounter r && s.busy then s.drawn else s

theorem hostRead_offset (r : Reg) (s : State) :
    hostRead (Reg.offset r) s = .next ((s.readState r).reply (.word (Reg.offset r) (s.readValue r))) := by
  unfold hostRead State.readState State.readValue
  rw [if_neg (not_not.2 (Reg.offset_aligned r)), Reg.atOffset_offset]
  cases r <;> cases hb : s.busy <;> rfl

theorem hostRead_reserved {off : BitVec 8} (haligned : off.toNat % 4 = 0) (h : Reg.atOffset off = none) (s : State) :
    hostRead off s = .next (s.reply (.word off 0)) := by
  unfold hostRead
  rw [if_neg (not_not.2 haligned), h]

theorem State.readState_unseen (r : Reg) (s : State) :
    (s.readState r).unseen = if Reg.offset r = 0x0C#8 ∧ s.busy = false then [] else s.unseen := by
  unfold State.readState State.settle
  cases r <;> cases hb : s.busy <;> simp [Reg.offset, Reg.isCounter]

theorem State.readState_frame (r : Reg) (s : State) (v : Word) :
    { (s.readState r).reply (.word (Reg.offset r) v) with replies := s.replies, draws := s.draws, unseen := s.unseen } = s := by
  unfold State.readState State.settle
  cases r <;> cases hb : s.busy <;> rfl

theorem State.readState_replies (r : Reg) (s : State) : (s.readState r).replies = s.replies := by
  unfold State.readState State.settle
  cases r <;> cases hb : s.busy <;> rfl

theorem Reg.offset_injective : Function.Injective Reg.offset := fun r r' h =>
  Option.some.inj <| (Reg.atOffset_offset r).symm.trans ((congrArg Reg.atOffset h).trans (Reg.atOffset_offset r'))

/-- What a register read at a word offset does, in the terms of the register there, if any. -/
theorem hostRead_aligned {off : BitVec 8} (haligned : off.toNat % 4 = 0) (s : State) :
    ∃ t v, hostRead off s = .next t ∧ t.replies = .word off v :: s.replies
      ∧ { t with replies := s.replies, draws := s.draws, unseen := s.unseen } = s
      ∧ (∀ r, off = Reg.offset r → v = s.readValue r ∧ t.draws = (s.readState r).draws)
      ∧ ((∀ r, off ≠ Reg.offset r) → v = 0)
      ∧ t.unseen = if off = 0x0C#8 ∧ s.busy = false then [] else s.unseen := by
  cases hr : Reg.atOffset off with
  | some r =>
    obtain rfl := Reg.offset_of_atOffset hr
    refine ⟨_, _, hostRead_offset r s, congrArg _ (s.readState_replies r), s.readState_frame r _, fun r' h => ?_,
      fun h => absurd rfl (h r), s.readState_unseen r⟩
    rw [Reg.offset_injective h]
    exact ⟨rfl, rfl⟩
  | none =>
    have hne (r : Reg) : off ≠ Reg.offset r := by
      rintro rfl
      rw [Reg.atOffset_offset] at hr
      cases hr
    exact ⟨_, _, hostRead_reserved haligned hr s, rfl, rfl, fun r h => absurd h (hne r), fun _ => rfl,
      (if_neg fun h => hne .status h.1).symm⟩

theorem State.readValue_counter_idle {r : Reg} {s : State} (hb : s.busy = false) : s.readValue r = regValue r s := by
  rw [State.readValue, hb, Bool.and_false, if_neg Bool.false_ne_true]

theorem State.read_counter_busy {r : Reg} {s : State} (hr : Reg.isCounter r = true) (hb : s.busy = true) :
    s.readValue r = Config.drawWord s.draws ∧ (s.readState r).draws = s.draws + 1 := by
  have hstatus : r ≠ .status := by
    rintro rfl
    cases hr
  rw [State.readValue, State.readState, hr, hb, if_neg hstatus]
  exact ⟨rfl, rfl⟩

/-- Settles O42: the value of the register at the offset, or 0 where there is none. -/
theorem registerReadsGiveTheValue : Obligations.RegisterReadsGiveTheValue := by
  intro off s haligned
  obtain ⟨t, v, hread, hreply, hframe, hreg, hnone, hunseen⟩ := hostRead_aligned haligned s
  have hval {r : Reg} (h : off = Reg.offset r) : v = s.readValue r := (hreg r h).1
  refine ⟨t, v, hread, hreply, hframe, hval (r := .ident), hval (r := .ctrl), hval (r := .cmd), hval (r := .status),
    hval (r := .srcBase), hval (r := .srcLen), hval (r := .dstBase), hval (r := .dstCap), hval (r := .idxBase),
    hval (r := .idxCap), hval (r := .palBase), hval (r := .palCount), hval (r := .magic), hval (r := .errInfo),
    fun hge => hnone fun r h => ?_, fun hb => ?_, fun hb hmem => ?_, hunseen⟩
  · exact absurd hge (Nat.not_le.2 (h ▸ Reg.offset_lt r))
  · have hcount {r : Reg} (h : off = Reg.offset r) : v = regValue r s := (hval h).trans (State.readValue_counter_idle hb)
    exact ⟨hcount (r := .inCount), hcount (r := .outCount), hcount (r := .idxCount), hcount (r := .tileCount)⟩
  · have hdraw {r : Reg} (hr : Reg.isCounter r = true) (h : off = Reg.offset r) :
        v = Config.drawWord s.draws ∧ t.draws = s.draws + 1 := by
      obtain ⟨hv, hd⟩ := hreg r h
      obtain ⟨hv', hd'⟩ := State.read_counter_busy hr hb
      exact ⟨hv.trans hv', hd.trans hd'⟩
    simp only [List.mem_cons, List.not_mem_nil, or_false] at hmem
    rcases hmem with h | h | h | h
    · exact hdraw (r := .inCount) rfl h
    · exact hdraw (r := .outCount) rfl h
    · exact hdraw (r := .idxCount) rfl h
    · exact hdraw (r := .tileCount) rfl h

/-! ## Byte stores and loads (spec/20_memory.md R64 to R66) -/

theorem hostStore_outside {a : Word} {s : State} (ha : s.memSize ≤ a.toNat) (v : Byte) : hostStore a v s = .next s :=
  if_pos ha

theorem hostLoad_outside {a : Word} {s : State} (ha : s.memSize ≤ a.toNat) : hostLoad a s = .next s := if_pos ha

theorem State.runningWindows_any_iff (s : State) (a : Nat) : s.runningWindows.any (·.contains a) = true ↔
    s.busy = true ∧ ∃ w ∈ activeWindows s.lop s.latched, w.contains a = true := by
  unfold State.runningWindows
  split_ifs with hb <;> simp [hb]

/-- Settles O44: outside the active windows the byte is stored; inside one, or past MEM_SIZE, it is not. -/
theorem hostStoresWriteOneByte : Obligations.HostStoresWriteOneByte := by
  intro a v s
  refine ⟨fun ha => hostStore_outside ha v, fun ha hout => ?_, fun ha hb hin => ?_⟩
  · have hnot : ¬s.runningWindows.any (·.contains a.toNat) = true := by
      rw [State.runningWindows_any_iff]
      rintro ⟨hb, w, hw, hin⟩
      rw [hout hb w hw] at hin
      cases hin
    refine ⟨s.store a.toNat v, ?_, s.read_store_same _ v, fun b hb => s.read_store_ne hb v, rfl⟩
    rw [hostStore, if_neg (Nat.not_le.2 ha), if_neg hnot]
  · rw [hostStore, if_neg (Nat.not_le.2 ha), if_pos ((s.runningWindows_any_iff _).2 ⟨hb, hin⟩)]

theorem State.outputOpen_iff (s : State) (a : Nat) : s.outputOpen a = true ↔
    (s.busy = true ∧ ∃ w ∈ outputWindows s.lop s.latched, w.contains a = true) ∨ ∃ w ∈ s.unseen, w.contains a = true := by
  unfold State.outputOpen State.runningOutputs
  split_ifs with hb <;> simp [hb]

/-- A byte that is unwritten, or an output not yet seen complete, reads as a free value (R64). -/
theorem hostLoad_draws {a : Word} {s : State} (ha : a.toNat < s.memSize)
    (h : s.mem.read a.toNat = none ∨ s.outputOpen a.toNat = true) :
    hostLoad a s = .next (s.drawn.reply (.byte a (Config.drawByte s.draws))) := by
  rw [hostLoad, if_neg (Nat.not_le.2 ha)]
  split_ifs with hopen
  · rfl
  · rw [h.resolve_right hopen]

theorem hostLoad_reads {a : Word} {b : Byte} {s : State} (ha : a.toNat < s.memSize) (hb : s.mem.read a.toNat = some b)
    (h : s.outputOpen a.toNat = false) : hostLoad a s = .next (s.reply (.byte a b)) := by
  rw [hostLoad, if_neg (Nat.not_le.2 ha), if_neg (by simp [h]), hb]

/-- Settles O43: a free value for an unwritten or unsettled byte, else the byte. -/
theorem hostLoadsReadWrittenBytes : Obligations.HostLoadsReadWrittenBytes := by
  intro a s
  refine ⟨hostLoad_outside, fun ha h => ?_, fun ha b hb hunseen hout => ?_⟩
  · exact hostLoad_draws ha (h.imp_right fun hw => (s.outputOpen_iff _).2 (.inl hw))
  · refine hostLoad_reads ha hb (Bool.eq_false_iff.2 fun hopen => ?_)
    rcases (s.outputOpen_iff _).1 hopen with ⟨hbusy, w, hw, hin⟩ | ⟨w, hw, hin⟩
    · rw [hout hbusy w hw] at hin
      cases hin
    · rw [hunseen w hw] at hin
      cases hin

/-! ## Power-up (spec/70_reset_and_hazards.md R281) -/

theorem regValue_powerUp (n : Word) (r : Reg) :
    regValue r (State.powerUp n) = if r = .ident then 0x00000001#32 else 0 := by
  cases r with
  | status => exact State.statusWord_eq_zero rfl rfl rfl rfl rfl rfl
  | _ => rfl

/-- MEM_SIZE is from 1 to 2^32 in every state (spec/00_scope.md R6). -/
theorem State.memSize_le (s : State) : s.memSize ≤ 2 ^ 32 := s.memTop.isLt

theorem memSize_powerUp_ofNat {size : Nat} (hpos : 1 ≤ size) (hle : size ≤ 2 ^ 32) :
    (State.powerUp (BitVec.ofNat 32 (size - 1))).memSize = size := by
  show (BitVec.ofNat 32 (size - 1)).toNat + 1 = size
  rw [BitVec.toNat_ofNat, Nat.mod_eq_of_lt (by omega)]
  omega

/-- Settles O46. -/
theorem powerUpState : Obligations.PowerUpState :=
  ⟨regValue_powerUp, fun _ a => Memory.read_nil a,
    fun _ => ⟨rfl, rfl, ⟨rfl, rfl, rfl, rfl, rfl, rfl, rfl, rfl, rfl, rfl, rfl, rfl, rfl⟩, rfl, State.irq_eq_false rfl rfl⟩,
    fun s => ⟨Nat.succ_pos _, s.memSize_le⟩, fun _ hpos hle => ⟨_, memSize_powerUp_ofNat hpos hle⟩, _, rfl⟩

theorem State.invariants_powerUp (n : Word) :
    (State.powerUp n).MemoryOk ∧ (State.powerUp n).StatusOk ∧ (State.powerUp n).CommandOk := by
  refine ⟨⟨List.Pairwise.nil, nofun⟩, ?_, State.commandOk_of_idle rfl⟩
  have hzero : CfgRegs.zero.ReservedZero := by decide
  exact ⟨hzero, hzero, by simp [State.powerUp, State.busy]⟩

/-- Settles O48: no byte is written, every flag is clear and no command runs. -/
theorem powerUpMeetsTheInvariants : Obligations.PowerUpMeetsTheInvariants :=
  ⟨State.invariants_powerUp, State.invariants_powerUp _⟩

end Sys2Proof.Machine
end

section
/-! The steps of the phases one by one, with their exact next states (spec/41_repack.md sections 4 to 6; spec/42_rle.md sections 3
and 4; spec/60_exceptions.md R255). -/

namespace Sys2Proof.Machine

/-! ## Entering the first phase (spec/42_rle.md R211) -/

theorem afterHdr_eq_ite (c : CfgRegs) :
    afterHdr c = if c.palEn = true ∧ 0 < c.palCount.toNat then .rlePal else .rleRun := by simp [afterHdr]

/-- Settles O16: RLE_ENC has no check of its own, so with the windows in order preflight passes. -/
theorem rleEncEntersItsFirstPhase : Obligations.RleEncEntersItsFirstPhase := by
  intro s hp ha hop hws
  have hok : preflightError s.memSize s.lop s.latched = none := by
    rw [preflightError_of_windowsOk hws, hop]
    rfl
  have hphase : firstPhase s.lop s.latched = if s.latched.hdrEn then .rleHdr else afterHdr s.latched := by
    rw [hop]
    rfl
  rw [engineTurn_preflight_passes hp ha hok, hphase, afterHdr_eq_ite]
  refine ⟨fun h => ?_, fun h hen hcount => ?_, fun h hnone => ?_⟩
  · rw [if_pos h]
  · rw [if_neg (by simp [h]), if_pos ⟨hen, hcount⟩]
  · rw [if_neg (by simp [h]), if_neg]
    rintro ⟨hen, hcount⟩
    rcases hnone with hen' | hzero
    · rw [hen] at hen'
      cases hen'
    · rw [hzero] at hcount
      exact absurd hcount (Nat.lt_irrefl 0)

/-! ## The tile-address decoder along a row (spec/41_repack.md R166, R169) -/

theorem tileOffset_succ {c : CfgRegs} {i : Nat} (n : Nat) (h : (i + 1) % c.twb ≠ 0) :
    tileOffset c n (i + 1) = tileOffset c n i + 1 := by
  have hdiv : (i + 1) / c.twb = i / c.twb := by
    rw [Nat.succ_div, if_neg fun hd => h (Nat.mod_eq_zero_of_dvd hd), Nat.add_zero]
  have hmod : (i + 1) % c.twb = i % c.twb + 1 := by
    have hnext := Nat.div_add_mod (i + 1) c.twb
    have hthis := Nat.div_add_mod i c.twb
    rw [hdiv] at hnext
    omega
  rw [tileOffset, tileOffset, hdiv, hmod]
  omega

/-- With one tile in a row the tiled order is the linear one. -/
theorem tileOffset_single {c : CfgRegs} (h : c.mapw = 1) (n i : Nat) : tileOffset c n i = n * c.tileb + i := by
  rw [tileOffset, CfgRegs.rowb, h, c.tileb_eq, Nat.div_one, Nat.mod_one, Nat.one_mul, Nat.zero_mul, Nat.zero_add, Nat.add_mul,
    Nat.mul_assoc, Nat.add_assoc, Nat.div_add_mod']

/-- Settles O24. -/
theorem tileOffsetsRunAlongRows : Obligations.TileOffsetsRunAlongRows := fun _ n i =>
  ⟨tileOffset_succ n, fun h _ => tileOffset_single h n i⟩

/-! ## The repack step (spec/41_repack.md R163) -/

theorem engineTurn_repack {s : State} (hp : s.phase = .repack) (ha : s.abortReq = false) :
    engineTurn s = (stepRepack s).outcome := by
  rw [engineTurn_phase (by simp [hp]) ha, phaseStep, hp]

/-- With pixels in IN_SR the turn moves one. -/
theorem engineTurn_pixel {s : State} (hp : s.phase = .repack) (ha : s.abortReq = false) (hleft : s.inLeft ≠ 0) :
    engineTurn s = (pixelStep s).outcome := by
  rw [engineTurn_repack hp ha, stepRepack, if_neg hleft]

/-- With none and source left it fetches a byte first. -/
theorem engineTurn_fetch {s : State} (hp : s.phase = .repack) (ha : s.abortReq = false) (hleft : s.inLeft = 0)
    (hmore : s.inCount ≠ s.latched.srcLen) : engineTurn s = ((fetchByte s).andThen pixelStep).outcome := by
  rw [engineTurn_repack hp ha, stepRepack, if_pos hleft, if_neg hmore]

theorem pixelStep_part {s : State} (h : s.accN + 1 ≠ s.latched.pOut) : pixelStep s = .go s.movePixel := if_neg h

theorem pixelStep_full {s : State} (h : s.accN + 1 = s.latched.pOut) (hfull : s.outCount = s.latched.dstCap) :
    pixelStep s = .ended (s.movePixel.completeErr .edstovf s.latched.dstCap) := by
  rw [pixelStep, if_pos (show s.movePixel.accN = s.latched.pOut from h),
    dstWrite_full (s := s.movePixel) hfull, Progress.ended_andThen, State.movePixel_outCount, hfull]

theorem pixelStep_byte {s : State} (h : s.accN + 1 = s.latched.pOut) (hroom : s.outCount ≠ s.latched.dstCap)
    (haddr : s.dstAddr < s.memSize) : pixelStep s = .go s.byteDone := by
  rw [pixelStep, if_pos (show s.movePixel.accN = s.latched.pOut from h),
    dstWrite_eq (s := s.movePixel) hroom haddr, Progress.go_andThen]
  rfl

theorem readOffset_eq_ite (op : Lop) (c : CfgRegs) (k : Nat) :
    readOffset op c k = if op = .repackTile then tileOffset c (k / c.tileb) (k % c.tileb) else k := by cases op <;> rfl

/-- The palette index is the high nibble (spec/41_repack.md R161). -/
theorem paletteIndex_eq (b : Byte) : paletteIndex b = b >>> 4 := by
  refine BitVec.eq_of_toNat_eq ?_
  rw [paletteIndex, BitVec.toNat_setWidth, BitVec.extractLsb'_toNat, BitVec.toNat_ushiftRight, Nat.shiftRight_eq_div_pow]
  omega

section Fetch

variable {s : State} {b : Byte}

theorem fetchByte_truncated (hop : s.lop = .repackTile)
    (hout : s.latched.srcLen.toNat ≤ readOffset s.lop s.latched s.inCount.toNat) :
    fetchByte s = .ended (s.completeErr .etrunc (BitVec.ofNat 32 (readOffset s.lop s.latched s.inCount.toNat))) :=
  if_pos ⟨hop, hout⟩

variable (hin : s.lop = .repackTile → readOffset s.lop s.latched s.inCount.toNat < s.latched.srcLen.toNat)
  (haddr : s.srcAddr < s.memSize) (hb : s.mem.read s.srcAddr = some b)

include hin haddr hb

/-- A fetch that reads its byte, with the side channel still to write. -/
theorem fetchByte_of_read : fetchByte s = (if s.startsTile then idxWrite (paletteIndex b) s.countIn
    else .go s.countIn).andThen fun t => .go (t.loadByte b) := by
  rw [fetchByte, if_neg fun h => absurd (hin h.1) (Nat.not_lt.2 h.2)]
  exact engineRead_eq haddr hb _

theorem fetchByte_plain (hst : s.startsTile = false) : fetchByte s = .go (s.countIn.loadByte b) := by
  rw [fetchByte_of_read hin haddr hb, if_neg (by simp [hst])]
  rfl

theorem fetchByte_side (hst : s.startsTile = true) (hroom : s.idxCount ≠ s.latched.idxCap) (hidx : s.idxAddr < s.memSize) :
    fetchByte s = .go ((s.countIn.store s.idxAddr (paletteIndex b)).countIdx.loadByte b) := by
  rw [fetchByte_of_read hin haddr hb, if_pos hst, idxWrite_eq (s := s.countIn) hroom hidx]
  rfl

theorem fetchByte_side_full (hst : s.startsTile = true) (hfull : s.idxCount = s.latched.idxCap) :
    fetchByte s = .ended (s.countIn.completeErr .eidxovf s.latched.idxCap) := by
  rw [fetchByte_of_read hin haddr hb, if_pos hst, idxWrite_full (s := s.countIn) hfull, Progress.ended_andThen,
    State.countIn_idxCount, hfull]

end Fetch

/-- Settles O25: the pixel without a completed byte, with one, and without room for it; then the fetch, which leaves what a step
with the byte's pixels in IN_SR starts from. -/
theorem repackStepMovesOnePixel : Obligations.RepackStepMovesOnePixel := by
  intro s hp ha
  refine ⟨fun hleft hpart => ?_, fun hleft hlast hroom haddr => ?_, fun hleft hlast hfull => ?_,
    fun off hoff hleft hmore => ?_⟩
  · rw [engineTurn_pixel hp ha hleft, pixelStep_part hpart]
    rfl
  · refine ⟨s.byteDone, ?_, ?_, fun a hne => ?_, ?_⟩
    · rw [engineTurn_pixel hp ha hleft, pixelStep_byte hlast hroom haddr]
      rfl
    · rw [State.byteDone_eq]
      exact Memory.read_write_same _ _ _
    · rw [State.byteDone_eq]
      exact Memory.read_write_ne _ _ hne
    · rw [State.byteDone_eq]
  · rw [engineTurn_pixel hp ha hleft, pixelStep_full hlast hfull]
    rfl
  · rw [← readOffset_eq_ite] at hoff
    subst hoff
    rw [engineTurn_fetch hp ha hleft hmore]
    refine ⟨fun hop hout => ?_, fun b hin haddr hb => ⟨fun hst => ?_, fun hop hfirst hen hroom hidx => ?_⟩⟩
    · rw [fetchByte_truncated hop hout]
      rfl
    · rw [← State.startsTile_iff, Bool.not_eq_true] at hst
      rw [fetchByte_plain hin haddr hb hst]
      exact (engineTurn_pixel (s := s.countIn.loadByte b) hp ha s.latched.pIn_pos.ne').symm
    · refine ⟨s.mem.write s.idxAddr (paletteIndex b), ?_, fun a hne => Memory.read_write_ne _ _ hne, ?_⟩
      · rw [Memory.read_write_same, paletteIndex_eq]
      · rw [fetchByte_side hin haddr hb (s.startsTile_iff.2 ⟨hop, hfirst, hen⟩) hroom hidx]
        exact (engineTurn_pixel (s := (s.countIn.store s.idxAddr (paletteIndex b)).countIdx.loadByte b) hp ha
          s.latched.pIn_pos.ne').symm

/-- Settles O26: the side channel's raise comes after IN_COUNT and before the byte is loaded. -/
theorem indexOverflowCountsTheByteOnly : Obligations.IndexOverflowCountsTheByteOnly := by
  intro s b hp ha hop hen hleft hmore hfirst hfull hin haddr hb
  have hoff : readOffset s.lop s.latched s.inCount.toNat
      = tileOffset s.latched (s.inCount.toNat / s.latched.tileb) 0 := by
    rw [readOffset_eq_ite, if_pos hop, hfirst]
  have hsrc : s.srcAddr = s.latched.srcBase.toNat + tileOffset s.latched (s.inCount.toNat / s.latched.tileb) 0 :=
    congrArg (s.latched.srcBase.toNat + ·) hoff
  rw [engineTurn_fetch hp ha hleft hmore, fetchByte_side_full (fun _ => hoff ▸ hin) (hsrc ▸ haddr) (hsrc ▸ hb)
    (s.startsTile_iff.2 ⟨hop, hfirst, hen⟩) hfull]
  rfl

/-! ## Checked writes of several bytes, with and without room (spec/40_command.md R131) -/

section Writes

variable {s : State}

theorem dstWrites_fits {vs : List Byte} (hroom : s.outCount.toNat + vs.length ≤ s.latched.dstCap.toNat)
    (haddr : s.dstAddr + vs.length ≤ s.memSize) :
    ∃ m, dstWrites vs s = .go (s.withOutput m (s.outCount + BitVec.ofNat 32 vs.length)) ∧ holds m s.dstAddr vs
      ∧ ∀ a, ¬(s.dstAddr ≤ a ∧ a < s.dstAddr + vs.length) → m.read a = s.mem.read a := by
  rcases dstWrites_cases vs s (by omega) with ⟨m, h, -, hheld, hframe⟩ | ⟨-, -, hfull, -⟩ | ⟨a, -, ha, -, hguard, -⟩
  · exact ⟨m, h, hheld, hframe⟩
  · omega
  · omega

theorem dstWrites_full (hfull : s.outCount = s.latched.dstCap) (v : Byte) (vs : List Byte) :
    dstWrites (v :: vs) s = .ended (s.completeErr .edstovf s.latched.dstCap) := by
  rw [dstWrites, dstWrite_full hfull, Progress.ended_andThen, hfull]

/-- Two bytes into one byte of room: the first stays written and counted. -/
theorem dstWrites_half (hlast : s.outCount.toNat + 1 = s.latched.dstCap.toNat) (haddr : s.dstAddr < s.memSize)
    (v w : Byte) : dstWrites [v, w] s = .ended
      ((s.withOutput (s.mem.write s.dstAddr v) s.latched.dstCap).completeErr .edstovf s.latched.dstCap) := by
  have hroom : s.outCount ≠ s.latched.dstCap := fun h => by rw [h] at hlast; omega
  have hnext : s.outCount + 1 = s.latched.dstCap :=
    BitVec.eq_of_toNat_eq ((toNat_add_one_of_ne hroom (by omega)).1.trans hlast)
  rw [dstWrites_pair_overflow hroom hnext haddr, ← hnext]
  rfl

end Writes

/-! ## The header step (spec/42_rle.md R205) -/

theorem engineTurn_rleHdr {s : State} (hp : s.phase = .rleHdr) (ha : s.abortReq = false) :
    engineTurn s = (stepRleHdr s).outcome := by
  rw [engineTurn_phase (by simp [hp]) ha, phaseStep, hp]

/-- Settles O32: the checked write of the MAGIC byte, and where the header goes on. -/
theorem headerStepEmitsAMagicByte : Obligations.HeaderStepEmitsAMagicByte := by
  intro s hp ha
  rw [engineTurn_rleHdr hp ha, stepRleHdr]
  refine ⟨fun hfull => ?_, fun hroom haddr => ?_⟩
  · rw [dstWrite_full hfull]
    rfl
  · rw [dstWrite_eq hroom haddr]
    refine ⟨_, rfl, s.read_store_same _ _, fun a hne => s.read_store_ne hne _, ?_⟩
    rw [← afterHdr_eq_ite, ← hp]
    rfl

/-! ## The palette step (spec/42_rle.md R208) -/

theorem engineTurn_rlePal {s : State} (hp : s.phase = .rlePal) (ha : s.abortReq = false) :
    engineTurn s = (stepRlePal s).outcome := by
  rw [engineTurn_phase (by simp [hp]) ha, phaseStep, hp]

/-- With its entry written the step writes the palette word. -/
theorem stepRlePal_of_reads {s : State} {r g b : Byte} (haddr : s.palAddr + 2 < s.memSize)
    (hr : s.mem.read s.palAddr = some r) (hg : s.mem.read (s.palAddr + 1) = some g)
    (hb : s.mem.read (s.palAddr + 2) = some b) :
    stepRlePal s = (dstWrites (palBytes r g b) s).andThen fun t => .go t.nextEntry := by
  rw [stepRlePal, engineRead_eq (by omega) hr, engineRead_eq (by omega) hg, engineRead_eq haddr hb]

/-- Settles O33: the palette word with room for both bytes, for none and for one. -/
theorem paletteStepEmitsAPaletteWord : Obligations.PaletteStepEmitsAPaletteWord := by
  intro s r g b hp ha haddr hr hg hb
  rw [engineTurn_rlePal hp ha, stepRlePal_of_reads haddr hr hg hb]
  refine ⟨fun hroom hdst => ?_, fun hfull => ?_, fun hlast hdst => ?_⟩
  · obtain ⟨m, h, hheld, hframe⟩ := dstWrites_fits (vs := palBytes r g b) hroom hdst
    rw [h]
    refine ⟨_, rfl, hheld 0 (Nat.succ_pos 1), hheld 1 (Nat.lt_succ_self 1), fun a hne hne' => hframe a ?_, ?_⟩
    · rw [show (palBytes r g b).length = 2 from rfl]
      omega
    · rw [← hp]
      rfl
  · rw [palBytes, dstWrites_full hfull]
    rfl
  · rw [palBytes, dstWrites_half hlast hdst]
    exact ⟨_, rfl, Memory.read_write_same _ _ _, fun a hne => Memory.read_write_ne _ _ hne, rfl⟩

/-! ## The run and flush steps (spec/42_rle.md R209, R210) -/

theorem engineTurn_rleRun {s : State} (hp : s.phase = .rleRun) (ha : s.abortReq = false) :
    engineTurn s = (stepRleRun s).outcome := by
  rw [engineTurn_phase (by simp [hp]) ha, phaseStep, hp]

theorem stepRleRun_flush {s : State} (h : s.inCount = s.latched.srcLen) : stepRleRun s = rleFlush s := if_pos h

theorem stepRleRun_of_read {s : State} {b : Byte} (hmore : s.inCount ≠ s.latched.srcLen)
    (haddr : s.latched.srcBase.toNat + s.inCount.toNat < s.memSize)
    (hb : s.mem.read (s.latched.srcBase.toNat + s.inCount.toNat) = some b) :
    stepRleRun s = takeColor (colorOf b) s.countIn := by
  rw [stepRleRun, if_neg hmore, engineRead_eq haddr hb]

theorem takeColor_open {s : State} (h : s.runActive = false) (c : Nibble) : takeColor c s = .go (s.openRun c) := if_pos h

theorem takeColor_extend {s : State} {c : Nibble} (h : s.runActive = true) (hc : c = s.runColor)
    (hrep : s.runRep.toNat < 255) : takeColor c s = .go s.extendRun := by
  rw [takeColor, if_neg (by simp [h]), if_pos ⟨hc, hrep⟩]

theorem takeColor_emit {s : State} {c : Nibble} (h : s.runActive = true) (hc : c ≠ s.runColor ∨ s.runRep.toNat = 255) :
    takeColor c s = (emitRun s).andThen fun t => .go (t.seedRun c) := by
  rw [takeColor, if_neg (by simp [h]), if_neg]
  rintro ⟨hc', hrep⟩
  rcases hc with hc | hc
  · exact hc hc'
  · omega

theorem tokenBytes_ne_nil (c : Nibble) (rep : Byte) : ∃ v vs, tokenBytes c rep = v :: vs := by
  unfold tokenBytes
  split_ifs <;> exact ⟨_, _, rfl⟩

theorem emitRun_full {s : State} (hfull : s.outCount = s.latched.dstCap) :
    emitRun s = .ended (s.completeErr .edstovf s.latched.dstCap) := by
  obtain ⟨v, vs, h⟩ := tokenBytes_ne_nil s.runColor s.runRep
  rw [emitRun, h, dstWrites_full hfull]

/-- A long token into one byte of room. -/
theorem emitRun_half {s : State} (hlong : 15 ≤ s.runRep.toNat) (hlast : s.outCount.toNat + 1 = s.latched.dstCap.toNat)
    (haddr : s.dstAddr < s.memSize) : emitRun s = .ended
      ((s.withOutput (s.mem.write s.dstAddr (s.runColor.setWidth 8 ||| 0xF0#8)) s.latched.dstCap).completeErr .edstovf
        s.latched.dstCap) := by
  rw [emitRun, tokenBytes, if_neg (Nat.not_lt.2 hlong), dstWrites_half hlast haddr]

/-- Settles O34: the four outcomes of a source byte. -/
theorem runStepTakesOneByte : Obligations.RunStepTakesOneByte := by
  intro s b hp ha hmore haddr hb
  rw [engineTurn_rleRun hp ha, stepRleRun_of_read hmore haddr hb]
  refine ⟨fun hact => ?_, fun hact hc hrep => ?_, fun hact hc hroom hdst => ?_, fun hact hc =>
    ⟨fun hfull => ?_, fun hlong hlast hdst => ?_⟩⟩
  · rw [takeColor_open (s := s.countIn) hact]
    rfl
  · rw [takeColor_extend (s := s.countIn) (c := colorOf b) hact hc hrep]
    rfl
  · rw [takeColor_emit (s := s.countIn) (c := colorOf b) hact hc]
    obtain ⟨m, h, hheld, hframe⟩ := dstWrites_fits (s := s.countIn) hroom hdst
    rw [emitRun, show dstWrites (tokenBytes s.countIn.runColor s.countIn.runRep) s.countIn = _ from h]
    exact ⟨_, rfl, hheld, hframe, rfl⟩
  · rw [takeColor_emit (s := s.countIn) (c := colorOf b) hact hc, emitRun_full (s := s.countIn) hfull]
    rfl
  · rw [takeColor_emit (s := s.countIn) (c := colorOf b) hact hc, emitRun_half (s := s.countIn) hlong hlast hdst]
    exact ⟨_, rfl, Memory.read_write_same _ _ _, fun a hne => Memory.read_write_ne _ _ hne, rfl⟩

theorem State.closeRun_eq_self {s : State} (h : s.runActive = false) : s.closeRun = s := by
  rw [State.closeRun, ← h]

theorem rleFlush_closed {s : State} (h : s.runActive = false) : rleFlush s = .go s.completeOk := by
  rw [rleFlush, if_neg (by simp [h]), Progress.go_andThen, State.closeRun_eq_self h]

theorem rleFlush_open {s : State} (h : s.runActive = true) :
    rleFlush s = (emitRun s).andThen fun t => .go t.closeRun.completeOk := by
  rw [rleFlush, if_pos h]

/-- Settles O35: the flush with no run open, and the three outcomes of the last token. -/
theorem flushStepEmitsTheLastRun : Obligations.FlushStepEmitsTheLastRun := by
  intro s hp ha hread
  rw [engineTurn_rleRun hp ha, stepRleRun_flush hread]
  refine ⟨fun hact => ?_, fun hact hroom hdst => ?_, fun hact => ⟨fun hfull => ?_, fun hlong hlast hdst => ?_⟩⟩
  · rw [rleFlush_closed hact]
    rfl
  · rw [rleFlush_open hact]
    obtain ⟨m, h, hheld, hframe⟩ := dstWrites_fits hroom hdst
    rw [emitRun, h]
    exact ⟨_, rfl, hheld, hframe, rfl⟩
  · rw [rleFlush_open hact, emitRun_full hfull]
    rfl
  · rw [rleFlush_open hact, emitRun_half hlong hlast hdst]
    exact ⟨_, rfl, Memory.read_write_same _ _ _, fun a hne => Memory.read_write_ne _ _ hne, rfl⟩

end Sys2Proof.Machine
end

section
/-! The engine and the host do not interfere: a turn of the engine commutes with register writes, and with byte stores outside the
active windows (spec/20_memory.md R82; spec/70_reset_and_hazards.md R286, R287). -/

namespace Sys2Proof.Machine

theorem dstWrite_outside {s : State} (hroom : s.outCount ≠ s.latched.dstCap) (h : s.memSize ≤ s.dstAddr) (v : Byte) :
    dstWrite v s = .stop (.outsideBufferMemory s.dstAddr) := by
  rw [dstWrite, if_neg hroom, engineWrite, if_pos h, Progress.stop_andThen]

theorem idxWrite_outside {s : State} (hroom : s.idxCount ≠ s.latched.idxCap) (h : s.memSize ≤ s.idxAddr) (v : Byte) :
    idxWrite v s = .stop (.outsideBufferMemory s.idxAddr) := by
  rw [idxWrite, if_neg hroom, engineWrite, if_pos h, Progress.stop_andThen]

/-! ## Changes the engine does not see -/

/-- A change of the configuration registers and of memory. -/
def State.patch (f : CfgRegs → CfgRegs) (g : Memory → Memory) (s : State) : State :=
  { s with regs := f s.regs, mem := g s.mem }

/-- A change of memory that, on memories in `M`, is not seen at the addresses in `A`. -/
structure MemoryPatch (M : Memory → Prop) (A : Nat → Prop) (g : Memory → Memory) : Prop where
  keeps : ∀ m a v, M m → M (m.write a v)
  read : ∀ m a, M m → A a → (g m).read a = m.read a
  write : ∀ m a v, M m → A a → (g m).write a v = g (m.write a v)

theorem memoryPatch_id : MemoryPatch (fun _ => True) (fun _ => True) id :=
  ⟨fun _ _ _ => id, fun _ _ _ _ => rfl, fun _ _ _ _ _ => rfl⟩

/-- Two writes at different addresses of a canonical memory commute. -/
theorem Memory.write_comm {m : Memory} (hm : m.wf) {a b : Nat} (h : a ≠ b) (v w : Byte) :
    Memory.write (Memory.write m b w) a v = Memory.write (Memory.write m a v) b w := by
  refine Memory.ext_of_wf (Memory.wf_write (Memory.wf_write hm b w) a v) (Memory.wf_write (Memory.wf_write hm a v) b w)
    fun c => ?_
  simp only [Memory.read_write]
  by_cases ha : c = a
  · rw [if_pos ha, if_neg (ha ▸ h), if_pos ha]
  · rw [if_neg ha, if_neg ha]

theorem memoryPatch_write (b : Nat) (w : Byte) : MemoryPatch Memory.wf (· ≠ b) (Memory.write · b w) :=
  ⟨fun _ a v hm => Memory.wf_write hm a v, fun m _ _ ha => Memory.read_write_ne m w ha,
    fun _ _ v hm ha => Memory.write_comm hm ha v w⟩

/-- A part of a step with its states changed. -/
def Progress.map (f : State → State) : Progress → Progress
  | .go s => .go (f s)
  | .ended s => .ended (f s)
  | .stop r => .stop r

theorem Progress.map_outcome (f : State → State) (p : Progress) : (p.map f).outcome = mapNext f p.outcome := by
  cases p <;> rfl

/-- The addresses the engine's next step may read (spec/41_repack.md R163; spec/42_rle.md R208, R209). -/
def State.Reads (s : State) (a : Nat) : Prop :=
  match s.phase with
  | .repack => s.inLeft = 0 ∧ s.inCount ≠ s.latched.srcLen ∧ a = s.srcAddr
  | .rlePal => ∃ j, j < 3 ∧ a = s.palAddr + j
  | .rleRun => s.inCount ≠ s.latched.srcLen ∧ a = s.latched.srcBase.toNat + s.inCount.toNat
  | .idle | .pre | .rleHdr => False

section Patch

variable {M : Memory → Prop} {A : Nat → Prop} {f : CfgRegs → CfgRegs} {g : Memory → Memory} (hg : MemoryPatch M A g)

/-- The change is not seen where the state's step may write. -/
structure State.Blind (M : Memory → Prop) (A : Nat → Prop) (s : State) : Prop where
  mem : M s.mem
  writable : ∀ a, s.Writable a → A a

/-- A part of a step does the same on the changed state. -/
def State.Commutes (f : CfgRegs → CfgRegs) (g : Memory → Memory) (p : State → Progress) (s : State) : Prop :=
  p (s.patch f g) = (p s).map (State.patch f g)

theorem State.Commutes.andThen {p k : State → Progress} {s : State} (hp : State.Commutes f g p s)
    (hk : ∀ t, p s = .go t → State.Commutes f g k t) : State.Commutes f g (fun s => (p s).andThen k) s := by
  show (p (s.patch f g)).andThen k = ((p s).andThen k).map (State.patch f g)
  rw [show p (s.patch f g) = _ from hp]
  cases h : p s with
  | go t => exact hk t h
  | ended t => rfl
  | stop r => rfl

/-- An engine read at an address where the change is not seen. -/
theorem engineRead_patch {s : State} (hs : State.Blind M A s) (hg : MemoryPatch M A g) {a : Nat} (ha : A a)
    {k k' : Byte → Progress} (hk : ∀ b, k' b = (k b).map (State.patch f g)) :
    engineRead a (s.patch f g) k' = (engineRead a s k).map (State.patch f g) := by
  have hread : (s.patch f g).mem.read a = s.mem.read a := hg.read _ _ hs.mem ha
  have hsize : (s.patch f g).memSize = s.memSize := rfl
  unfold engineRead
  rw [hread, hsize]
  split_ifs
  · rfl
  · cases s.mem.read a with
    | none => rfl
    | some b => exact hk b

include hg

theorem State.Blind.leads {s t : State} (hs : State.Blind M A s) (h : s.Leads t) : State.Blind M A t := by
  refine ⟨?_, fun a ha => hs.writable a (h.writable ha)⟩
  have hkeeps : ∀ n, Memory.Writes s.Writable s.mem n → M n := fun n hn => by
    induction hn with
    | refl => exact hs.mem
    | write a v _ _ ih => exact hg.keeps _ a v ih
  exact hkeeps _ h.mem

theorem dstWrite_commutes (v : Byte) {s : State} (hs : State.Blind M A s) : State.Commutes f g (dstWrite v) s := by
  unfold State.Commutes
  rcases dstWrite_cases v s with ⟨hfull, h⟩ | ⟨hroom, hout, h⟩ | ⟨hroom, haddr, h⟩ <;> rw [h]
  · exact dstWrite_full (s := s.patch f g) hfull v
  · exact dstWrite_outside (s := s.patch f g) hroom hout v
  · rw [dstWrite_eq (s := s.patch f g) hroom haddr]
    have hmem := hg.write s.mem s.dstAddr v hs.mem (hs.writable _ (State.dstAddr_writable hroom haddr))
    simp only [Progress.map, State.patch, State.countOut, State.store, ← hmem]
    rfl

theorem dstWrites_commutes (vs : List Byte) {s : State} (hs : State.Blind M A s) :
    State.Commutes f g (dstWrites vs) s := by
  induction vs generalizing s with
  | nil => rfl
  | cons v vs ih =>
    refine State.Commutes.andThen (dstWrite_commutes hg v hs) fun t ht => ih (hs.leads hg ?_)
    have hcont := dstWrite_contained v s
    rw [ht] at hcont
    exact hcont.1

theorem idxWrite_commutes (v : Byte) {s : State} (hs : State.Blind M A s) (hop : s.lop = .repackTile)
    (hen : s.latched.idxEn = true) : State.Commutes f g (idxWrite v) s := by
  unfold State.Commutes
  rcases idxWrite_cases v s with ⟨hfull, h⟩ | ⟨hroom, hout, h⟩ | ⟨hroom, haddr, h⟩ <;> rw [h]
  · exact idxWrite_full (s := s.patch f g) hfull v
  · exact idxWrite_outside (s := s.patch f g) hroom hout v
  · rw [idxWrite_eq (s := s.patch f g) hroom haddr]
    have hmem := hg.write s.mem s.idxAddr v hs.mem (hs.writable _ (State.idxAddr_writable hop hen hroom haddr))
    simp only [Progress.map, State.patch, State.countIdx, State.store, ← hmem]
    rfl

omit hg in
theorem State.countTile_patch (s : State) : (s.patch f g).countTile = s.countTile.patch f g := by
  rw [State.countTile_eq, State.countTile_eq]
  rfl

theorem pixelStep_commutes {s : State} (hs : State.Blind M A s) : State.Commutes f g pixelStep s := by
  by_cases h : s.accN + 1 = s.latched.pOut
  · have hstep (u : State) (hu : u.accN + 1 = u.latched.pOut) : pixelStep u =
        (dstWrite u.movePixel.acc u.movePixel).andThen fun t => .go t.clearAcc.countTile := if_pos hu
    rw [State.Commutes, hstep s h, hstep (s.patch f g) h]
    exact State.Commutes.andThen (dstWrite_commutes hg _ (hs.leads hg s.leads_movePixel)) fun t _ =>
      congrArg Progress.go (State.countTile_patch t.clearAcc)
  · rw [State.Commutes, pixelStep_part h]
    exact pixelStep_part (s := s.patch f g) h

theorem fetchByte_commutes {s : State} (hs : State.Blind M A s) (hsrc : A s.srcAddr) :
    State.Commutes f g fetchByte s := by
  by_cases hout : s.lop = .repackTile ∧ s.latched.srcLen.toNat ≤ readOffset s.lop s.latched s.inCount.toNat
  · rw [State.Commutes, fetchByte_truncated hout.1 hout.2]
    exact fetchByte_truncated (s := s.patch f g) hout.1 hout.2
  · have hstep (u : State)
        (hu : ¬(u.lop = .repackTile ∧ u.latched.srcLen.toNat ≤ readOffset u.lop u.latched u.inCount.toNat)) :
        fetchByte u = engineRead u.srcAddr u fun b => (if u.startsTile then idxWrite (paletteIndex b) u.countIn
          else .go u.countIn).andThen fun t => .go (t.loadByte b) := if_neg hu
    rw [State.Commutes, hstep s hout, hstep (s.patch f g) hout]
    refine engineRead_patch hs hg hsrc fun b => ?_
    by_cases hst : s.startsTile = true
    · obtain ⟨hop, -, hen⟩ := s.startsTile_iff.1 hst
      rw [if_pos hst, if_pos (show (s.patch f g).startsTile = true from hst)]
      exact State.Commutes.andThen (idxWrite_commutes hg _ (hs.leads hg s.leads_countIn) hop hen) fun t _ => rfl
    · rw [if_neg hst, if_neg (show ¬(s.patch f g).startsTile = true from hst)]
      rfl

theorem repackFinal_commutes {s : State} (hs : State.Blind M A s) : State.Commutes f g repackFinal s := by
  by_cases h : s.accN = 0
  · rw [State.Commutes, repackFinal_nothing_pending h]
    exact repackFinal_nothing_pending (s := s.patch f g) h
  · have hstep (u : State) (hu : u.accN ≠ 0) : repackFinal u =
        (dstWrite u.padAcc.acc u.padAcc).andThen fun t => .go t.setPadded.clearAcc.completeOk := if_pos hu
    rw [State.Commutes, hstep s h, hstep (s.patch f g) h]
    have hpad : s.Leads s.padAcc := .of_fixed rfl rfl rfl rfl
    exact State.Commutes.andThen (dstWrite_commutes hg _ (hs.leads hg hpad)) fun t _ => rfl

theorem stepRepack_commutes {s : State} (hs : State.Blind M A s) (hp : s.phase = .repack)
    (hreads : ∀ a, s.Reads a → A a) : State.Commutes f g stepRepack s := by
  rcases stepRepack_cases s with ⟨hleft, hread, h⟩ | ⟨hleft, hmore, h⟩ | ⟨hleft, h⟩ <;> rw [State.Commutes, h]
  · have hstep : stepRepack (s.patch f g) = repackFinal (s.patch f g) := by
      rw [stepRepack, if_pos (show (s.patch f g).inLeft = 0 from hleft),
        if_pos (show (s.patch f g).inCount = (s.patch f g).latched.srcLen from hread)]
    rw [hstep]
    exact repackFinal_commutes hg hs
  · have hstep : stepRepack (s.patch f g) = (fetchByte (s.patch f g)).andThen pixelStep := by
      rw [stepRepack, if_pos (show (s.patch f g).inLeft = 0 from hleft),
        if_neg (show ¬(s.patch f g).inCount = (s.patch f g).latched.srcLen from hmore)]
    rw [hstep]
    have hsrc : A s.srcAddr := hreads _ (by rw [State.Reads, hp]; exact ⟨hleft, hmore, rfl⟩)
    refine State.Commutes.andThen (fetchByte_commutes hg hs hsrc) fun t ht => pixelStep_commutes hg (hs.leads hg ?_)
    have hcont := fetchByte_contained s
    rw [ht] at hcont
    exact hcont.1
  · have hstep : stepRepack (s.patch f g) = pixelStep (s.patch f g) :=
      if_neg (show ¬(s.patch f g).inLeft = 0 from hleft)
    rw [hstep]
    exact pixelStep_commutes hg hs

theorem stepRleHdr_commutes {s : State} (hs : State.Blind M A s) : State.Commutes f g stepRleHdr s :=
  State.Commutes.andThen (dstWrite_commutes hg _ hs) fun _ _ => rfl

theorem stepRlePal_commutes {s : State} (hs : State.Blind M A s) (hp : s.phase = .rlePal)
    (hreads : ∀ a, s.Reads a → A a) : State.Commutes f g stepRlePal s := by
  have hentry {j : Nat} (hj : j < 3) : A (s.palAddr + j) :=
    hreads _ (by rw [State.Reads, hp]; exact ⟨j, hj, rfl⟩)
  refine engineRead_patch hs hg (hentry (Nat.succ_pos 2)) fun r => ?_
  refine engineRead_patch hs hg (hentry (by decide)) fun g' => ?_
  refine engineRead_patch hs hg (hentry (by decide)) fun b => ?_
  exact State.Commutes.andThen (dstWrites_commutes hg (palBytes r g' b) hs) fun t _ => rfl

theorem emitRun_commutes {s : State} (hs : State.Blind M A s) : State.Commutes f g emitRun s :=
  dstWrites_commutes hg (tokenBytes s.runColor s.runRep) hs

theorem takeColor_commutes (c : Nibble) {s : State} (hs : State.Blind M A s) : State.Commutes f g (takeColor c) s := by
  by_cases hact : s.runActive = false
  · rw [State.Commutes, takeColor_open hact]
    exact takeColor_open (s := s.patch f g) hact c
  · rw [Bool.not_eq_false] at hact
    by_cases hext : c = s.runColor ∧ s.runRep.toNat < 255
    · rw [State.Commutes, takeColor_extend hact hext.1 hext.2]
      exact takeColor_extend (s := s.patch f g) hact hext.1 hext.2
    · have hstep (u : State) (hu : ¬u.runActive = false) (hu' : ¬(c = u.runColor ∧ u.runRep.toNat < 255)) :
          takeColor c u = (emitRun u).andThen fun t => .go (t.seedRun c) := by
        rw [takeColor, if_neg hu, if_neg hu']
      have hopen : ¬s.runActive = false := by simp [hact]
      rw [State.Commutes, hstep s hopen hext, hstep (s.patch f g) hopen hext]
      exact State.Commutes.andThen (emitRun_commutes hg hs) fun t _ => rfl

theorem rleFlush_commutes {s : State} (hs : State.Blind M A s) : State.Commutes f g rleFlush s := by
  by_cases hact : s.runActive = true
  · rw [State.Commutes, rleFlush_open hact, rleFlush_open (s := s.patch f g) hact]
    exact State.Commutes.andThen (emitRun_commutes hg hs) fun t _ => rfl
  · rw [Bool.not_eq_true] at hact
    rw [State.Commutes, rleFlush_closed hact]
    exact rleFlush_closed (s := s.patch f g) hact

theorem stepRleRun_commutes {s : State} (hs : State.Blind M A s) (hp : s.phase = .rleRun)
    (hreads : ∀ a, s.Reads a → A a) : State.Commutes f g stepRleRun s := by
  by_cases hread : s.inCount = s.latched.srcLen
  · rw [State.Commutes, stepRleRun_flush hread, stepRleRun_flush (s := s.patch f g) hread]
    exact rleFlush_commutes hg hs
  · have hstep (u : State) (hu : u.inCount ≠ u.latched.srcLen) : stepRleRun u =
        engineRead (u.latched.srcBase.toNat + u.inCount.toNat) u fun b => takeColor (colorOf b) u.countIn := if_neg hu
    rw [State.Commutes, hstep s hread, hstep (s.patch f g) hread]
    have hsrc : A (s.latched.srcBase.toNat + s.inCount.toNat) :=
      hreads _ (by rw [State.Reads, hp]; exact ⟨hread, rfl⟩)
    exact engineRead_patch hs hg hsrc fun b => takeColor_commutes hg (colorOf b) (hs.leads hg s.leads_countIn)

theorem phaseStep_commutes {s : State} (hs : State.Blind M A s) (hreads : ∀ a, s.Reads a → A a) :
    State.Commutes f g phaseStep s := by
  have hphase : (s.patch f g).phase = s.phase := rfl
  unfold State.Commutes phaseStep
  rw [hphase]
  cases hp : s.phase with
  | idle => rfl
  | pre =>
    show stepPre (s.patch f g) = (stepPre s).map _
    unfold stepPre
    rw [show preflightError (s.patch f g).memSize (s.patch f g).lop (s.patch f g).latched
      = preflightError s.memSize s.lop s.latched from rfl]
    cases preflightError s.memSize s.lop s.latched <;> rfl
  | repack => exact stepRepack_commutes hg hs hp hreads
  | rleHdr => exact stepRleHdr_commutes hg hs
  | rlePal => exact stepRlePal_commutes hg hs hp hreads
  | rleRun => exact stepRleRun_commutes hg hs hp hreads

/-- A turn of the engine commutes with a change it does not see. -/
theorem engineTurn_patch {s : State} (hs : State.Blind M A s) (hreads : ∀ a, s.Reads a → A a) :
    engineTurn (s.patch f g) = mapNext (State.patch f g) (engineTurn s) := by
  rcases engineTurn_cases s with ⟨hp, h⟩ | ⟨hp, ha, h⟩ | ⟨hp, ha, h⟩ <;> rw [h]
  · exact engineTurn_idle ((s.patch f g).not_busy_iff.2 hp)
  · exact engineTurn_abort (s := s.patch f g) hp ha
  · rw [engineTurn_phase (s := s.patch f g) hp ha, phaseStep_commutes hg hs hreads, Progress.map_outcome]

end Patch

/-- Settles O58: a write to a register of the host's own copy is a change of it alone, which no step reads. -/
theorem engineIgnoresRegisterWrites : Obligations.EngineIgnoresRegisterWrites := by
  intro s r v _ hr
  have hwrite : State.writeReg r v = State.patch (CfgRegs.write r v) id := funext fun u => State.writeReg_eq hr v u
  rw [hwrite]
  exact engineTurn_patch memoryPatch_id ⟨trivial, fun _ _ => trivial⟩ fun _ _ => trivial

/-- The engine reads inside the active windows of its command. -/
theorem State.CommandOk.reads {s : State} (h : s.CommandOk) {a : Nat} (ha : s.Reads a) :
    ∃ w ∈ activeWindows s.lop s.latched, w.contains a = true := by
  obtain ⟨-, hrepack, -, hpal, hrun⟩ := h
  unfold State.Reads at ha
  cases hp : s.phase with
  | idle => simp only [hp] at ha
  | pre => simp only [hp] at ha
  | rleHdr => simp only [hp] at ha
  | repack =>
    simp only [hp] at ha
    obtain ⟨-, hmore, rfl⟩ := ha
    exact ⟨_, srcWindow_mem _ _, (s.repackOk_iff.1 (hrepack hp)).1.srcAddr_mem hmore⟩
  | rlePal =>
    simp only [hp] at ha
    obtain ⟨j, hj, rfl⟩ := ha
    obtain ⟨⟨hop, -⟩, hen, -, -, hlt, -⟩ := hpal hp
    exact ⟨_, palWindow_mem hop hen, State.palAddr_mem hlt hj⟩
  | rleRun =>
    simp only [hp] at ha
    obtain ⟨hmore, rfl⟩ := ha
    obtain ⟨⟨-, -, -, -, -, hle⟩, -⟩ := hrun hp
    exact ⟨_, srcWindow_mem _ _, (Window.contains_iff _ _).2
      ⟨Nat.le_add_right _ _, Nat.add_lt_add_left (toNat_add_one_of_ne hmore hle).2 _⟩⟩

/-- Settles O59: under the invariant the engine's step reads and writes inside the active windows only, and writes elsewhere
commute with its own. -/
theorem engineIgnoresStoresElsewhere : Obligations.EngineIgnoresStoresElsewhere := by
  intro s a v hs hmem hok hout
  have hother {b : Nat} (hb : ∃ w ∈ activeWindows s.lop s.latched, w.contains b = true) : b ≠ a := by
    rintro rfl
    obtain ⟨w, hw, hin⟩ := hb
    rw [hout w hw] at hin
    cases hin
  have hblind : State.Blind Memory.wf (· ≠ a) s := ⟨hmem.1, fun b ⟨_, hwin⟩ => by
    obtain ⟨w, hw, hin⟩ := hwin (hok.inCaps (s.busy_iff.1 hs))
    exact hother ⟨w, mem_active_of_output hw, hin⟩⟩
  exact engineTurn_patch (f := id) (memoryPatch_write a v) hblind fun b hb => hother (hok.reads hb)

end Sys2Proof.Machine
end

section
/-! The closed forms of the two output streams: fields packed into bytes and read back (spec/41_repack.md R153 to R156, R164,
R167), maximal blocks and their tokens (spec/42_rle.md R209 to R215). -/

namespace Sys2Proof.Machine

/-! ## The fields of an output byte -/

/-- Every bit of a byte is a bit of one of its fields. -/
theorem exists_field {b n i : Nat} (hn : n * b = 8) (hi : i < 8) :
    ∃ q r, q < n ∧ r < b ∧ (q + 1) * b ≤ 8 ∧ i = 8 - (q + 1) * b + r := by
  have hb : 0 < b := Nat.pos_of_ne_zero fun h => by simp [h] at hn
  obtain ⟨k, hk⟩ : ∃ k, k = i / b := ⟨_, rfl⟩
  have hq : k < n := hk ▸ (Nat.div_lt_iff_lt_mul hb).2 (hn ▸ hi)
  have hle : (n - 1 - k + 1) * b ≤ n * b := Nat.mul_le_mul_right b (by omega)
  have hsum : (n - 1 - k + 1) * b + k * b = 8 := by
    rw [← Nat.add_mul, show n - 1 - k + 1 + k = n by omega, hn]
  have hi' : k * b + i % b = i := hk ▸ Nat.div_add_mod' i b
  exact ⟨n - 1 - k, i % b, by omega, Nat.mod_lt i hb, by omega, by omega⟩

/-- Bit `r` of field `q` of a pixel placed in field `k`. -/
theorem getLsbD_placed {b k q r : Nat} (p : Byte) (hk : (k + 1) * b ≤ 8) (hq : (q + 1) * b ≤ 8) (hr : r < b) :
    ((p &&& mask b) <<< (8 - (k + 1) * b)).getLsbD (8 - (q + 1) * b + r) = (decide (q = k) && p.getLsbD r) := by
  have hqb : b ≤ (q + 1) * b := Nat.le_mul_of_pos_left b q.succ_pos
  rw [BitVec.getLsbD_shiftLeft, BitVec.getLsbD_and, getLsbD_mask]
  rcases Nat.lt_trichotomy q k with h | rfl | h
  · have hlt : (q + 1) * b + b ≤ (k + 1) * b := by rw [← Nat.succ_mul]; exact Nat.mul_le_mul_right b (by omega)
    simp [h.ne, show ¬8 - (q + 1) * b + r - (8 - (k + 1) * b) < b by omega]
  · simp [hr, show 8 - (q + 1) * b + r < 8 by omega, show r < 8 by omega]
  · have hlt : (k + 1) * b + b ≤ (q + 1) * b := by rw [← Nat.succ_mul]; exact Nat.mul_le_mul_right b (by omega)
    simp [h.ne', show 8 - (q + 1) * b + r < 8 - (k + 1) * b by omega]

/-- Bit `r` of field `q` of packed pixels is bit `r` of the pixel of that field. -/
theorem getLsbD_packFields {b q r : Nat} (hq : (q + 1) * b ≤ 8) (hr : r < b) (ps : List Byte) (k : Nat)
    (hk : (k + ps.length) * b ≤ 8) : (packFields b k ps).getLsbD (8 - (q + 1) * b + r)
      = (decide (k ≤ q) && (ps.getD (q - k) 0).getLsbD r) := by
  induction ps generalizing k with
  | nil => simp [packFields]
  | cons p ps ih =>
    rw [List.length_cons, ← Nat.add_assoc, Nat.add_right_comm] at hk
    have hfield : (k + 1) * b ≤ 8 := (Nat.mul_le_mul_right b (Nat.le_add_right _ _)).trans hk
    rw [packFields, BitVec.getLsbD_or, getLsbD_placed p hfield hq hr, ih (k + 1) hk]
    rcases Nat.lt_trichotomy q k with h | rfl | h
    · simp [h.ne, show ¬k ≤ q by omega, show ¬k + 1 ≤ q by omega]
    · simp
    · obtain ⟨d, rfl⟩ := Nat.exists_eq_add_of_lt h
      simp [show k + d + 1 - k = d + 1 by omega, show k + d + 1 - (k + 1) = d by omega, show k + d + 1 ≠ k by omega,
        show k ≤ k + d + 1 by omega]

theorem packFields_append_singleton (b k : Nat) (ps : List Byte) (p : Byte) : packFields b k (ps ++ [p]) =
    packFields b k ps ||| ((p &&& mask b) <<< (8 - (k + ps.length + 1) * b)) := by
  induction ps generalizing k with
  | nil => exact BitVec.or_comm _ _
  | cons q ps ih =>
    rw [List.cons_append, packFields, packFields, ih, BitVec.or_assoc, List.length_cons,
      show k + 1 + ps.length = k + (ps.length + 1) by omega]

theorem foldl_packStep_lt {b : Nat} {ps : List Byte} (h : ps.length * b ≤ 8) :
    (ps.foldl (packStep b) 0).toNat < 2 ^ (ps.length * b) := by
  induction ps using List.reverseRecOn with
  | nil => simp
  | append_singleton ps p ih =>
    rw [List.length_append, List.length_singleton] at h ⊢
    rw [List.foldl_append]
    exact packStep_lt (ih ((Nat.mul_le_mul_right b (Nat.le_succ _)).trans h)) h p

/-- Pack steps fill the byte from its low end; shifted up, the fields stand where R155 puts them. -/
theorem foldl_packStep_shiftLeft {b : Nat} {ps : List Byte} (h : ps.length * b ≤ 8) :
    (ps.foldl (packStep b) 0) <<< (8 - ps.length * b) = packFields b 0 ps := by
  induction ps using List.reverseRecOn with
  | nil => simp [packFields]
  | append_singleton ps p ih =>
    rw [List.length_append, List.length_singleton, Nat.succ_mul] at h
    have hacc := foldl_packStep_lt (b := b) (ps := ps) (by omega)
    have hshift : (ps.foldl (packStep b) 0).toNat < 2 ^ (8 - b) :=
      hacc.trans_le (Nat.pow_le_pow_right (by omega) (by omega))
    rw [packFields_append_singleton, ← ih (by omega), List.foldl_append, List.foldl_cons, List.foldl_nil, packStep,
      rol8_eq_shiftLeft hshift, BitVec.shiftLeft_or_distrib, ← BitVec.shiftLeft_add, List.length_append,
      List.length_singleton, Nat.zero_add, Nat.succ_mul, show b + (8 - (ps.length * b + b)) = 8 - ps.length * b by omega]

/-- Settles O21: the final shift is that of the missing fields. -/
theorem packStepsBuildTheOutputByte : Obligations.PackStepsBuildTheOutputByte := by
  intro sel pixels _ hlen
  have hfull := pixels_mul_depth sel
  generalize 8 / (1 <<< sel.toNat) = n at hlen hfull ⊢
  generalize 1 <<< sel.toNat = b at hfull ⊢
  have hle : pixels.length * b ≤ 8 := hfull ▸ Nat.mul_le_mul_right b hlen
  rw [padByte, Nat.mul_comm, Nat.sub_mul, hfull, foldl_packStep_shiftLeft hle]

/-! ## Bytes and their pixels -/

theorem length_fieldPixels (x : Byte) (b : Nat) : (fieldPixels x b).length = 8 / b := by simp [fieldPixels]

section Depth

variable {b : Nat} (hb : 8 / b * b = 8)

include hb

/-- A byte is its fields packed. -/
theorem packFields_fieldPixels (x : Byte) : packFields b 0 (fieldPixels x b) = x := by
  refine BitVec.eq_of_getLsbD_eq fun i hi => ?_
  obtain ⟨q, r, hqn, hr, hq, rfl⟩ := exists_field hb hi
  rw [getLsbD_packFields hq hr _ _ (by simp [length_fieldPixels, hb])]
  have hb8 : b ≤ 8 := (Nat.le_mul_of_pos_left b q.succ_pos).trans hq
  simp [fieldPixels, List.getElem?_range hqn, getLsbD_mask, hr, show r < 8 by omega]

/-- The fields of packed pixels are the pixels, masked. -/
theorem fieldPixels_packFields {ps : List Byte} (h : ps.length = 8 / b) :
    fieldPixels (packFields b 0 ps) b = ps.map (· &&& mask b) := by
  refine List.ext_getElem (by simp [length_fieldPixels, h]) fun q hq _ => ?_
  rw [length_fieldPixels] at hq
  have hle : (q + 1) * b ≤ 8 := hb ▸ Nat.mul_le_mul_right b hq
  simp only [fieldPixels, List.getElem_map, List.getElem_range]
  refine BitVec.eq_of_getLsbD_eq fun r _ => ?_
  rw [BitVec.getLsbD_and, BitVec.getLsbD_and, BitVec.getLsbD_ushiftRight, getLsbD_mask]
  by_cases hr : r < b
  · rw [getLsbD_packFields hle hr _ _ (by simp [h, hb])]
    simp [List.getElem?_eq_getElem (h ▸ hq : q < ps.length)]
  · simp [hr]

theorem pixelsPerByte_pos : 0 < 8 / b := Nat.pos_of_ne_zero fun h => by rw [h, Nat.zero_mul] at hb; omega

/-- A full group of pixels is the first byte of the stream. -/
theorem packPixels_append {xs : List Byte} (h : xs.length = 8 / b) (rest : List Byte) :
    packPixels b (xs ++ rest) = packFields b 0 xs :: packPixels b rest := by
  have hpos := pixelsPerByte_pos hb
  have hcount : (8 / b + rest.length + 8 / b - 1) / (8 / b) = (rest.length + 8 / b - 1) / (8 / b) + 1 := by
    rw [show 8 / b + rest.length + 8 / b - 1 = rest.length + 8 / b - 1 + 8 / b by omega, Nat.add_div_right _ hpos]
  rw [packPixels, List.length_append, h, hcount, List.range_succ_eq_map, List.map_cons, List.map_map]
  refine congrArg₂ List.cons ?_ (List.map_congr_left fun j _ => ?_)
  · rw [Nat.zero_mul, List.drop_zero, ← h, List.take_left]
  · rw [Function.comp_apply, Nat.succ_mul, Nat.add_comm, ← h, List.drop_length_add_append]

/-- Repacking at the same depth is the identity (spec/41_repack.md R167 a). -/
theorem packPixels_flatMap_fieldPixels (bytes : List Byte) :
    packPixels b (bytes.flatMap fun x => fieldPixels x b) = bytes := by
  induction bytes with
  | nil =>
    have hpos := pixelsPerByte_pos hb
    simp [packPixels, Nat.div_eq_of_lt (show 8 / b - 1 < 8 / b by omega)]
  | cons x bytes ih =>
    rw [List.flatMap_cons, packPixels_append hb (length_fieldPixels x b), packFields_fieldPixels hb, ih]

/-- Pixels that fill whole bytes come back masked. -/
theorem flatMap_fieldPixels_packPixels {ps : List Byte} (h : 8 / b ∣ ps.length) :
    (packPixels b ps).flatMap (fun x => fieldPixels x b) = ps.map (· &&& mask b) := by
  obtain ⟨m, hm⟩ := h
  induction m generalizing ps with
  | zero =>
    obtain rfl := List.length_eq_zero_iff.1 hm
    have hpos := pixelsPerByte_pos hb
    simp [packPixels, Nat.div_eq_of_lt (show 8 / b - 1 < 8 / b by omega)]
  | succ m ih =>
    rw [Nat.mul_succ] at hm
    have hfirst : (ps.take (8 / b)).length = 8 / b := by rw [List.length_take]; omega
    have hrest := ih (ps := ps.drop (8 / b)) (by rw [List.length_drop]; omega)
    conv_lhs => rw [← List.take_append_drop (8 / b) ps]
    rw [packPixels_append hb hfirst, List.flatMap_cons, hrest, fieldPixels_packFields hb hfirst, ← List.map_append,
      List.take_append_drop]

end Depth

theorem length_pixels (bytes : List Byte) (b : Nat) :
    (bytes.flatMap fun x => fieldPixels x b).length = bytes.length * (8 / b) := by
  simp [List.length_flatMap, length_fieldPixels]

theorem mask_and_mask {lo hi : Nat} (h : lo ≤ hi) : mask lo &&& mask hi = mask lo := by
  refine BitVec.eq_of_getLsbD_eq fun i _ => ?_
  simp only [BitVec.getLsbD_and, getLsbD_mask]
  by_cases hi' : i < lo
  · simp [hi', hi'.trans_le h]
  · simp [hi']

/-- A byte's pixels already fit their depth. -/
theorem fieldPixels_and_mask (x : Byte) {lo hi : Nat} (h : lo ≤ hi) :
    (fieldPixels x lo).map (· &&& mask hi) = fieldPixels x lo := by
  rw [fieldPixels, List.map_map]
  refine List.map_congr_left fun k _ => ?_
  rw [Function.comp_apply, BitVec.and_assoc, mask_and_mask h]

/-- A higher depth is a longer field, and its bytes hold fewer pixels, a whole part of a lower depth's. -/
theorem depth_lt : ∀ lo hi : BitVec 2, lo < hi →
    1 <<< lo.toNat ≤ 1 <<< hi.toNat ∧ 8 / (1 <<< hi.toNat) ∣ 8 / (1 <<< lo.toNat) := by
  decide

/-- Settles O22: pixels that fill whole bytes come back masked to the depth they were packed at, and a byte's own pixels fit. -/
theorem repackRoundTrips : Obligations.RepackRoundTrips := by
  intro lo hi bytes
  have hlo := pixels_mul_depth lo
  have hhi := pixels_mul_depth hi
  refine ⟨packPixels_flatMap_fieldPixels hhi bytes, fun hlt => ?_⟩
  obtain ⟨hle, hdvd⟩ := depth_lt lo hi hlt
  refine ⟨?_, fun hwhole => ?_⟩
  · have hpix := flatMap_fieldPixels_packPixels hhi (ps := bytes.flatMap fun x => fieldPixels x (1 <<< lo.toNat))
      (by rw [length_pixels]; exact hdvd.mul_left _)
    rw [repackBytes, repackBytes, hpix, List.map_flatMap]
    simp only [fieldPixels_and_mask _ hle]
    exact packPixels_flatMap_fieldPixels hlo bytes
  · have hpix := flatMap_fieldPixels_packPixels hlo (ps := bytes.flatMap fun x => fieldPixels x (1 <<< hi.toNat))
      (by rw [length_pixels]; exact Nat.dvd_of_mod_eq_zero hwhole)
    rw [repackBytes, repackBytes, hpix]

/-! ## Blocks and tokens -/

/-- A block of `256 q + r + 1` bytes: `q` full tokens, then that of the rest. -/
theorem blockTokens_eq (c : Nibble) (q : Nat) (r : Byte) : blockTokens c (256 * q + r.toNat + 1) =
    (List.replicate q (tokenBytes c 255)).flatten ++ tokenBytes c r := by
  have hr := r.isLt
  rw [blockTokens]
  by_cases hfull : r = 255
  · have hmax : r.toNat = 255 := by rw [hfull]; rfl
    have hquot : (256 * q + r.toNat + 1) / 256 = q + 1 := by omega
    have hrem : (256 * q + r.toNat + 1) % 256 = 0 := by omega
    rw [hquot, if_pos hrem, hfull, List.replicate_succ', List.flatten_append, List.flatten_singleton, List.append_nil]
  · have hlt : r.toNat < 255 := by bv_omega
    have hquot : (256 * q + r.toNat + 1) / 256 = q := by omega
    have hrem : (256 * q + r.toNat + 1) % 256 = r.toNat + 1 := by omega
    rw [hquot, hrem, if_neg (Nat.succ_ne_zero _), Nat.add_sub_cancel, BitVec.ofNat_toNat, BitVec.setWidth_eq]

theorem splitBy_replicate (c : Nibble) (n : Nat) :
    (List.replicate (n + 1) c).splitBy (· == ·) = [List.replicate (n + 1) c] :=
  List.splitBy_of_isChain (by simp) (List.isChain_replicate_of_rel _ (by simp))

theorem rleTokens_replicate (c : Nibble) (n : Nat) : rleTokens (List.replicate (n + 1) c) = blockTokens c (n + 1) := by
  rw [rleTokens, splitBy_replicate]
  simp [List.replicate_succ]

/-- Where the colour changes a block ends. -/
theorem rleTokens_replicate_append {c x : Nibble} (h : c ≠ x) (n : Nat) (xs : List Nibble) :
    rleTokens (List.replicate (n + 1) c ++ x :: xs) = blockTokens c (n + 1) ++ rleTokens (x :: xs) := by
  have hchange : ∀ y ∈ (List.replicate (n + 1) c).getLast?, (y == x) = false := by simp [List.getLast?_replicate, h]
  rw [← rleTokens_replicate, rleTokens, List.splitBy_append_cons xs hchange, List.flatMap_append]
  rfl

/-- The encoder's token stream with a run of `r` repeats of `c` open: it extends the run, or emits it and seeds the next
(spec/42_rle.md R209, R210). -/
def encodeFrom (c : Nibble) (r : Byte) : List Nibble → List Byte
  | [] => tokenBytes c r
  | x :: xs => if x = c ∧ r.toNat < 255 then encodeFrom c (r + 1) xs else tokenBytes c r ++ encodeFrom x 0 xs

theorem encodeFrom_extend {c x : Nibble} {r : Byte} (hx : x = c) (hr : r.toNat < 255) (xs : List Nibble) :
    encodeFrom c r (x :: xs) = encodeFrom c (r + 1) xs := if_pos ⟨hx, hr⟩

theorem encodeFrom_emit {c x : Nibble} {r : Byte} (h : x ≠ c ∨ r.toNat = 255) (xs : List Nibble) :
    encodeFrom c r (x :: xs) = tokenBytes c r ++ encodeFrom x 0 xs :=
  if_neg fun ⟨hx, hr⟩ => h.elim (· hx) hr.ne

theorem toNat_succ_repeats {r : Byte} (h : r.toNat < 255) : (r + 1).toNat = r.toNat + 1 := by bv_omega

/-- The stream of a block begun before `xs` is the full tokens of the block and then the encoder's. -/
theorem rleTokens_replicate_append_eq_encodeFrom (xs : List Nibble) (c : Nibble) (q : Nat) (r : Byte) :
    rleTokens (List.replicate (256 * q + r.toNat + 1) c ++ xs) =
      (List.replicate q (tokenBytes c 255)).flatten ++ encodeFrom c r xs := by
  induction xs generalizing c q r with
  | nil => rw [List.append_nil, rleTokens_replicate, blockTokens_eq, encodeFrom]
  | cons x xs ih =>
    by_cases hx : x = c
    · subst hx
      rw [List.append_cons, ← List.replicate_succ']
      by_cases hr : r.toNat < 255
      · have h := ih x q (r + 1)
        rw [toNat_succ_repeats hr] at h
        rw [encodeFrom_extend rfl hr, ← h, Nat.add_assoc (256 * q) r.toNat 1]
      · have hmax : r.toNat = 255 := by omega
        have h := ih x (q + 1) 0
        obtain rfl : r = 255 := BitVec.eq_of_toNat_eq hmax
        rw [encodeFrom_emit (.inr hmax), ← List.append_assoc, ← List.flatten_singleton (l := tokenBytes x 255),
          ← List.flatten_append, List.flatten_singleton, ← List.replicate_succ', ← h, hmax]
        rfl
    · have h := ih x 0 0
      rw [rleTokens_replicate_append (Ne.symm hx), blockTokens_eq, encodeFrom_emit (.inl hx), List.append_assoc]
      exact congrArg _ (congrArg _ h)

/-- The closed form of the stream is what the encoder writes, byte by byte (spec/42_rle.md R213). -/
theorem rleTokens_cons (x : Nibble) (xs : List Nibble) : rleTokens (x :: xs) = encodeFrom x 0 xs :=
  rleTokens_replicate_append_eq_encodeFrom xs x 0 0

theorem decodeTokens_encodeFrom (xs : List Nibble) (c : Nibble) (r : Byte) :
    decodeTokens (encodeFrom c r xs) = List.replicate (r.toNat + 1) c ++ xs := by
  induction xs generalizing c r with
  | nil => simpa [encodeFrom, decodeTokens] using decodeTokens_tokenBytes_append c r []
  | cons x xs ih =>
    by_cases h : x = c ∧ r.toNat < 255
    · rw [encodeFrom_extend h.1 h.2, ih, toNat_succ_repeats h.2, h.1, List.replicate_succ', List.append_assoc,
        List.singleton_append]
    · rw [encodeFrom, if_neg h, decodeTokens_tokenBytes_append, ih]
      rfl

theorem length_encodeFrom_le (xs : List Nibble) (c : Nibble) (r : Byte) :
    (encodeFrom c r xs).length ≤ r.toNat + 1 + xs.length := by
  induction xs generalizing c r with
  | nil => exact tokenBytes_length_le c r
  | cons x xs ih =>
    rw [List.length_cons]
    by_cases h : x = c ∧ r.toNat < 255
    · have hle := ih c (r + 1)
      rw [toNat_succ_repeats h.2] at hle
      rw [encodeFrom_extend h.1 h.2]
      omega
    · have hle : (encodeFrom x 0 xs).length ≤ 0 + 1 + xs.length := ih x 0
      have htoken := tokenBytes_length_le c r
      rw [encodeFrom, if_neg h, List.length_append]
      omega

/-- Settles O37: the encoder's stream decodes run by run, and no token is longer than its run. -/
theorem tokenStreamDecodes : Obligations.TokenStreamDecodes := by
  intro colors
  cases colors with
  | nil => exact ⟨rfl, Nat.le_refl 0⟩
  | cons x xs =>
    rw [rleTokens_cons]
    refine ⟨decodeTokens_encodeFrom xs x 0, (length_encodeFrom_le xs x 0).trans ?_⟩
    simp [Nat.add_comm]

end Sys2Proof.Machine
end

section
/-! What a whole command needs beside its steps: the bytes it has written over the memory it found, windows that keep apart, and a
run of turns from an invariant to the completion (spec/40_command.md R118, R122, R128, R129). -/

namespace Sys2Proof.Machine

/-! ## Bytes laid over a memory -/

/-- The bytes `vs` from `base` on, over what `f` reads. -/
def overlay (base : Nat) (vs : List Byte) (f : Nat → Option Byte) (a : Nat) : Option Byte :=
  if base ≤ a ∧ a < base + vs.length then vs[a - base]? else f a

section Overlay

variable {base base' a : Nat} {us vs : List Byte} {f : Nat → Option Byte} {m : Memory}

theorem overlay_of_not (h : ¬(base ≤ a ∧ a < base + vs.length)) : overlay base vs f a = f a := if_neg h

theorem overlay_add {j : Nat} (h : j < vs.length) : overlay base vs f (base + j) = some vs[j] := by
  rw [overlay, if_pos ⟨Nat.le_add_right _ _, Nat.add_lt_add_left h _⟩, Nat.add_sub_cancel_left, List.getElem?_eq_getElem h]

@[simp] theorem overlay_nil : overlay base [] f = f := by
  funext a
  exact overlay_of_not (by simp)

theorem holds_of_read_eq_overlay (h : m.read = overlay base vs f) : holds m base vs := fun j hj => by
  rw [h, overlay_add hj]

theorem read_eq_overlay (hheld : holds m base vs) (hframe : ∀ a, ¬(base ≤ a ∧ a < base + vs.length) → m.read a = f a) :
    m.read = overlay base vs f := by
  funext a
  by_cases h : base ≤ a ∧ a < base + vs.length
  · obtain ⟨j, rfl⟩ := Nat.exists_eq_add_of_le h.1
    have hj : j < vs.length := by omega
    rw [hheld j hj, overlay_add hj]
  · rw [hframe a h, overlay_of_not h]

theorem read_write_eq_overlay (m : Memory) (a : Nat) (v : Byte) : (m.write a v).read = overlay a [v] m.read := by
  refine read_eq_overlay (fun j hj => ?_) fun b hb => Memory.read_write_ne m v ?_
  · obtain rfl : j = 0 := Nat.lt_one_iff.1 hj
    exact Memory.read_write_same m a v
  · rintro rfl
    exact hb ⟨Nat.le_refl _, Nat.lt_succ_self _⟩

/-- Bytes laid behind others continue them. -/
theorem overlay_append : overlay (base + us.length) vs (overlay base us f) = overlay base (us ++ vs) f := by
  funext a
  simp only [overlay, List.length_append]
  by_cases hus : base ≤ a ∧ a < base + us.length
  · rw [if_neg (by omega), if_pos hus, if_pos (by omega), List.getElem?_append_left (by omega)]
  · by_cases hvs : base + us.length ≤ a ∧ a < base + us.length + vs.length
    · rw [if_pos hvs, if_pos (by omega), List.getElem?_append_right (by omega), Nat.sub_add_eq]
    · rw [if_neg hvs, if_neg hus, if_neg (by omega)]

theorem overlay_comm (h : ∀ a, base ≤ a ∧ a < base + us.length → ¬(base' ≤ a ∧ a < base' + vs.length)) :
    overlay base us (overlay base' vs f) = overlay base' vs (overlay base us f) := by
  funext a
  by_cases hus : base ≤ a ∧ a < base + us.length
  · rw [overlay_of_not (h a hus)]
    simp only [overlay, if_pos hus]
  · rw [overlay_of_not hus]
    simp only [overlay, if_neg hus]

end Overlay

/-! ## Windows that keep apart (spec/40_command.md R122) -/

theorem pairwise_of_firstConflict_eq_none {ws : List Window} (h : firstConflict ws = none) :
    ws.Pairwise fun x y => ¬x.Overlaps y := by
  induction ws with
  | nil => exact .nil
  | cons x ys ih =>
    rw [firstConflict] at h
    cases hfind : ys.find? x.conflicts with
    | some y => simp [hfind] at h
    | none =>
      simp only [hfind] at h
      exact .cons (fun y hy hxy => List.find?_eq_none.1 hfind y hy ((x.conflicts_iff y).2 hxy)) (ih h)

section Apart

variable {memSize : Nat} {op : Lop} {c : CfgRegs} {a : Nat}

/-- No byte lies in two windows of a command past preflight, one of them written. -/
theorem apart_of_preflight (hpre : preflightError memSize op c = none) {x y : Window}
    (hxy : [x, y].Sublist (activeWindows op c)) (hw : x.id.written = true ∨ y.id.written = true)
    (hx : x.contains a = true) : y.contains a = false := by
  have hnot : ¬x.Overlaps y :=
    List.pairwise_pair.1 ((pairwise_of_firstConflict_eq_none (overlap_of_preflight hpre)).sublist hxy)
  by_contra hy
  rw [Bool.not_eq_false] at hy
  rw [Window.contains_iff] at hx hy
  exact hnot ⟨hw, by omega, by omega, by omega, by omega⟩

theorem srcDst_sublist (op : Lop) (c : CfgRegs) : [c.srcWindow, c.dstWindow].Sublist (activeWindows op c) := by
  cases op with
  | repackLin => exact List.Sublist.refl _
  | repackTile => rw [activeWindows_repackTile]; split_ifs <;> simp
  | rleEnc => rw [activeWindows_rleEnc]; split_ifs <;> simp

theorem palDst_apart (hpre : preflightError memSize op c = none) (hop : op = .rleEnc) (hen : c.palEn = true)
    (ha : c.palWindow.contains a = true) : c.dstWindow.contains a = false := by
  by_contra hdst
  have hsub : [c.dstWindow, c.palWindow].Sublist (activeWindows op c) := by
    rw [hop, activeWindows_rleEnc, if_pos hen]
    simp
  have := apart_of_preflight hpre hsub (.inl rfl) (Bool.not_eq_false _ ▸ hdst)
  rw [ha] at this
  cases this

theorem srcDst_apart (hpre : preflightError memSize op c = none) (ha : c.srcWindow.contains a = true) :
    c.dstWindow.contains a = false :=
  apart_of_preflight hpre (srcDst_sublist op c) (.inr rfl) ha

variable (hpre : preflightError memSize op c = none) (hop : op = .repackTile) (hen : c.idxEn = true)

include hpre hop hen

theorem srcIdx_apart (ha : c.srcWindow.contains a = true) : c.idxWindow.contains a = false := by
  refine apart_of_preflight hpre ?_ (.inr rfl) ha
  rw [hop, activeWindows_repackTile, if_pos hen]
  simp

theorem dstIdx_apart (ha : c.dstWindow.contains a = true) : c.idxWindow.contains a = false := by
  refine apart_of_preflight hpre ?_ (.inl rfl) ha
  rw [hop, activeWindows_repackTile, if_pos hen]
  simp

end Apart

/-! ## What a running command has written -/

@[simp] theorem State.start_latched (op : Lop) (s : State) : (s.start op).latched = s.regs := rfl
@[simp] theorem State.start_lop (op : Lop) (s : State) : (s.start op).lop = op := rfl

/-- The command has written `out` to DST and `side` to IDX over the memory `m`, and counted them (spec/40_command.md R131,
R132). -/
structure State.Output (m : Memory) (out side : List Byte) (s : State) : Prop where
  read : s.mem.read = overlay s.latched.dstBase.toNat out (overlay s.latched.idxBase.toNat side m.read)
  outCount : out.length = s.outCount.toNat
  idxCount : side.length = s.idxCount.toNat

section Output

variable {m : Memory} {out side : List Byte} {s : State} (h : s.Output m out side)

include h

/-- A byte outside the written parts of both windows reads as before the command. -/
theorem State.Output.read_of_not {a : Nat} (hcaps : s.InCaps) (hdst : s.latched.dstWindow.contains a = false)
    (hidx : side ≠ [] → s.latched.idxWindow.contains a = false) : s.mem.read a = m.read a := by
  rw [h.read, overlay_of_not, overlay_of_not]
  · intro ha
    have hne : side ≠ [] := List.ne_nil_of_length_pos (by omega)
    have := (Window.contains_iff s.latched.idxWindow a).2 ⟨ha.1, ha.2.trans_le (Nat.add_le_add_left (h.idxCount ▸ hcaps.2) _)⟩
    rw [hidx hne] at this
    cases this
  · intro ha
    have := (Window.contains_iff s.latched.dstWindow a).2 ⟨ha.1, ha.2.trans_le (Nat.add_le_add_left (h.outCount ▸ hcaps.1) _)⟩
    rw [hdst] at this
    cases this

/-- Checked writes with room continue what is in DST. -/
theorem State.Output.dstWrites {vs : List Byte} (hpre : preflightError s.memSize s.lop s.latched = none)
    (hroom : s.outCount.toNat + vs.length ≤ s.latched.dstCap.toNat) : ∃ n k,
      dstWrites vs s = .go (s.withOutput n k) ∧ k.toNat = s.outCount.toNat + vs.length
        ∧ (s.withOutput n k).Output m (out ++ vs) side := by
  have haddr : s.dstAddr + vs.length ≤ s.memSize := by
    have := dstWindow_fits hpre
    simp only [State.dstAddr]
    omega
  obtain ⟨n, hgo, hheld, hframe⟩ := dstWrites_fits hroom haddr
  have hcount := toNat_add_ofNat hroom
  refine ⟨n, _, hgo, hcount, ?_, by simp [h.outCount, hcount], h.idxCount⟩
  rw [State.withOutput_mem, read_eq_overlay hheld hframe, h.read, State.dstAddr, ← h.outCount, overlay_append]
  rfl

/-- A checked write to IDX with room continues what is there. -/
theorem State.Output.idxWrite (v : Byte) (hpre : preflightError s.memSize s.lop s.latched = none) (hcaps : s.InCaps)
    (hop : s.lop = .repackTile) (hen : s.latched.idxEn = true) (hroom : s.idxCount ≠ s.latched.idxCap) :
    (s.store s.idxAddr v).countIdx.Output m out (side ++ [v]) := by
  obtain ⟨hcount, hlt⟩ := toNat_add_one_of_ne hroom hcaps.2
  refine ⟨?_, h.outCount, ?_⟩
  · have hapart (a : Nat) (ha : s.idxAddr ≤ a ∧ a < s.idxAddr + [v].length) :
        ¬(s.latched.dstBase.toNat ≤ a ∧ a < s.latched.dstBase.toNat + out.length) := by
      rintro ⟨hge, hdst⟩
      have hin : s.latched.dstWindow.contains a = true :=
        (Window.contains_iff _ _).2 ⟨hge, hdst.trans_le (Nat.add_le_add_left (h.outCount ▸ hcaps.1) _)⟩
      have hidx : s.latched.idxWindow.contains a = true := by
        rw [Window.contains_iff]
        simp only [State.idxAddr, List.length_singleton] at ha
        simp only [CfgRegs.idxWindow]
        omega
      rw [dstIdx_apart hpre hop hen hin] at hidx
      cases hidx
    show (s.mem.write s.idxAddr v).read = _
    rw [read_write_eq_overlay, h.read, overlay_comm hapart, State.idxAddr, ← h.idxCount, overlay_append]
    rfl
  · show (side ++ [v]).length = (s.idxCount + 1).toNat
    rw [hcount, List.length_append, h.idxCount, List.length_singleton]

end Output

/-! ## A run to completion (spec/40_command.md R118, R128, R129) -/

/-- Turns that never fault and keep `P` while the command runs lead to its end, where `Q` holds, in the count of steps left. -/
theorem engineRun_completes {P Q : State → Prop}
    (hstep : ∀ s, s.CommandOk → s.phase ≠ .idle → P s →
      ∃ t, engineTurn s = .next t ∧ (t.phase ≠ .idle → P t) ∧ (t.phase = .idle → Q t))
    {s : State} (hok : s.CommandOk) (hbusy : s.phase ≠ .idle) (hs : P s) :
    ∃ u, engineRun s.stepsLeft s = .next u ∧ u.phase = .idle ∧ Q u := by
  obtain ⟨n, hn⟩ : ∃ n, s.stepsLeft = n := ⟨_, rfl⟩
  induction n generalizing s with
  | zero => exact absurd (State.stepsLeft_pos hbusy) (by omega)
  | succ n ih =>
    obtain ⟨t, hturn, hrun, hend⟩ := hstep s hok hbusy hs
    rw [hn, engineRun_succ hturn]
    by_cases hidle : t.phase = .idle
    · exact ⟨t, engineRun_idle (t.not_busy_iff.2 hidle) n, hidle, hend hidle⟩
    · rcases engineTurn_advances_or_fails hok hbusy hturn with ⟨hadv, -⟩ | ⟨hf, -⟩
      · have hleft : t.stepsLeft = n := by have := hadv.count hidle; omega
        have hrest := ih hadv.command hidle (hrun hidle) hleft
        rwa [hleft] at hrest
      · exact absurd hf.idle hidle

/-- What a completion without error leaves of a command started in `s` (spec/40_command.md R129). -/
structure State.Completed (s u : State) : Prop where
  phase : u.phase = .idle
  done : u.done = true
  err : u.err = s.err
  errCode : u.errCode = .none
  errInfo : u.errInfo = s.errInfo
  rej : u.rej = s.rej
  regs : u.regs = s.regs
  inCount : u.inCount = s.latched.srcLen

theorem State.completed_completeOk {s t : State} (h : t.fixed = s.fixed) (hread : t.inCount = s.latched.srcLen) :
    s.Completed t.completeOk :=
  ⟨rfl, rfl, (State.err_of_fixed h :), rfl, (State.errInfo_of_fixed h :), (State.rej_of_fixed h :), (State.regs_of_fixed h :),
    hread⟩

theorem State.completed_padded {s t : State} (h : t.fixed = s.fixed) (hread : t.inCount = s.latched.srcLen) :
    s.Completed t.setPadded.completeOk :=
  ⟨rfl, rfl, (State.err_of_fixed h :), rfl, (State.errInfo_of_fixed h :), (State.rej_of_fixed h :), (State.regs_of_fixed h :),
    hread⟩

/-- What is said of a completion depends on the command's start only through what no step changes. -/
theorem State.Completed.of_fixed {s s' u : State} (h : s.Completed u) (hfixed : s.fixed = s'.fixed) : s'.Completed u where
  phase := h.phase
  done := h.done
  err := h.err.trans (State.err_of_fixed hfixed)
  errCode := h.errCode
  errInfo := h.errInfo.trans (State.errInfo_of_fixed hfixed)
  rej := h.rej.trans (State.rej_of_fixed hfixed)
  regs := h.regs.trans (State.regs_of_fixed hfixed)
  inCount := h.inCount.trans (congrArg CfgRegs.srcLen (State.latched_of_fixed hfixed))

/-- A part that goes on keeps its phase and what no step changes. -/
theorem State.Contained.of_go {s t : State} {p : Progress} (h : s.Contained p) (hp : p = .go t) :
    t.fixed = s.fixed ∧ t.phase = s.phase := by
  rw [hp] at h
  exact ⟨h.1.fixed, h.2⟩

/-- Nothing is written when a command starts. -/
theorem State.output_start (op : Lop) (p : Phase) (s : State) : ((s.start op).inPhase p).Output s.mem [] [] :=
  ⟨by rw [overlay_nil, overlay_nil]; rfl, rfl, rfl⟩

end Sys2Proof.Machine
end

section
/-! REPACK_LIN and REPACK_TILE end to end (spec/41_repack.md R156, R161, R163 to R166): how far the pixels of the source have come
between the steps, and the completed command. -/

namespace Sys2Proof.Machine

/-! ## The streams -/

/-- The pixels of the source bytes, in read order (spec/41_repack.md R156). -/
def pixelsOf (bin : Nat) (bytes : List Byte) : List Byte := bytes.flatMap fun b => fieldPixels b bin

theorem repackBytes_eq (bin bout : Nat) (bytes : List Byte) :
    repackBytes bin bout bytes = packPixels bout (pixelsOf bin bytes) := rfl

theorem length_pixelsOf (bin : Nat) (bytes : List Byte) : (pixelsOf bin bytes).length = bytes.length * (8 / bin) :=
  length_pixels bytes bin

/-- Pixel `q` of byte `i`. -/
theorem getElem?_pixelsOf {bin q : Nat} (hq : q < 8 / bin) (bytes : List Byte) (i : Nat) :
    (pixelsOf bin bytes)[i * (8 / bin) + q]? = bytes[i]?.map fun b : Byte => b >>> (8 - (q + 1) * bin) &&& mask bin := by
  induction bytes generalizing i with
  | nil => rfl
  | cons b bytes ih =>
    have hlen := length_fieldPixels b bin
    rw [pixelsOf, List.flatMap_cons]
    cases i with
    | zero =>
      rw [Nat.zero_mul, Nat.zero_add, List.getElem?_append_left (hlen ▸ hq), List.getElem?_cons_zero]
      simp [fieldPixels, hq]
    | succ i =>
      rw [Nat.succ_mul, List.getElem?_append_right (by omega), hlen, List.getElem?_cons_succ, ← ih i, pixelsOf]
      congr 1
      omega

theorem length_packPixels (bout : Nat) (ps : List Byte) :
    (packPixels bout ps).length = (ps.length + 8 / bout - 1) / (8 / bout) := by simp [packPixels]

theorem getElem?_packPixels {bout j : Nat} {ps : List Byte} (h : j < (packPixels bout ps).length) :
    (packPixels bout ps)[j]? = some (packFields bout 0 ((ps.drop (j * (8 / bout))).take (8 / bout))) := by
  rw [length_packPixels] at h
  simp [packPixels, h]

/-- The side channel's bytes: one palette index per tile (spec/41_repack.md R161). -/
def sideStream (op : Lop) (c : CfgRegs) (bytes : List Byte) : List Byte :=
  if op = .repackTile ∧ c.idxEn = true then
    (List.range (c.srcLen.toNat / c.tileb)).map fun n => paletteIndex (bytes.getD (n * c.tileb) 0)
  else []

theorem sideStream_ne_nil {op : Lop} {c : CfgRegs} {bytes : List Byte} (h : sideStream op c bytes ≠ []) :
    op = .repackTile ∧ c.idxEn = true := by
  by_contra hn
  exact h (if_neg hn)

/-- All source read, the side channel is complete. -/
theorem length_sideStream {memSize : Nat} {op : Lop} {c : CfgRegs} (hpre : preflightError memSize op c = none)
    (bytes : List Byte) : (sideStream op c bytes).length = sideBytes op c c.srcLen.toNat := by
  have hpos := c.tileb_pos
  unfold sideStream sideBytes
  split_ifs with h
  · obtain ⟨rows, hrows⟩ := srcLen_eq_of_preflight hpre h.1
    rw [List.length_map, List.length_range, hrows, Nat.mul_div_cancel _ hpos, Nat.add_sub_assoc (by omega),
      mul_add_div_of_lt (Nat.sub_lt hpos Nat.one_pos)]
  · rfl

/-- At a tile's first byte the side channel is due that byte's palette index. -/
theorem getElem?_sideStream {op : Lop} {c : CfgRegs} {bytes : List Byte} {k : Nat} {b : Byte} (hop : op = .repackTile)
    (hen : c.idxEn = true) (hk : k % c.tileb = 0) (hlt : sideBytes op c k < c.srcLen.toNat / c.tileb)
    (hb : bytes[k]? = some b) : (sideStream op c bytes)[sideBytes op c k]? = some (paletteIndex b) := by
  have hpos := c.tileb_pos
  obtain ⟨n, rfl⟩ := Nat.dvd_of_mod_eq_zero hk
  have hside : sideBytes op c (c.tileb * n) = n := by
    rw [sideBytes, if_pos ⟨hop, hen⟩, Nat.add_sub_assoc (by omega), Nat.mul_add_div hpos,
      Nat.div_eq_of_lt (Nat.sub_lt hpos Nat.one_pos), Nat.add_zero]
  rw [hside] at hlt ⊢
  rw [sideStream, if_pos ⟨hop, hen⟩, List.getElem?_map, List.getElem?_range hlt, Option.map_some, List.getD_eq_getElem?_getD,
    Nat.mul_comm n, hb, Option.getD_some]

/-! ## How far the pixels have come -/

/-- The operands of a repack: the memory `m` it was started on holds its source `bytes`, and its windows have room. -/
structure State.Serves (m : Memory) (bytes : List Byte) (s : State) : Prop where
  reads : reads m s.lop s.latched bytes
  room : (repackBytes s.latched.bin s.latched.bout bytes).length ≤ s.latched.dstCap.toNat
  sideRoom : s.lop = .repackTile → s.latched.idxEn = true → s.latched.srcLen.toNat / s.latched.tileb ≤ s.latched.idxCap.toNat

/-- Between the steps of REPACK: the bytes written so far, the pixels waiting in ACC and those left in IN_SR. -/
structure State.Repacking (m : Memory) (bytes : List Byte) (s : State) : Prop extends s.Serves m bytes where
  output : s.Output m ((repackBytes s.latched.bin s.latched.bout bytes).take s.outCount.toNat)
    ((sideStream s.lop s.latched bytes).take s.idxCount.toNat)
  acc : s.acc = (((pixelsOf s.latched.bin bytes).drop (s.outCount.toNat * s.latched.pOut)).take s.accN).foldl
    (packStep s.latched.bout) 0
  inSr : s.inLeft ≠ 0 → ∃ x, bytes[s.inCount.toNat - 1]? = some x
    ∧ s.inSr = rol8 x ((s.latched.pIn - s.inLeft) * s.latched.bin)

section Repacking

variable {m : Memory} {bytes : List Byte} {s : State}

theorem State.Serves.length_pixelsOf (h : s.Serves m bytes) :
    (pixelsOf s.latched.bin bytes).length = s.latched.srcLen.toNat * s.latched.pIn := by
  rw [Machine.length_pixelsOf, h.reads.1, CfgRegs.pIn]

theorem State.Serves.length_repackBytes (h : s.Serves m bytes) (hop : s.lop ≠ .rleEnc) :
    (repackBytes s.latched.bin s.latched.bout bytes).length = maxOutput s.lop s.latched := by
  rw [repackBytes_eq, length_packPixels, h.length_pixelsOf, maxOutput_eq_div hop, CfgRegs.pOut]

/-- Where another output byte holds a pixel, the output has that byte. -/
theorem State.RepackCore.outCount_lt (hc : s.RepackCore) (h : s.Serves m bytes) (hpix : s.accN ≠ 0 ∨ s.inLeft ≠ 0) :
    s.outCount.toNat < (repackBytes s.latched.bin s.latched.bout bytes).length := by
  rw [h.length_repackBytes hc.op, ← Nat.succ_le_iff, le_maxOutput_iff hc.op, Nat.succ_mul]
  have hread := Nat.mul_le_mul_right s.latched.pIn hc.inCount_le
  have hpixels := hc.pixels
  omega

variable (hc : s.RepackCore) (h : s.Repacking m bytes)

include hc h

/-- The pixel that leaves IN_SR is the next of the stream (spec/41_repack.md R151). -/
theorem State.Repacking.next_pixel (hleft : s.inLeft ≠ 0) (hle : s.inLeft ≤ s.latched.pIn) :
    (pixelsOf s.latched.bin bytes)[s.outCount.toNat * s.latched.pOut + s.accN]?
      = some (rol8 s.inSr s.latched.bin &&& mask s.latched.bin) := by
  obtain ⟨x, hx, hsr⟩ := h.inSr hleft
  have hpixels := hc.pixels
  obtain ⟨i, hi⟩ : ∃ i, s.inCount.toNat = i + 1 := by
    refine Nat.exists_eq_succ_of_ne_zero fun hzero => ?_
    rw [hzero, Nat.zero_mul] at hpixels
    omega
  obtain ⟨q, hq⟩ : ∃ q, s.latched.pIn - s.inLeft = q := ⟨_, rfl⟩
  rw [hi, Nat.succ_mul] at hpixels
  have hlt : q < s.latched.pIn := by omega
  have hpos : s.outCount.toNat * s.latched.pOut + s.accN = i * s.latched.pIn + q := by omega
  have hfits : (q + 1) * s.latched.bin ≤ 8 := s.latched.pIn_mul_bin ▸ Nat.mul_le_mul_right _ hlt
  have hx' : bytes[i]? = some x := by rwa [hi, Nat.add_sub_cancel] at hx
  have hsum : q * s.latched.bin + s.latched.bin = (q + 1) * s.latched.bin := (Nat.succ_mul _ _).symm
  have hget := getElem?_pixelsOf (bin := s.latched.bin) hlt bytes i
  rw [hpos, show s.latched.pIn = 8 / s.latched.bin from rfl, hget, hx', Option.map_some, hsr, hq,
    rol8_rol8 x (by omega), hsum, rol8_and_mask x (Nat.le_mul_of_pos_left _ q.succ_pos) hfits]

/-- The pixel that enters ACC extends its group (spec/41_repack.md R153). -/
theorem State.Repacking.movePixel_acc (hleft : s.inLeft ≠ 0) (hle : s.inLeft ≤ s.latched.pIn) :
    s.movePixel.acc = (((pixelsOf s.latched.bin bytes).drop (s.outCount.toNat * s.latched.pOut)).take (s.accN + 1)).foldl
      (packStep s.latched.bout) 0 := by
  rw [List.take_add_one, List.foldl_append, ← h.acc, List.getElem?_drop, h.next_pixel hc hleft hle]
  rfl

omit hc in
/-- The pixels left in IN_SR after one has moved. -/
theorem State.Repacking.movePixel_inSr (hle : s.inLeft ≤ s.latched.pIn) (hleft : s.inLeft - 1 ≠ 0) :
    ∃ x, bytes[s.inCount.toNat - 1]? = some x
      ∧ rol8 s.inSr s.latched.bin = rol8 x ((s.latched.pIn - (s.inLeft - 1)) * s.latched.bin) := by
  obtain ⟨x, hx, hsr⟩ := h.inSr (by omega)
  have hsum : (s.latched.pIn - s.inLeft) * s.latched.bin + s.latched.bin
      = (s.latched.pIn - (s.inLeft - 1)) * s.latched.bin := by
    rw [← Nat.succ_mul]
    congr 1
    omega
  have hfits : (s.latched.pIn - (s.inLeft - 1)) * s.latched.bin ≤ 8 :=
    s.latched.pIn_mul_bin ▸ Nat.mul_le_mul_right _ (Nat.sub_le _ _)
  exact ⟨x, hx, by rw [hsr, rol8_rol8 x (by omega), hsum]⟩

/-- The pixel that completes a group leaves the next byte of the output in ACC. -/
theorem State.Repacking.completed_byte (hleft : s.inLeft ≠ 0) (hle : s.inLeft ≤ s.latched.pIn)
    (hlast : s.accN + 1 = s.latched.pOut) :
    (repackBytes s.latched.bin s.latched.bout bytes)[s.outCount.toNat]? = some s.movePixel.acc := by
  have hlen : s.accN + 1 ≤ ((pixelsOf s.latched.bin bytes).drop (s.outCount.toNat * s.latched.pOut)).length := by
    have hpixels := hc.pixels
    have hread := Nat.mul_le_mul_right s.latched.pIn hc.inCount_le
    rw [List.length_drop, h.length_pixelsOf]
    omega
  have hfields : (((pixelsOf s.latched.bin bytes).drop (s.outCount.toNat * s.latched.pOut)).take
      (s.accN + 1)).length * s.latched.bout = 8 := by
    rw [List.length_take, Nat.min_eq_left hlen, hlast, s.latched.pOut_mul_bout]
  have hpacked := foldl_packStep_shiftLeft hfields.le
  rw [hfields, Nat.sub_self, BitVec.shiftLeft_zero, ← h.movePixel_acc hc hleft hle, hlast] at hpacked
  rw [hpacked]
  exact getElem?_packPixels (hc.outCount_lt h.toServes (.inr hleft))

/-- The pixel of a step goes through, and completes its byte of the output where it is the last (spec/41_repack.md R163). -/
theorem State.Repacking.pixelStep (hleft : s.inLeft ≠ 0) (hle : s.inLeft ≤ s.latched.pIn) :
    ∃ t, pixelStep s = .go t ∧ t.Repacking m bytes := by
  have hacc := h.movePixel_acc hc hleft hle
  by_cases hlast : s.accN + 1 = s.latched.pOut
  · have hlt := hc.outCount_lt h.toServes (.inr hleft)
    obtain ⟨n, k, hgo, hk, hout⟩ := State.Output.dstWrites (s := s.movePixel) (vs := [s.movePixel.acc])
      ⟨h.output.read, h.output.outCount, h.output.idxCount⟩ hc.preflight (hlt.trans_le h.room)
    have hbyte := h.completed_byte hc hleft hle hlast
    rw [Machine.pixelStep, if_pos (show s.movePixel.accN = s.latched.pOut from hlast), ← dstWrites_singleton, hgo]
    refine ⟨_, rfl, ?_⟩
    rw [State.countTile_eq]
    have hk' : k.toNat = s.outCount.toNat + 1 := hk
    refine ⟨⟨h.reads, h.room, h.sideRoom⟩, ?_, ?_, h.movePixel_inSr hle⟩
    · have htake : (repackBytes s.latched.bin s.latched.bout bytes).take k.toNat
          = (repackBytes s.latched.bin s.latched.bout bytes).take s.outCount.toNat ++ [s.movePixel.acc] := by
        rw [hk', List.take_add_one, hbyte, Option.toList_some]
      exact htake ▸ ⟨hout.read, hout.outCount, hout.idxCount⟩
    · exact (List.take_zero ▸ rfl)
  · exact ⟨_, pixelStep_part hlast, ⟨h.reads, h.room, h.sideRoom⟩,
      ⟨h.output.read, h.output.outCount, h.output.idxCount⟩, hacc, h.movePixel_inSr hle⟩

/-- With the source read, the pixels left in ACC are those of a last partial byte, which the final shift completes
(spec/41_repack.md R164). -/
theorem State.Repacking.padded_byte (hleft : s.inLeft = 0) (hread : s.inCount = s.latched.srcLen) (hacc : s.accN ≠ 0) :
    (repackBytes s.latched.bin s.latched.bout bytes)[s.outCount.toNat]? = some s.padAcc.acc := by
  have hgroup : ((pixelsOf s.latched.bin bytes).drop (s.outCount.toNat * s.latched.pOut)).length = s.accN := by
    have hpixels := hc.pixels
    rw [hread, hleft] at hpixels
    rw [List.length_drop, h.length_pixelsOf]
    omega
  have hle : s.accN * s.latched.bout ≤ 8 := s.latched.pOut_mul_bout ▸ Nat.mul_le_mul_right _ hc.accN_lt.le
  have hpacked := foldl_packStep_shiftLeft (b := s.latched.bout) (hgroup ▸ hle)
  have hbyte := getElem?_packPixels (hc.outCount_lt h.toServes (.inl hacc))
  have hfull : ((pixelsOf s.latched.bin bytes).drop (s.outCount.toNat * s.latched.pOut)).take s.latched.pOut
      = (pixelsOf s.latched.bin bytes).drop (s.outCount.toNat * s.latched.pOut) :=
    List.take_of_length_le (hgroup ▸ hc.accN_lt.le)
  have hshift : s.padAcc.acc = s.acc <<< (8 - s.accN * s.latched.bout) := by
    show padByte s.latched.bout s.latched.pOut s.accN s.acc = _
    rw [padByte, Nat.mul_comm, Nat.sub_mul, s.latched.pOut_mul_bout]
  rw [hshift, h.acc, List.take_of_length_le hgroup.le, ← hgroup, hpacked, ← hfull]
  exact hbyte

/-- The byte that a fetch reads is the next of the source: the command has not written over it. -/
theorem State.Repacking.read_source (hmore : s.inCount ≠ s.latched.srcLen) :
    ∃ b, bytes[s.inCount.toNat]? = some b ∧ s.mem.read s.srcAddr = some b := by
  have hsrc := hc.srcAddr_mem hmore
  have hlt : s.inCount.toNat < bytes.length := h.reads.1 ▸ (toNat_add_one_of_ne hmore hc.inCount_le).2
  refine ⟨bytes[s.inCount.toNat], List.getElem?_eq_getElem hlt, ?_⟩
  rw [h.output.read_of_not ⟨hc.outCount_le, hc.idxCount_le⟩ (srcDst_apart hc.preflight hsrc) fun hside => ?_]
  · exact h.reads.2 _ hlt
  · obtain ⟨hop, hen⟩ := sideStream_ne_nil (List.ne_nil_of_take_ne_nil hside)
    exact srcIdx_apart hc.preflight hop hen hsrc

/-- A fetch puts the next source byte into IN_SR, and its palette index into IDX where one is due (spec/41_repack.md R161,
R163). -/
theorem State.Repacking.fetchByte (hmore : s.inCount ≠ s.latched.srcLen) :
    ∃ t, fetchByte s = .go t ∧ t.Repacking m bytes := by
  obtain ⟨b, hb, hread⟩ := h.read_source hc hmore
  obtain ⟨hcount, hlt⟩ := toNat_add_one_of_ne hmore hc.inCount_le
  have hin (_ : s.lop = .repackTile) := readOffset_lt (op := s.lop) hc.preflight hlt
  have haddr : s.srcAddr < s.memSize :=
    ((Window.contains_iff _ _).1 (hc.srcAddr_mem hmore)).2.trans_le (srcWindow_fits hc.preflight)
  have hsr : ∃ x, bytes[(s.inCount + 1).toNat - 1]? = some x
      ∧ b = rol8 x ((s.latched.pIn - s.latched.pIn) * s.latched.bin) :=
    ⟨b, by rw [hcount]; exact hb, by
      rw [Nat.sub_self, Nat.zero_mul, rol8_eq_shiftLeft b.isLt, BitVec.shiftLeft_zero]⟩
  cases hst : s.startsTile with
  | false => exact ⟨_, fetchByte_plain hin haddr hread hst, ⟨h.reads, h.room, h.sideRoom⟩,
      ⟨h.output.read, h.output.outCount, h.output.idxCount⟩, h.acc, fun _ => hsr⟩
  | true =>
    obtain ⟨hop, hfirst, hen⟩ := s.startsTile_iff.1 hst
    have hside : s.idxCount.toNat < s.latched.srcLen.toNat / s.latched.tileb := by
      have hsucc := sideBytes_succ s.lop s.latched s.inCount.toNat
      have hmax := sideBytes_le hc.preflight (show s.inCount.toNat + 1 ≤ _ from hlt)
      rw [if_pos ⟨hop, hfirst, hen⟩, ← hc.idxCount_eq] at hsucc
      omega
    have hidx : (sideStream s.lop s.latched bytes)[s.idxCount.toNat]? = some (paletteIndex b) := by
      rw [hc.idxCount_eq] at hside ⊢
      exact getElem?_sideStream hop hen hfirst hside hb
    have hroom : s.idxCount ≠ s.latched.idxCap := fun heq => by
      have := h.sideRoom hop hen
      rw [heq] at hside
      omega
    have hidxLt := (toNat_add_one_of_ne hroom hc.idxCount_le)
    have haddr' : s.idxAddr < s.memSize :=
      (Nat.add_lt_add_left hidxLt.2 _).trans_le (idxWindow_fits hc.preflight hop hen)
    have hout := h.output.idxWrite (paletteIndex b) hc.preflight ⟨hc.outCount_le, hc.idxCount_le⟩ hop hen hroom
    have htake : (sideStream s.lop s.latched bytes).take (s.idxCount + 1).toNat
        = (sideStream s.lop s.latched bytes).take s.idxCount.toNat ++ [paletteIndex b] := by
      rw [hidxLt.1, List.take_add_one, hidx, Option.toList_some]
    exact ⟨_, fetchByte_side hin haddr hread hst hroom haddr', ⟨h.reads, h.room, h.sideRoom⟩,
      htake ▸ ⟨hout.read, hout.outCount, hout.idxCount⟩, h.acc, fun _ => hsr⟩

/-- What the final step leaves (spec/41_repack.md R164): both streams written out and the command completed. -/
structure State.Repacked (m : Memory) (bytes : List Byte) (s u : State) : Prop where
  output : u.Output m (repackBytes s.latched.bin s.latched.bout bytes) (sideStream s.lop s.latched bytes)
  latched : u.latched = s.latched
  completed : s.Completed u
  padded : u.padded = (s.padded || decide (lenRemainder s.latched ≠ 0))
  tileCount : u.tileCount.toNat = tilesDone s.lop s.latched u.outCount.toNat

omit h in
/-- With the source read, all of the side channel has been written. -/
theorem State.RepackCore.take_sideStream (hread : s.inCount = s.latched.srcLen) :
    (sideStream s.lop s.latched bytes).take s.idxCount.toNat = sideStream s.lop s.latched bytes :=
  List.take_of_length_le (by rw [length_sideStream hc.preflight, hc.idxCount_eq, hread])

/-- With the source read, at most the partial byte is still to be written. -/
theorem State.Repacking.length_output (hleft : s.inLeft = 0) (hread : s.inCount = s.latched.srcLen) :
    (repackBytes s.latched.bin s.latched.bout bytes).length = s.outCount.toNat + if s.accN = 0 then 0 else 1 := by
  have hpos := s.latched.pOut_pos
  have hlt := hc.accN_lt
  have hpixels := hc.pixels
  rw [hread, hleft, Nat.add_zero] at hpixels
  rw [h.length_repackBytes hc.op, maxOutput_eq_div hc.op, hpixels]
  split_ifs with hacc
  · rw [hacc, Nat.add_zero, Nat.add_sub_assoc (by omega), mul_add_div_of_lt (by omega), Nat.add_zero]
  · rw [show s.outCount.toNat * s.latched.pOut + s.accN + s.latched.pOut - 1
        = (s.outCount.toNat + 1) * s.latched.pOut + (s.accN - 1) by rw [Nat.succ_mul]; omega, mul_add_div_of_lt (by omega)]

theorem State.Repacking.repackFinal (hleft : s.inLeft = 0) (hread : s.inCount = s.latched.srcLen) :
    ∃ u, repackFinal s = .go u ∧ s.Repacked m bytes u := by
  have hside := hc.take_sideStream (bytes := bytes) hread
  have hlen := h.length_output hc hleft hread
  have hrem : s.accN = lenRemainder s.latched :=
    (s.repackOk_iff.2 ⟨hc, hleft ▸ s.latched.pIn_pos⟩).accN_eq_lenRemainder hleft hread
  by_cases hacc : s.accN = 0
  · have hout := h.output
    rw [if_pos hacc, Nat.add_zero] at hlen
    rw [List.take_of_length_le hlen.le, hside] at hout
    exact ⟨_, repackFinal_nothing_pending hacc, ⟨hout.read, hout.outCount, hout.idxCount⟩, rfl,
      State.completed_completeOk rfl hread, by simp [← hrem, hacc, State.completeOk], hc.tileCount_eq⟩
  · have hlt := hc.outCount_lt h.toServes (.inl hacc)
    have hlin := (repackLin_padMode_of_lenRemainder hc.op hc.preflight (hrem ▸ hacc)).1
    have htile : s.tileCount.toNat = 0 := by
      have := hc.tileCount_eq
      rwa [hlin] at this
    obtain ⟨n, k, hgo, -, hout⟩ := State.Output.dstWrites (s := s.padAcc) (vs := [s.padAcc.acc])
      ⟨h.output.read, h.output.outCount, h.output.idxCount⟩ hc.preflight (hlt.trans_le h.room)
    have htake : (repackBytes s.latched.bin s.latched.bout bytes).take s.outCount.toNat ++ [s.padAcc.acc]
        = repackBytes s.latched.bin s.latched.bout bytes := by
      rw [if_neg hacc] at hlen
      rw [← Option.toList_some, ← h.padded_byte hc hleft hread hacc, ← List.take_add_one, List.take_of_length_le hlen.le]
    rw [htake, hside] at hout
    rw [Machine.repackFinal, if_pos hacc, ← dstWrites_singleton, hgo]
    exact ⟨_, rfl, ⟨hout.read, hout.outCount, hout.idxCount⟩, rfl,
      State.completed_padded (t := (s.padAcc.withOutput n k).clearAcc) rfl hread, by
        simp [← hrem, hacc, State.completeOk, State.clearAcc, State.setPadded], by rw [hlin]; exact htile⟩

end Repacking

/-! ## The whole command -/

/-- The engine has the turn in REPACK: it goes on with the pixels, or completes. -/
theorem State.Repacking.engineTurn {m : Memory} {bytes : List Byte} {s : State} (h : s.Repacking m bytes)
    (hok : s.CommandOk) (hphase : s.phase = .repack) (ha : s.abortReq = false) : ∃ t, engineTurn s = .next t
      ∧ (t.phase ≠ .idle → t.phase = .repack ∧ t.fixed = s.fixed ∧ t.Repacking m bytes)
      ∧ (t.phase = .idle → s.Repacked m bytes t) := by
  obtain ⟨hc, hlt⟩ := s.repackOk_iff.1 (hok.2.1 hphase)
  have hruns {t : State} (hfixed : t.fixed = s.fixed) (htphase : t.phase = s.phase) (ht : t.Repacking m bytes) :
      (t.phase ≠ .idle → t.phase = .repack ∧ t.fixed = s.fixed ∧ t.Repacking m bytes)
        ∧ (t.phase = .idle → s.Repacked m bytes t) :=
    ⟨fun _ => ⟨htphase.trans hphase, hfixed, ht⟩, fun hidle => by rw [htphase, hphase] at hidle; cases hidle⟩
  by_cases hleft : s.inLeft = 0
  · by_cases hread : s.inCount = s.latched.srcLen
    · obtain ⟨u, hgo, hu⟩ := h.repackFinal hc hleft hread
      refine ⟨u, by rw [engineTurn_repackFinal hphase ha hleft hread, hgo]; rfl, fun hrun => absurd hu.completed.phase hrun,
        fun _ => hu⟩
    · obtain ⟨t, hfetch, ht⟩ := h.fetchByte hc hread
      have hfetched := hc.fetchByte hphase hleft hread
      rw [hfetch, Progress.post_go] at hfetched
      have htleft : t.inLeft ≠ 0 := by rw [hfetched.inLeft]; exact t.latched.pIn_pos.ne'
      obtain ⟨u, hpixel, hu⟩ := ht.pixelStep hfetched.core htleft hfetched.inLeft.le
      obtain ⟨hfixed, htphase⟩ := (fetchByte_contained s).of_go hfetch
      obtain ⟨hfixed', huphase⟩ := (pixelStep_contained t).of_go hpixel
      refine ⟨u, ?_, hruns (hfixed'.trans hfixed) (huphase.trans htphase) hu⟩
      rw [engineTurn_fetch hphase ha hleft hread, hfetch, Progress.go_andThen, hpixel]
      rfl
  · obtain ⟨t, hpixel, ht⟩ := h.pixelStep hc hleft hlt.le
    obtain ⟨hfixed, htphase⟩ := (pixelStep_contained s).of_go hpixel
    exact ⟨t, by rw [engineTurn_pixel hphase ha hleft, hpixel]; rfl, hruns hfixed htphase ht⟩

theorem State.Repacked.of_fixed {m : Memory} {bytes : List Byte} {s s' u : State} (h : s.Repacked m bytes u)
    (hfixed : s.fixed = s'.fixed) : s'.Repacked m bytes u := by
  have hl := State.latched_of_fixed hfixed
  have hop := State.lop_of_fixed hfixed
  obtain ⟨hout, hlatched, hcompleted, hpadded, htile⟩ := h
  rw [hl, hop] at hout htile
  rw [hl] at hlatched
  rw [hl, State.padded_of_fixed hfixed] at hpadded
  exact ⟨hout, hlatched, hcompleted.of_fixed hfixed, hpadded, htile⟩

/-- A repack from idle, with preflight passing, its source written and room for its output (spec/41_repack.md R165, R166). -/
theorem repack_completes {op : Lop} {s : State} {bytes : List Byte} (hop : op ≠ .rleEnc) (hidle : s.phase = .idle)
    (hpre : preflightError s.memSize op s.regs = none) (hin : ((s.start op).inPhase .repack).Serves s.mem bytes) :
    ∃ u, engineRun (2 + bytes.length * s.regs.pIn) (s.start op) = .next u ∧ u.phase = .idle
      ∧ (s.start op).Repacked s.mem bytes u := by
  have hok : (s.start op).CommandOk := HostMove.commandOk (State.commandOk_of_idle hidle) (.start op hidle)
  have hturn : engineTurn (s.start op) = .next ((s.start op).inPhase .repack) := by
    have hphase : firstPhase op s.regs = .repack := by
      cases op with
      | rleEnc => exact absurd rfl hop
      | _ => rfl
    rw [engineTurn_preflight_passes (s := s.start op) rfl rfl hpre]
    exact congrArg (fun p => Host.Outcome.next ((s.start op).inPhase p)) hphase
  have hbegin : ((s.start op).inPhase .repack).Repacking s.mem bytes :=
    ⟨hin, s.output_start op .repack, (List.take_zero ▸ rfl), fun hleft => absurd rfl hleft⟩
  have hcount : ((s.start op).inPhase .repack).stepsLeft = bytes.length * s.regs.pIn + 1 := by
    rw [hin.reads.1, State.stepsLeft_repack rfl]
    rfl
  obtain ⟨u, hrun, hend, hu⟩ := engineRun_completes
    (P := fun t => t.phase = .repack ∧ t.fixed = (s.start op).fixed ∧ t.Repacking s.mem bytes)
    (Q := (s.start op).Repacked s.mem bytes)
    (fun t ht _ ⟨hphase, hfixed, hrep⟩ => by
      obtain ⟨u, hturn, hruns, hends⟩ := hrep.engineTurn ht hphase (State.abortReq_of_fixed hfixed)
      refine ⟨u, hturn, fun hu => ?_, fun hu => (hends hu).of_fixed hfixed⟩
      obtain ⟨huphase, hufixed, hurep⟩ := hruns hu
      exact ⟨huphase, hufixed.trans hfixed, hurep⟩)
    (engineTurn_keeps_commandOk hok hturn) Phase.noConfusion ⟨rfl, rfl, hbegin⟩
  refine ⟨u, ?_, hend, hu⟩
  rw [show 2 + bytes.length * s.regs.pIn = bytes.length * s.regs.pIn + 1 + 1 by omega, engineRun_succ hturn, ← hcount, hrun]

/-- Settles O28: REPACK_LIN has no side channel and no tiles. -/
theorem repackLinWritesTheRepackedPixels : Obligations.RepackLinWritesTheRepackedPixels := by
  intro s bytes hidle hpre hreads hroom
  obtain ⟨u, hrun, hend, hout, hlatched, hdone, hpadded, htile⟩ :=
    repack_completes (op := .repackLin) Lop.noConfusion hidle hpre ⟨hreads, hroom, nofun⟩
  obtain ⟨hread, houtCount, hidxCount⟩ := hout
  rw [show sideStream (s.start .repackLin).lop (s.start .repackLin).latched bytes = [] from rfl, overlay_nil, hlatched] at hread
  refine ⟨_, u, exec_command_idle hidle .repackLin, hrun, holds_of_read_eq_overlay hread, fun a ha => ?_, hend, hdone.done,
    hdone.err, hdone.errCode, hdone.errInfo, hdone.rej, ?_, hdone.inCount, houtCount.symm,
    BitVec.eq_of_toNat_eq hidxCount.symm, BitVec.eq_of_toNat_eq htile, hdone.regs⟩
  · rw [hread]
    exact overlay_of_not ha
  · rw [hpadded, hreads.1]
    exact Bool.false_or _

section Tiles

variable {memSize : Nat} {c : CfgRegs} (hpre : preflightError memSize .repackTile c = none)

include hpre

theorem srcLen_eq_tiles : c.srcLen.toNat = c.srcLen.toNat / c.tileb * c.tileb := by
  obtain ⟨rows, hrows⟩ := srcLen_eq_of_preflight hpre rfl
  rw [hrows, Nat.mul_div_cancel _ c.tileb_pos]

/-- Whole tiles fill whole output bytes. -/
theorem maxOutput_repackTile : maxOutput .repackTile c = c.srcLen.toNat / c.tileb * c.tileob := by
  have hpos := c.pOut_pos
  have hpixels : c.srcLen.toNat * c.pIn = c.srcLen.toNat / c.tileb * c.tileob * c.pOut := by
    conv_lhs => rw [srcLen_eq_tiles hpre]
    rw [Nat.mul_assoc, c.tileb_pixels, Nat.mul_assoc, c.tileob_pixels]
  rw [maxOutput_eq_div Lop.noConfusion, hpixels, Nat.add_sub_assoc hpos, mul_add_div_of_lt (Nat.sub_lt hpos Nat.one_pos)]

theorem lenRemainder_repackTile : lenRemainder c = 0 :=
  lenRemainder_of_geomRemainder ((checkGeom_eq_none c).1 (own_of_preflight hpre))

/-- The first byte of a tile, as the source holds it. -/
theorem read_tile_first {m : Memory} {bytes : List Byte} (hreads : reads m .repackTile c bytes) {n : Nat}
    (hn : n < c.srcLen.toNat / c.tileb) :
    m.read (c.srcBase.toNat + tileOffset c n 0) = some (bytes.getD (n * c.tileb) 0) := by
  have hlt : n * c.tileb < bytes.length := by
    rw [hreads.1, srcLen_eq_tiles hpre]
    exact Nat.mul_lt_mul_of_pos_right hn c.tileb_pos
  have hread := hreads.2 _ hlt
  rw [readOffset_eq_ite, if_pos rfl, Nat.mul_div_cancel _ c.tileb_pos, Nat.mul_mod_left] at hread
  rw [hread, List.getD_eq_getElem _ _ hlt]

end Tiles

/-- Settles O29: whole tiles fill whole output bytes, and each brings one byte of the side channel. -/
theorem repackTileWritesTheTiles : Obligations.RepackTileWritesTheTiles := by
  intro s bytes hidle hpre hreads hroom hside
  have hserves : ((s.start .repackTile).inPhase .repack).Serves s.mem bytes := ⟨hreads, hroom, fun _ => hside⟩
  obtain ⟨u, hrun, hend, hout, hlatched, hdone, hpadded, htile⟩ :=
    repack_completes (op := .repackTile) Lop.noConfusion hidle hpre hserves
  obtain ⟨hread, houtCount, hidxCount⟩ := hout
  have hlen : (repackBytes s.regs.bin s.regs.bout bytes).length = s.regs.srcLen.toNat / s.regs.tileb * s.regs.tileob :=
    (hserves.length_repackBytes Lop.noConfusion).trans (maxOutput_repackTile hpre)
  have hsideLen (hen : s.regs.idxEn = true) :
      (sideStream .repackTile s.regs bytes).length = s.regs.srcLen.toNat / s.regs.tileb := by simp [sideStream, hen]
  rw [hlatched] at hread
  simp only [State.start_latched, State.start_lop] at hread hidxCount
  have hcount : u.outCount.toNat = s.regs.srcLen.toNat / s.regs.tileb * s.regs.tileob := houtCount.symm.trans hlen
  refine ⟨_, u, exec_command_idle hidle .repackTile, hrun, holds_of_read_eq_overlay hread, fun hen n hn => ?_,
    fun a hdst hidx => ?_, hend, hdone.done, hdone.err, hdone.errCode, hdone.errInfo, hdone.rej, ?_, hdone.inCount, hcount,
    ?_, ?_, hdone.regs⟩
  · refine ⟨_, read_tile_first hpre hreads hn, ?_⟩
    rw [hread, overlay_of_not]
    · rw [overlay_add (hsideLen hen ▸ hn)]
      simp [sideStream, hen]
    · rintro ⟨hge, hlt⟩
      have hin : s.regs.dstWindow.contains (s.regs.idxBase.toNat + n) = true :=
        (Window.contains_iff _ _).2 ⟨hge, hlt.trans_le (Nat.add_le_add_left hroom _)⟩
      have hidx : s.regs.idxWindow.contains (s.regs.idxBase.toNat + n) = true :=
        (Window.contains_iff _ _).2 ⟨Nat.le_add_right _ _, Nat.add_lt_add_left (hn.trans_le (hside hen)) _⟩
      rw [dstIdx_apart hpre rfl hen hin] at hidx
      cases hidx
  · rw [hread, overlay_of_not hdst]
    refine overlay_of_not fun ⟨hge, hlt⟩ => ?_
    have hne : sideStream .repackTile s.regs bytes ≠ [] := List.ne_nil_of_length_pos (by omega)
    have hen := (sideStream_ne_nil hne).2
    exact hidx ⟨hen, hge, hsideLen hen ▸ hlt⟩
  · rw [hpadded]
    exact decide_eq_false (not_not.2 (lenRemainder_repackTile hpre))
  · rw [htile, hcount]
    exact Nat.mul_div_cancel _ s.regs.tileob_pos
  · rw [← hidxCount]
    split_ifs with hen
    · exact hsideLen hen
    · simp [sideStream, hen]

end Sys2Proof.Machine
end

section
/-! RLE_ENC end to end (spec/42_rle.md R205, R208 to R213; spec/30_encoding.md R103): the part of its output that is still to be
written between the steps, and the completed command. -/

namespace Sys2Proof.Machine

/-! ## What is still to be written -/

/-- Of the output `out` of a command without side channel only `rest` is still to be written over the memory `m`. -/
def State.Owes (m : Memory) (out rest : List Byte) (s : State) : Prop := ∃ done, s.Output m done [] ∧ done ++ rest = out

section Owes

variable {m : Memory} {out vs rest : List Byte} {s t : State}

/-- What is owed stands in memory, OUT_COUNT and IDX_COUNT. -/
theorem State.Owes.of_eq (h : s.Owes m out rest) (hmem : t.mem = s.mem) (hout : t.outCount = s.outCount)
    (hidx : t.idxCount = s.idxCount) (hlatched : t.latched = s.latched) : t.Owes m out rest := by
  obtain ⟨done, hdone, hrest⟩ := h
  exact ⟨done, ⟨by rw [hmem, hlatched, hdone.read], by rw [hout, hdone.outCount], by rw [hidx, hdone.idxCount]⟩, hrest⟩

/-- The bytes that are due next have room, and are then no longer owed. -/
theorem State.Owes.dstWrites (h : s.Owes m out (vs ++ rest)) (hpre : preflightError s.memSize s.lop s.latched = none)
    (hroom : out.length ≤ s.latched.dstCap.toNat) :
    ∃ n k, dstWrites vs s = .go (s.withOutput n k) ∧ (s.withOutput n k).Owes m out rest := by
  obtain ⟨done, hdone, hrest⟩ := h
  have hfits : s.outCount.toNat + vs.length ≤ s.latched.dstCap.toNat := by
    rw [← hdone.outCount]
    rw [← hrest, List.length_append, List.length_append] at hroom
    omega
  obtain ⟨n, k, hgo, -, hnext⟩ := hdone.dstWrites hpre hfits
  exact ⟨n, k, hgo, _, hnext, by rw [List.append_assoc, hrest]⟩

theorem State.Owes.read_eq (h : s.Owes m out []) : s.mem.read = overlay s.latched.dstBase.toNat out m.read := by
  obtain ⟨done, hdone, hrest⟩ := h
  rw [List.append_nil] at hrest
  rw [hdone.read, overlay_nil, hrest]

theorem State.Owes.outCount_eq (h : s.Owes m out []) : s.outCount.toNat = out.length := by
  obtain ⟨done, hdone, hrest⟩ := h
  rw [← hdone.outCount, ← hrest, List.append_nil]

/-- The sources of the encoder are as the command found them. -/
theorem State.Owes.read_source (h : s.Owes m out rest) (hcaps : s.InCaps) {a : Nat}
    (ha : s.latched.dstWindow.contains a = false) : s.mem.read a = m.read a := by
  obtain ⟨done, hdone, -⟩ := h
  exact hdone.read_of_not hcaps ha fun hne => absurd rfl hne

end Owes

/-- The output of RLE_ENC: header, palette block and tokens (spec/30_encoding.md R103). -/
def encoded (c : CfgRegs) (bytes triples : List Byte) : List Byte :=
  headerBytes c ++ paletteBytes triples ++ rleTokens (bytes.map colorOf)

/-- The tokens still to come: those of the open run and the colours behind it. -/
def State.openTokens (s : State) (colors : List Nibble) : List Byte :=
  if s.runActive = true then encodeFrom s.runColor s.runRep colors else rleTokens colors

/-- The part of the output still to come, phase by phase. -/
def State.pending (bytes triples : List Byte) (s : State) : List Byte :=
  match s.phase with
  | .pre => encoded s.latched bytes triples
  | .rleHdr => (headerBytes s.latched).drop s.hdrI ++ (paletteBytes triples ++ rleTokens (bytes.map colorOf))
  | .rlePal => paletteBytes (triples.drop (3 * s.palI.toNat)) ++ rleTokens (bytes.map colorOf)
  | .rleRun => s.openTokens ((bytes.map colorOf).drop s.inCount.toNat)
  | .repack => []
  | .idle => []

/-- Between the steps of RLE_ENC: the operands, and the part of the output already written. -/
structure State.Encoding (m : Memory) (bytes triples : List Byte) (s : State) : Prop where
  op : s.lop = .rleEnc
  preflight : preflightError s.memSize s.lop s.latched = none
  reads : reads m .rleEnc s.latched bytes
  entries : triples.length = 3 * s.latched.palLen
  palette : holds m s.latched.palBase.toNat triples
  room : (encoded s.latched bytes triples).length ≤ s.latched.dstCap.toNat
  owes : s.Owes m (encoded s.latched bytes triples) (s.pending bytes triples)

/-- What the flush leaves (spec/42_rle.md R212, step 5). -/
structure State.Encoded (m : Memory) (bytes triples : List Byte) (s u : State) : Prop where
  owes : u.Owes m (encoded s.latched bytes triples) []
  latched : u.latched = s.latched
  completed : s.Completed u
  padded : u.padded = s.padded
  idxCount : u.idxCount = 0
  tileCount : u.tileCount = 0

/-! ## The phases -/

section Phases

variable {m : Memory} {bytes triples : List Byte} {s : State}

theorem State.pending_rleHdr (h : s.phase = .rleHdr) : s.pending bytes triples =
    (headerBytes s.latched).drop s.hdrI ++ (paletteBytes triples ++ rleTokens (bytes.map colorOf)) := by
  simp only [State.pending, h]

theorem State.pending_rlePal (h : s.phase = .rlePal) : s.pending bytes triples =
    paletteBytes (triples.drop (3 * s.palI.toNat)) ++ rleTokens (bytes.map colorOf) := by simp only [State.pending, h]

theorem State.pending_rleRun (h : s.phase = .rleRun) : s.pending bytes triples =
    s.openTokens ((bytes.map colorOf).drop s.inCount.toNat) := by simp only [State.pending, h]

theorem State.openTokens_active (h : s.runActive = true) (colors : List Nibble) :
    s.openTokens colors = encodeFrom s.runColor s.runRep colors := if_pos h

theorem State.openTokens_closed (h : s.runActive = false) (colors : List Nibble) : s.openTokens colors = rleTokens colors :=
  if_neg (by simp [h])

/-- Before the first source byte all tokens are still to come. -/
theorem State.pending_tokens (h : s.phase = .rleRun) (hin : s.inCount = 0) (hact : s.runActive = false) :
    s.pending bytes triples = rleTokens (bytes.map colorOf) := by
  rw [State.pending_rleRun h, State.openTokens_closed hact, hin]
  rfl

/-- Behind the header the palette block, if any, and the tokens are still to come (spec/42_rle.md R211). -/
theorem State.pending_afterHdr (h : s.phase = afterHdr s.latched) (hin : s.inCount = 0) (hact : s.runActive = false)
    (hpal : s.palI = 0) (hentries : triples.length = 3 * s.latched.palLen) :
    s.pending bytes triples = paletteBytes triples ++ rleTokens (bytes.map colorOf) := by
  rw [afterHdr_eq_ite] at h
  split_ifs at h with hsome
  · rw [State.pending_rlePal h, hpal]
    rfl
  · have hnone : s.latched.palLen = 0 := by
      unfold CfgRegs.palLen
      split_ifs with hen
      · exact Nat.eq_zero_of_not_pos fun hpos => hsome ⟨hen, hpos⟩
      · rfl
    rw [hnone, Nat.mul_zero, List.length_eq_zero_iff] at hentries
    rw [State.pending_tokens h hin hact, hentries]
    rfl

/-- The first phase owes the whole output (spec/42_rle.md R211). -/
theorem State.pending_firstRlePhase (h : s.phase = firstRlePhase s.latched) (hat : s.AtStart)
    (hentries : triples.length = 3 * s.latched.palLen) : s.pending bytes triples = encoded s.latched bytes triples := by
  obtain ⟨hin, -, -, -, -, -, -, -, hhdr, hpal, hact, -⟩ := hat
  rw [firstRlePhase] at h
  rw [encoded, List.append_assoc]
  split_ifs at h with hen
  · rw [State.pending_rleHdr h, hhdr, List.drop_zero]
  · rw [State.pending_afterHdr h hin hact hpal hentries, headerBytes, if_neg hen, List.nil_append]

/-- A header byte goes out (spec/42_rle.md R205). -/
theorem State.Encoding.stepRleHdr (h : s.Encoding m bytes triples) (hok : s.HdrOk) (hphase : s.phase = .rleHdr) :
    ∃ t, stepRleHdr s = .go t ∧ t.phase ≠ .idle ∧ t.Encoding m bytes triples := by
  obtain ⟨-, hen, hin, hact, hpal, hlt, -⟩ := hok
  have hlen : s.hdrI < (headerBytes s.latched).length := by simpa [headerBytes, hen] using hlt
  have hhead : (headerBytes s.latched)[s.hdrI] = headerByte s.latched s.hdrI := by simp [headerBytes, hen]
  have howes := h.owes
  rw [State.pending_rleHdr hphase, List.drop_eq_getElem_cons hlen, hhead] at howes
  obtain ⟨n, k, hgo, hnext⟩ := State.Owes.dstWrites (vs := [headerByte s.latched s.hdrI]) howes h.preflight h.room
  rw [Machine.stepRleHdr, ← dstWrites_singleton, hgo]
  have hnext' : (s.withOutput n k).nextHeader.Owes m (encoded s.latched bytes triples) _ := hnext.of_eq rfl rfl rfl rfl
  refine ⟨_, rfl, ?_, h.op, h.preflight, h.reads, h.entries, h.palette, h.room, ?_⟩
  · rw [State.nextHeader_phase]
    split_ifs
    · exact afterHdr_ne_idle _
    · simp [hphase]
  · by_cases hfour : s.hdrI + 1 = 4
    · rw [State.pending_afterHdr (s := (s.withOutput n k).nextHeader) (if_pos hfour) hin hact hpal h.entries]
      rw [List.drop_of_length_le (by simp [headerBytes, hen, hfour])] at hnext'
      exact hnext'
    · rw [State.pending_rleHdr (s := (s.withOutput n k).nextHeader) ((if_neg hfour).trans hphase)]
      exact hnext'

/-- The next palette entry, as the command found it. -/
theorem State.Encoding.read_entry (h : s.Encoding m bytes triples) (hok : s.PalOk) : ∃ r g b,
    triples.drop (3 * s.palI.toNat) = r :: g :: b :: triples.drop (3 * s.palI.toNat + 3)
      ∧ s.mem.read s.palAddr = some r ∧ s.mem.read (s.palAddr + 1) = some g ∧ s.mem.read (s.palAddr + 2) = some b := by
  obtain ⟨⟨hop, hpre, hout, hidx, -⟩, hen, -, -, hlt, -⟩ := hok
  have hlen : triples.length = 3 * s.latched.palCount.toNat := by rw [h.entries, CfgRegs.palLen, if_pos hen]
  have hread (j : Nat) (hj : j < 3) : s.mem.read (s.palAddr + j) = some (triples[3 * s.palI.toNat + j]'(by omega)) := by
    rw [h.owes.read_source ⟨hout, by simp [hidx]⟩ (palDst_apart hpre hop hen (State.palAddr_mem hlt hj)), State.palAddr,
      Nat.add_assoc]
    exact h.palette _ _
  refine ⟨_, _, _, ?_, hread 0 (by omega), hread 1 (by omega), hread 2 (by omega)⟩
  rw [List.drop_eq_getElem_cons (by omega), List.drop_eq_getElem_cons (by omega), List.drop_eq_getElem_cons (by omega)]
  rfl

/-- A palette word goes out (spec/42_rle.md R208). -/
theorem State.Encoding.stepRlePal (h : s.Encoding m bytes triples) (hok : s.PalOk) (hphase : s.phase = .rlePal) :
    ∃ t, stepRlePal s = .go t ∧ t.phase ≠ .idle ∧ t.Encoding m bytes triples := by
  obtain ⟨r, g, b, hdrop, hr, hg, hb⟩ := h.read_entry hok
  obtain ⟨⟨hop, hpre, -⟩, hen, hin, hact, hlt, -⟩ := hok
  have haddr : s.palAddr + 2 < s.memSize :=
    ((Window.contains_iff _ _).1 (State.palAddr_mem hlt (by omega))).2.trans_le (palWindow_fits hpre hop hen)
  have howes := h.owes
  rw [State.pending_rlePal hphase, hdrop, paletteBytes, List.append_assoc] at howes
  obtain ⟨n, k, hgo, hnext⟩ := howes.dstWrites h.preflight h.room
  rw [stepRlePal_of_reads haddr hr hg hb, hgo]
  have hnext' : (s.withOutput n k).nextEntry.Owes m (encoded s.latched bytes triples) _ := hnext.of_eq rfl rfl rfl rfl
  have hsucc : (s.palI + 1).toNat = s.palI.toNat + 1 := by
    have := s.latched.palCount.isLt
    bv_omega
  refine ⟨_, rfl, ?_, h.op, h.preflight, h.reads, h.entries, h.palette, h.room, ?_⟩
  · rw [State.nextEntry_phase]
    split_ifs
    · exact Phase.noConfusion
    · simp [hphase]
  · by_cases hlast : s.palI + 1 = s.latched.palCount
    · have hcount : s.latched.palCount.toNat = s.palI.toNat + 1 := hlast ▸ hsucc
      rw [State.pending_tokens (s := (s.withOutput n k).nextEntry) (if_pos hlast) hin hact]
      rw [List.drop_of_length_le (by rw [h.entries, CfgRegs.palLen, if_pos hen]; omega)] at hnext'
      exact hnext'
    · rw [State.pending_rlePal (s := (s.withOutput n k).nextEntry) ((if_neg hlast).trans hphase)]
      show (s.withOutput n k).nextEntry.Owes m _ (paletteBytes (triples.drop (3 * (s.palI + 1).toNat)) ++ _)
      rw [hsucc, Nat.mul_succ]
      exact hnext'

/-- The next source byte, as the command found it. -/
theorem State.Encoding.read_byte (h : s.Encoding m bytes triples) (hok : s.RunOk) (hmore : s.inCount ≠ s.latched.srcLen) :
    ∃ b, (bytes.map colorOf).drop s.inCount.toNat = colorOf b :: (bytes.map colorOf).drop (s.inCount.toNat + 1)
      ∧ s.latched.srcBase.toNat + s.inCount.toNat < s.memSize
      ∧ s.mem.read (s.latched.srcBase.toNat + s.inCount.toNat) = some b := by
  obtain ⟨-, hpre, hout, hidx, -, hle⟩ := hok.1
  have hlt := (toNat_add_one_of_ne hmore hle).2
  have hsrc : s.latched.srcWindow.contains (s.latched.srcBase.toNat + s.inCount.toNat) = true :=
    (Window.contains_iff _ _).2 ⟨Nat.le_add_right _ _, Nat.add_lt_add_left hlt _⟩
  have hbyte : s.inCount.toNat < bytes.length := h.reads.1 ▸ hlt
  refine ⟨bytes[s.inCount.toNat], ?_, (Nat.add_lt_add_left hlt _).trans_le (srcWindow_fits hpre), ?_⟩
  · rw [List.drop_eq_getElem_cons (by rwa [List.length_map]), List.getElem_map]
  · rw [h.owes.read_source ⟨hout, by simp [hidx]⟩ (srcDst_apart hpre hsrc)]
    exact h.reads.2 _ hbyte

/-- A source byte opens a run, extends it, or sends its token out (spec/42_rle.md R209). -/
theorem State.Encoding.takeColor (h : s.Encoding m bytes triples) (hok : s.RunOk) (hphase : s.phase = .rleRun)
    (hmore : s.inCount ≠ s.latched.srcLen) :
    ∃ t, stepRleRun s = .go t ∧ t.phase ≠ .idle ∧ t.Encoding m bytes triples := by
  obtain ⟨b, hdrop, haddr, hb⟩ := h.read_byte hok hmore
  have hcount := (toNat_add_one_of_ne hmore hok.1.2.2.2.2.2).1
  have howes := h.owes
  rw [State.pending_rleRun hphase, hdrop] at howes
  rw [stepRleRun_of_read hmore haddr hb]
  have hrun {t : State} (hlatched : t.latched = s.latched) (hlop : t.lop = s.lop) (hsize : t.memSize = s.memSize)
      (htphase : t.phase = s.phase) (hread : t.inCount = s.inCount + 1) (hact : t.runActive = true)
      (ht : t.Owes m (encoded s.latched bytes triples)
        (encodeFrom t.runColor t.runRep ((bytes.map colorOf).drop (s.inCount.toNat + 1)))) :
      t.phase ≠ .idle ∧ t.Encoding m bytes triples := by
    refine ⟨by simp [htphase, hphase], hlop.trans h.op, by rw [hsize, hlop, hlatched, h.preflight], hlatched ▸ h.reads,
      hlatched ▸ h.entries, hlatched ▸ h.palette, hlatched ▸ h.room, ?_⟩
    rw [State.pending_rleRun (htphase.trans hphase), State.openTokens_active hact, hread, hcount, hlatched]
    exact ht
  by_cases hact : s.runActive = true
  · rw [State.openTokens_active hact] at howes
    by_cases hextend : colorOf b = s.runColor ∧ s.runRep.toNat < 255
    · rw [encodeFrom_extend hextend.1 hextend.2] at howes
      exact ⟨_, takeColor_extend (s := s.countIn) hact hextend.1 hextend.2,
        hrun rfl rfl rfl rfl rfl hact (howes.of_eq rfl rfl rfl rfl)⟩
    · have hbreak : colorOf b ≠ s.runColor ∨ s.runRep.toNat = 255 := by
        have := s.runRep.isLt
        by_cases hc : colorOf b = s.runColor
        · exact .inr (by have := not_and.1 hextend hc; omega)
        · exact .inl hc
      rw [encodeFrom_emit hbreak] at howes
      obtain ⟨n, k, hgo, hnext⟩ :=
        State.Owes.dstWrites (s := s.countIn) (howes.of_eq rfl rfl rfl rfl) h.preflight h.room
      have hgo' : emitRun s.countIn = .go (s.countIn.withOutput n k) := hgo
      rw [takeColor_emit (s := s.countIn) hact hbreak, hgo']
      exact ⟨_, rfl, hrun rfl rfl rfl rfl rfl hact (hnext.of_eq rfl rfl rfl rfl)⟩
  · rw [Bool.not_eq_true] at hact
    rw [State.openTokens_closed hact, rleTokens_cons] at howes
    exact ⟨_, takeColor_open (s := s.countIn) hact _, hrun rfl rfl rfl rfl rfl rfl (howes.of_eq rfl rfl rfl rfl)⟩

/-- The flush sends the last token out, if a run is open, and completes (spec/42_rle.md R210). -/
theorem State.Encoding.rleFlush (h : s.Encoding m bytes triples) (hok : s.RunOk) (hphase : s.phase = .rleRun)
    (hread : s.inCount = s.latched.srcLen) : ∃ t, rleFlush s = .go t ∧ s.Encoded m bytes triples t := by
  obtain ⟨-, -, -, hidx, htile, -⟩ := hok.1
  have hdrop : (bytes.map colorOf).drop s.inCount.toNat = [] :=
    List.drop_of_length_le (by rw [List.length_map, h.reads.1, hread])
  have howes := h.owes
  rw [State.pending_rleRun hphase, hdrop] at howes
  by_cases hact : s.runActive = true
  · rw [State.openTokens_active hact, encodeFrom, ← List.append_nil (tokenBytes _ _)] at howes
    obtain ⟨n, k, hgo, hnext⟩ := howes.dstWrites h.preflight h.room
    have hgo' : emitRun s = .go (s.withOutput n k) := hgo
    rw [rleFlush_open hact, hgo']
    exact ⟨_, rfl, hnext.of_eq rfl rfl rfl rfl, rfl,
      State.completed_completeOk (t := (s.withOutput n k).closeRun) rfl hread, rfl, hidx, htile⟩
  · rw [Bool.not_eq_true] at hact
    rw [State.openTokens_closed hact] at howes
    exact ⟨_, rleFlush_closed hact, howes.of_eq rfl rfl rfl rfl, rfl, State.completed_completeOk rfl hread, rfl, hidx, htile⟩

/-- Preflight passes and the first phase begins (spec/42_rle.md R211). -/
theorem State.Encoding.enter (h : s.Encoding m bytes triples) (hat : s.AtStart) (hphase : s.phase = .pre)
    (ha : s.abortReq = false) :
    ∃ t, engineTurn s = .next t ∧ t.phase ≠ .idle ∧ t.Encoding m bytes triples := by
  have hfirst : firstPhase s.lop s.latched = firstRlePhase s.latched := by rw [h.op]; rfl
  have howes := h.owes
  rw [State.pending, hphase] at howes
  refine ⟨s.inPhase (firstPhase s.lop s.latched), engineTurn_preflight_passes hphase ha h.preflight,
    firstPhase_ne_idle _ _, h.op, h.preflight, h.reads, h.entries, h.palette, h.room, ?_⟩
  rw [State.pending_firstRlePhase (s := s.inPhase (firstPhase s.lop s.latched)) hfirst hat h.entries]
  exact howes.of_eq rfl rfl rfl rfl

end Phases

/-! ## The whole command -/

/-- The engine has the turn: the encoder goes on with its output, or completes. -/
theorem State.Encoding.engineTurn {m : Memory} {bytes triples : List Byte} {s : State} (h : s.Encoding m bytes triples)
    (hok : s.CommandOk) (hbusy : s.phase ≠ .idle) (ha : s.abortReq = false) : ∃ t, engineTurn s = .next t
      ∧ (t.phase ≠ .idle → t.Encoding m bytes triples) ∧ (t.phase = .idle → s.Encoded m bytes triples t) := by
  have hgoes {p : Progress} (hturn : Machine.engineTurn s = p.outcome)
      (hp : ∃ t, p = .go t ∧ t.phase ≠ .idle ∧ t.Encoding m bytes triples) : ∃ t, Machine.engineTurn s = .next t
      ∧ (t.phase ≠ .idle → t.Encoding m bytes triples) ∧ (t.phase = .idle → s.Encoded m bytes triples t) := by
    obtain ⟨t, rfl, hrun, ht⟩ := hp
    exact ⟨t, hturn, fun _ => ht, fun hidle => absurd hidle hrun⟩
  obtain ⟨hpre, hrepack, hhdr, hpal, hrun⟩ := hok
  cases hphase : s.phase with
  | idle => exact absurd hphase hbusy
  | pre =>
    obtain ⟨t, hturn, hnext, ht⟩ := h.enter (hpre hphase) hphase ha
    exact ⟨t, hturn, fun _ => ht, fun hidle => absurd hidle hnext⟩
  | repack => exact absurd h.op (hrepack hphase).1
  | rleHdr => exact hgoes (engineTurn_rleHdr hphase ha) (h.stepRleHdr (hhdr hphase) hphase)
  | rlePal => exact hgoes (engineTurn_rlePal hphase ha) (h.stepRlePal (hpal hphase) hphase)
  | rleRun =>
    by_cases hread : s.inCount = s.latched.srcLen
    · obtain ⟨u, hgo, hu⟩ := h.rleFlush (hrun hphase) hphase hread
      refine ⟨u, ?_, fun hnext => absurd hu.completed.phase hnext, fun _ => hu⟩
      rw [engineTurn_rleRun hphase ha, stepRleRun_flush hread, hgo]
      rfl
    · exact hgoes (engineTurn_rleRun hphase ha) (h.takeColor (hrun hphase) hphase hread)

theorem State.Encoded.of_fixed {m : Memory} {bytes triples : List Byte} {s s' u : State} (h : s.Encoded m bytes triples u)
    (hfixed : s.fixed = s'.fixed) : s'.Encoded m bytes triples u := by
  have hl := State.latched_of_fixed hfixed
  obtain ⟨howes, hlatched, hcompleted, hpadded, hidx, htile⟩ := h
  rw [hl] at howes hlatched
  exact ⟨howes, hlatched, hcompleted.of_fixed hfixed, hpadded.trans (State.padded_of_fixed hfixed), hidx, htile⟩

/-- A turn that leaves the command running changes only what the engine works on. -/
theorem engineTurn_fixed {s t : State} (hbusy : s.phase ≠ .idle) (h : engineTurn s = .next t) (ht : t.phase ≠ .idle) :
    t.fixed = s.fixed := by
  rcases engineTurn_proceeds_or_raises hbusy h with (⟨hu, -⟩ | ⟨u, -, rfl | rfl⟩) | ⟨u, e, info, -, -, rfl⟩
  · exact hu.fixed
  all_goals exact absurd rfl ht

/-- Settles O36: what is still to be written shrinks step by step to nothing. -/
theorem rleEncWritesHeaderPaletteTokens : Obligations.RleEncWritesHeaderPaletteTokens := by
  intro s bytes triples hidle hpre hreads hentries hpalette hroom
  have hbegin : (s.start .rleEnc).Encoding s.mem bytes triples :=
    ⟨rfl, hpre, hreads, hentries, hpalette, hroom, [], s.output_start .rleEnc .pre, rfl⟩
  have hcount : (s.start .rleEnc).stepsLeft = 2 + s.regs.hdrLen + s.regs.palLen + bytes.length := by
    rw [hreads.1, State.stepsLeft_pre_rleEnc rfl rfl]
    rfl
  obtain ⟨u, hrun, hend, hu⟩ := engineRun_completes
    (P := fun t => t.fixed = (s.start .rleEnc).fixed ∧ t.Encoding s.mem bytes triples)
    (Q := (s.start .rleEnc).Encoded s.mem bytes triples)
    (fun t ht hbusy ⟨hfixed, henc⟩ => by
      obtain ⟨u, hturn, hruns, hends⟩ := henc.engineTurn ht hbusy (State.abortReq_of_fixed hfixed)
      exact ⟨u, hturn, fun hu => ⟨(engineTurn_fixed hbusy hturn hu).trans hfixed, hruns hu⟩,
        fun hu => (hends hu).of_fixed hfixed⟩)
    (HostMove.commandOk (State.commandOk_of_idle hidle) (.start .rleEnc hidle)) Phase.noConfusion ⟨rfl, hbegin⟩
  obtain ⟨howes, hlatched, hdone, hpadded, hidx, htile⟩ := hu
  have hread := howes.read_eq
  rw [hlatched] at hread
  exact ⟨_, u, exec_command_idle hidle .rleEnc, hcount ▸ hrun, holds_of_read_eq_overlay hread,
    fun a ha => by rw [hread]; exact overlay_of_not ha, hend, hdone.done, hdone.err, hdone.errCode, hdone.errInfo, hdone.rej,
    hpadded, hdone.inCount, howes.outCount_eq, hidx, htile, hdone.regs⟩

end Sys2Proof.Machine
end
